-- ==== Sys2Proof/Word.lean ====
section
/-! DEFINITION. The word types of HCORE: bytes, byte strings, nibbles and command words (R11, R12, R70). -/

namespace Sys2Proof

/-- An 8-bit byte (R12). -/
abbrev Byte := BitVec 8

/-- A byte string, byte 0 first (R12). -/
abbrev Bytes := List Byte

/-- A 4-bit value: an element of JH's state (R127). -/
abbrev Nibble := BitVec 4

/-- The 16-bit command word `CW[15:0]` (R70). -/
abbrev CommandWord := BitVec 16

end Sys2Proof
end

