-- ==== Sys2Proof/Syntax.lean ====
section
/-! DEFINITION. The six commands of `HCORE-CMD v1` (`30_encoding.md`, `40_commands.md`), one constructor for each row of
the opcode map (R74). -/

namespace Sys2Proof

/-- A command a host can issue. -/
inductive Instr where
  /-- `INIT a`: bind descriptor `a` (R91). -/
  | init (a : BitVec 4)
  /-- `RESET`: return to the virgin state of the bound descriptor (R93). -/
  | reset
  /-- `UPDATE d`: append the byte `d` to the message (R94). -/
  | update (d : BitVec 8)
  /-- `DIGEST`: finish the message (R95). -/
  | digest
  /-- `RDOUT d`: read byte `d` of the digest (R96). -/
  | rdout (d : BitVec 8)
  /-- `RDSTAT`: read the status word (R97). -/
  | rdstat
deriving DecidableEq, Repr

end Sys2Proof
end

