-- ==== Sys2Proof/WellFormed.lean ====
section
/-! DEFINITION. Which triples of fields are a command: the formats and their must-be-zero fields (R71, R72, R76).
The operands of an `Instr` have exactly the width of their fields, so every `Instr` is well formed
(`Laws/PerInstr.lean` says so per constructor); what can be ill formed is a triple of fields. -/

namespace Sys2Proof

/-- The three fields of a command word (R71). -/
structure Fields where
  op : BitVec 4
  a : BitVec 4
  d : BitVec 8
deriving DecidableEq, Repr

/-- The formats of R72. -/
inductive Format where
  /-- `A` is the algorithm code, `D` must be zero. -/
  | I
  /-- `D` is the operand, `A` must be zero. -/
  | B
  /-- `A` and `D` must be zero. -/
  | Z
deriving DecidableEq, Repr

/-- The format of an opcode, none where the opcode is reserved (R74, R76). -/
def opcodeFormat (op : BitVec 4) : Option Format :=
  match op.toNat with
  | 1 => some .I
  | 2 => some .Z
  | 3 => some .B
  | 4 => some .Z
  | 5 => some .B
  | 6 => some .Z
  | _ => none

/-- The must-be-zero check of a format (R72). -/
def Format.accepts (f : Format) (a : BitVec 4) (d : BitVec 8) : Bool :=
  match f with
  | .I => d == 0
  | .B => a == 0
  | .Z => a == 0 && d == 0

/-- A triple of fields is a command when its opcode is assigned and its must-be-zero fields are zero (R76). -/
def Fields.wellFormed (f : Fields) : Bool :=
  match opcodeFormat f.op with
  | some fmt => fmt.accepts f.a f.d
  | none => false

/-- The fields that stand for a command (R72, R73, R74). -/
def Instr.fields : Instr → Fields
  | .init a => ⟨1, a, 0⟩
  | .reset => ⟨2, 0, 0⟩
  | .update d => ⟨3, 0, d⟩
  | .digest => ⟨4, 0, 0⟩
  | .rdout d => ⟨5, 0, d⟩
  | .rdstat => ⟨6, 0, 0⟩

/-- A command is well formed when its fields are. -/
def Instr.wellFormed (i : Instr) : Bool := i.fields.wellFormed

end Sys2Proof
end

