-- ==== Sys2Proof/Decode.lean ====
section
/-! DEFINITION. Decoding and encoding of command words (`30_encoding.md`).  `decode` is the procedure of R81, total on
all 65536 words; `encode` writes the word from the format tables of R72 and R74. -/

namespace Sys2Proof

/-- Why a word is a reserved encoding (R76). -/
inductive Reserved where
  /-- The opcode is `0000` or from `0111` to `1111`. -/
  | opcode (op : BitVec 4)
  /-- The field `A` must be zero for this opcode and is not. -/
  | fieldA (op : BitVec 4)
  /-- The field `D` must be zero for this opcode and is not. -/
  | fieldD (op : BitVec 4)
deriving DecidableEq, Repr

/-- The fields `OP = CW[15:12]`, `A = CW[11:8]`, `D = CW[7:0]` of a word (R71). -/
def fieldsOf (w : CommandWord) : Fields :=
  ⟨w.extractLsb' 12 4, w.extractLsb' 8 4, w.extractLsb' 0 8⟩

/-- Accept `i` if the field `A` is zero. -/
def needZeroA (f : Fields) (i : Instr) : Except Reserved Instr :=
  if f.a = 0 then .ok i else .error (.fieldA f.op)

/-- Accept `i` if the field `D` is zero. -/
def needZeroD (f : Fields) (i : Instr) : Except Reserved Instr :=
  if f.d = 0 then .ok i else .error (.fieldD f.op)

/-- Accept `i` if the fields `A` and `D` are both zero. -/
def needZeroAD (f : Fields) (i : Instr) : Except Reserved Instr :=
  if f.a = 0 then needZeroD f i else .error (.fieldA f.op)

/-- The decoding procedure of R81 on the fields of a word. -/
def decodeFields (f : Fields) : Except Reserved Instr :=
  match f.op.toNat with
  | 1 => needZeroD f (.init f.a)
  | 2 => needZeroAD f .reset
  | 3 => needZeroA f (.update f.d)
  | 4 => needZeroAD f .digest
  | 5 => needZeroA f (.rdout f.d)
  | 6 => needZeroAD f .rdstat
  | _ => .error (.opcode f.op)

/-- The command of a word, or the reason it is reserved (R76, R77, R81). -/
def decode (w : CommandWord) : Except Reserved Instr := decodeFields (fieldsOf w)

/-- The word of three fields, `OP` in the top four bits (R71). -/
def wordOf (f : Fields) : CommandWord := f.op ++ f.a ++ f.d

/-- The command word of a command (R72, R73, R74). -/
def encode (i : Instr) : CommandWord := wordOf i.fields

/-- A row of the opcode map (R74). -/
structure OpcodeRow where
  mnemonic : String
  bits : CommandWord
  mask : CommandWord
deriving DecidableEq, Repr

/-- The opcode map of R74, row by row. -/
def opcodeMap : List OpcodeRow := [
  ⟨"INIT", 0x1000, 0xF0FF⟩,
  ⟨"RESET", 0x2000, 0xFFFF⟩,
  ⟨"UPDATE", 0x3000, 0xFF00⟩,
  ⟨"DIGEST", 0x4000, 0xFFFF⟩,
  ⟨"RDOUT", 0x5000, 0xFF00⟩,
  ⟨"RDSTAT", 0x6000, 0xFFFF⟩]

/-- A word selects a row when it agrees with the row's match bits under the row's mask (R74). -/
def OpcodeRow.selects (r : OpcodeRow) (w : CommandWord) : Bool := (w &&& r.mask) == r.bits

/-- The mnemonic of a command (R74). -/
def mnemonicOf : Instr → String
  | .init _ => "INIT"
  | .reset => "RESET"
  | .update _ => "UPDATE"
  | .digest => "DIGEST"
  | .rdout _ => "RDOUT"
  | .rdstat => "RDSTAT"

/-- The command the decoder reads from an instruction of `nbits` bits numbered as spec/opcode_table.json numbers them.
A command is one 16-bit word presented whole (R70), so a longer instruction is none. -/
def decodeTableWord (nbits w : Nat) : Option Instr :=
  if w % 2 ^ nbits < 2 ^ 16 then (decode (BitVec.ofNat 16 (w % 2 ^ nbits))).toOption else none

end Sys2Proof
end

