-- ==== Sys2Proof/Config.lean ====
section
/-! DEFINITION. What an implementation of HCORE fixes (R10).  The spec leaves two parameters open: `NINST` is the length
of a `System` (Machine/System.lean, log 6), and `WIDE_VARIANTS` is a field of State that no step writes (log 5), whose
default stands here.  No instruction writes an undefined value, so there is no free value. -/

namespace Sys2Proof.Config

/-- The default of the parameter `WIDE_VARIANTS` (R10, D28). -/
def wideVariantsDefault : Bool := true

/-- The number of message bits at which `UPDATE` raises `E_LENOVF`: 2^64, the limit of the 64-bit `LEN` (R29, R282). -/
def messageBitLimit : Nat := 2 ^ 64

end Sys2Proof.Config
end

