-- ==== Sys2Proof/Machine/BitIO.lean ====
section
/-! DEFINITION. BitIO primitives (`41_bitio.md`): byte/word conversion, rotates and shifts, modular arithmetic,
GF(2^8), the AES S-box and round, bit and nibble views.  Each is pure (R17) and total. -/

namespace Sys2Proof.Machine

/-- Element `i` of a list of words, 0 where the list ends (no rule reads past the end of its operand). -/
def nth {w : Nat} (xs : List (BitVec w)) (i : Nat) : BitVec w := xs.getD i 0

/-- `n` bytes `00`. -/
def zeros (n : Nat) : Bytes := List.replicate n 0

/-! ### Byte/word conversion -/

/-- The little-endian word of width `w` held in a byte string: byte 0 is the least significant (R110, R112). -/
def decLE (w : Nat) : Bytes → BitVec w
  | [] => 0
  | b :: bs => b.setWidth w ||| (decLE w bs <<< 8)

/-- The bytes of a word of width `w`, least significant first (R111, R112, R114). -/
def encLE {w : Nat} (x : BitVec w) : Bytes :=
  (List.range (w / 8)).map fun i => x.extractLsb' (8 * i) 8

/-- `DEC32LE` (R110). -/
def dec32LE (b : Bytes) : BitVec 32 := decLE 32 (b.take 4)

/-- `ENC32LE` (R111). -/
def enc32LE (x : BitVec 32) : Bytes := encLE x

/-- `DEC64LE` (R112). -/
def dec64LE (b : Bytes) : BitVec 64 := decLE 64 (b.take 8)

/-- `ENC64LE` of a number below `2^64` (R112). -/
def enc64LE (x : Nat) : Bytes := encLE (BitVec.ofNat 64 x)

/-- `ENC16LE` of a number below `2^16` (R114). -/
def enc16LE (x : Nat) : Bytes := encLE (BitVec.ofNat 16 x)

/-- `ENCBE_n(x)`: `n / 8` bytes, most significant first, of a number `x < 2^n` (R113). -/
def encBE (n x : Nat) : Bytes :=
  (List.range (n / 8)).map fun i => (BitVec.ofNat n x).extractLsb' (n - 8 * (i + 1)) 8

/-- `WORDS_W(block)`: sixteen little-endian words of width `w` from `2 * w` bytes (R114). -/
def words (w : Nat) (block : Bytes) : List (BitVec w) :=
  (List.range 16).map fun i => decLE w ((block.drop (w / 8 * i)).take (w / 8))

/-- `UNWORDS_W`: the inverse of `WORDS_W` (R114). -/
def unwords {w : Nat} (ws : List (BitVec w)) : Bytes := ws.flatMap encLE

/-! ### Rotates, shifts, bitwise operations -/

/-- `ROTL_w(x, n)`, total by `n mod w` as R115 asks. -/
def rotl {w : Nat} (x : BitVec w) (n : Nat) : BitVec w :=
  (x <<< (n % w)) ||| (x >>> (w - n % w))

/-- `SHL_w(x, n)`: logical shift left (R116). -/
def shl {w : Nat} (x : BitVec w) (n : Nat) : BitVec w := x <<< n

/-- `SHR_w(x, n)`: logical shift right (R117). -/
def shr {w : Nat} (x : BitVec w) (n : Nat) : BitVec w := x >>> n

/-- Exclusive or of two byte or word strings of equal length, element by element (R119). -/
def xorList {w : Nat} (xs ys : List (BitVec w)) : List (BitVec w) := List.zipWith (· ^^^ ·) xs ys

/-! ### GF(2^8), the S-box and the AES round -/

/-- `XTIME(a)`: multiplication by `x` in GF(2^8) modulo `x^8 + x^4 + x^3 + x + 1` (R120). -/
def xtime (a : Byte) : Byte := bif a.getLsbD 7 then (a <<< 1) ^^^ 0x1B#8 else a <<< 1

/-- The first `n` steps of the product recursion of R120, from the low bit of `b` up. -/
def gmulSteps : Nat → Byte → Byte → Byte
  | 0, _, _ => 0
  | n + 1, a, b => bif b.getLsbD 0 then a ^^^ gmulSteps n (xtime a) (b >>> 1) else gmulSteps n (xtime a) (b >>> 1)

/-- `GMUL(a, b)`: the product of two bytes in GF(2^8) (R120); after eight steps `b` is 0. -/
def gmul (a b : Byte) : Byte := gmulSteps 8 a b

/-- The S-box ROM as R121 prints it: row = high nibble, column = low nibble, leftmost column first. -/
def sboxRom : List (BitVec 128) := [
  0x637c777bf26b6fc53001672bfed7ab76#128,
  0xca82c97dfa5947f0add4a2af9ca472c0#128,
  0xb7fd9326363ff7cc34a5e5f171d83115#128,
  0x04c723c31896059a071280e2eb27b275#128,
  0x09832c1a1b6e5aa0523bd6b329e32f84#128,
  0x53d100ed20fcb15b6acbbe394a4c58cf#128,
  0xd0efaafb434d338545f9027f503c9fa8#128,
  0x51a3408f929d38f5bcb6da2110fff3d2#128,
  0xcd0c13ec5f974417c4a77e3d645d1973#128,
  0x60814fdc222a908846eeb814de5e0bdb#128,
  0xe0323a0a4906245cc2d3ac629195e479#128,
  0xe7c8376d8dd54ea96c56f4ea657aae08#128,
  0xba78252e1ca6b4c6e8dd741f4bbd8b8a#128,
  0x703eb5664803f60e613557b986c11d9e#128,
  0xe1f8981169d98e949b1e87e9ce5528df#128,
  0x8ca1890dbfe6426841992d0fb054bb16#128]

/-- `SBOX[a]`, the AES S-box (R121). -/
def sbox (a : Byte) : Byte :=
  (nth sboxRom (a.toNat / 16)).extractLsb' (120 - 8 * (a.toNat % 16)) 8

/-- Row `r` of the AES column held in a little-endian word (R122). -/
def columnByte (x : BitVec 32) (r : Nat) : Byte := x.extractLsb' (8 * r) 8

/-- SubBytes then ShiftRows of R122: column `c` of the result, rows 0 to 3. -/
def aesShifted (x : List (BitVec 32)) (c : Nat) : Bytes :=
  (List.range 4).map fun r => sbox (columnByte (nth x ((c + r) % 4)) r)

/-- MixColumns of R122 on one column. -/
def aesMixColumn (a : Bytes) : BitVec 32 :=
  let a0 := nth a 0
  let a1 := nth a 1
  let a2 := nth a 2
  let a3 := nth a 3
  dec32LE [
    gmul a0 2 ^^^ gmul a1 3 ^^^ a2 ^^^ a3,
    a0 ^^^ gmul a1 2 ^^^ gmul a2 3 ^^^ a3,
    a0 ^^^ a1 ^^^ gmul a2 2 ^^^ gmul a3 3,
    gmul a0 3 ^^^ a1 ^^^ a2 ^^^ gmul a3 2]

/-- `AESROUND(x0, x1, x2, x3)`, the AES round with an all-zero round key, on four column words (R122). -/
def aesRound (x : List (BitVec 32)) : List (BitVec 32) :=
  (List.range 4).map fun c => aesMixColumn (aesShifted x c)

/-! ### Bit and nibble views -/

/-- `BITS(s)`: the bits of a byte string, most significant bit of each byte first (R126). -/
def bits (s : Bytes) : List Bool :=
  s.flatMap fun b => (List.range 8).map fun k => b.getLsbD (7 - k)

/-- `UNBITS`: eight bits to a byte, most significant first (R126). -/
def unbits : List Bool → Bytes
  | b0 :: b1 :: b2 :: b3 :: b4 :: b5 :: b6 :: b7 :: rest =>
    BitVec.ofBoolListBE [b0, b1, b2, b3, b4, b5, b6, b7] :: unbits rest
  | _ => []

/-- `NIBBLES(s)`: high nibble of each byte first (R127). -/
def nibbles (s : Bytes) : List Nibble :=
  s.flatMap fun b => [b.extractLsb' 4 4, b.extractLsb' 0 4]

/-- `UNNIBBLES`: the inverse of `NIBBLES` (R127). -/
def unnibbles : List Nibble → Bytes
  | hi :: lo :: rest => (hi ++ lo) :: unnibbles rest
  | _ => []

end Sys2Proof.Machine
end

