-- ==== Sys2Proof/Machine/Bmw.lean ====
section
/-! DEFINITION. The BMW family (`43_bmw.md`), for words of width `w` = 32 (BMW224/256) or 64 (BMW384/512).
`H`, `M`, `Q` and the results are lists of words, element 0 first; `+` and `-` wrap modulo `2^w` (R118). -/

namespace Sys2Proof.Machine

/-- The four shift and rotation amounts of one `s_k` (R163): right shift, left shift, two left rotations. -/
structure BmwAmounts where
  a : Nat
  b : Nat
  c : Nat
  d : Nat
deriving DecidableEq, Repr

/-- R163: the amounts of `s0 .. s3` for the word width. -/
def bmwAmounts (w : Nat) : List BmwAmounts :=
  if w = 64 then [⟨1, 3, 4, 37⟩, ⟨1, 2, 13, 43⟩, ⟨2, 1, 19, 53⟩, ⟨2, 2, 28, 59⟩]
  else [⟨1, 3, 4, 19⟩, ⟨1, 2, 8, 23⟩, ⟨2, 1, 12, 25⟩, ⟨2, 2, 15, 29⟩]

/-- R163: the rotation amounts of `r1 .. r7` for the word width. -/
def bmwRotations (w : Nat) : List Nat :=
  if w = 64 then [5, 11, 27, 32, 37, 43, 53] else [3, 7, 13, 16, 19, 23, 27]

/-- `BMW.S_k(x)` for `k = 0 .. 5` (R162); no rule uses another `k`. -/
def bmwS {w : Nat} (k : Nat) (x : BitVec w) : BitVec w :=
  match k with
  | 4 => shr x 1 ^^^ x
  | 5 => shr x 2 ^^^ x
  | k =>
    let t := (bmwAmounts w).getD k ⟨0, 0, 0, 0⟩
    shr x t.a ^^^ shl x t.b ^^^ rotl x t.c ^^^ rotl x t.d

/-- `BMW.R_k(x)` for `k = 1 .. 7` (R164). -/
def bmwR {w : Nat} (k : Nat) (x : BitVec w) : BitVec w := rotl x ((bmwRotations w).getD (k - 1) 0)

/-- The expansion constant `K[j]` (R168). -/
def bmwK (w j : Nat) : BitVec w :=
  BitVec.ofNat w ((j + 16) * (if w = 64 then 0x0555555555555555 else 0x05555555))

/-- The final constant block `CF` (R173). -/
def bmwCF (w : Nat) : List (BitVec w) :=
  (List.range 16).map fun i => BitVec.ofNat w ((if w = 64 then 0xaaaaaaaaaaaaaaa0 else 0xaaaaaaa0) + i)

/-- One term of the sign table of R165: `true` adds `T[i]`, `false` subtracts it. -/
abbrev BmwTerm := Bool × Nat

/-- The sign table of R165, row `i` the terms of `Wv[i]` in the order the rule lists them. -/
def bmwTerms : List (List BmwTerm) := [
  [(true, 5), (false, 7), (true, 10), (true, 13), (true, 14)],
  [(true, 6), (false, 8), (true, 11), (true, 14), (false, 15)],
  [(true, 0), (true, 7), (true, 9), (false, 12), (true, 15)],
  [(true, 0), (false, 1), (true, 8), (false, 10), (true, 13)],
  [(true, 1), (true, 2), (true, 9), (false, 11), (false, 14)],
  [(true, 3), (false, 2), (true, 10), (false, 12), (true, 15)],
  [(true, 4), (false, 0), (false, 3), (false, 11), (true, 13)],
  [(true, 1), (false, 4), (false, 5), (false, 12), (false, 14)],
  [(true, 2), (false, 5), (false, 6), (true, 13), (false, 15)],
  [(true, 0), (false, 3), (true, 6), (false, 7), (true, 14)],
  [(true, 8), (false, 1), (false, 4), (false, 7), (true, 15)],
  [(true, 8), (false, 0), (false, 2), (false, 5), (true, 9)],
  [(true, 1), (true, 3), (false, 6), (false, 9), (true, 10)],
  [(true, 2), (true, 4), (true, 7), (true, 10), (true, 11)],
  [(true, 3), (false, 5), (true, 8), (false, 11), (false, 12)],
  [(true, 12), (false, 4), (false, 6), (false, 9), (true, 13)]]

/-- The signed sum of one row of the table, from the left. -/
def bmwSum {w : Nat} (t : List (BitVec w)) (row : List BmwTerm) : BitVec w :=
  row.foldl (fun acc p => if p.1 then acc + nth t p.2 else acc - nth t p.2) 0

/-- `BMW.W(H, M)` (R165). -/
def bmwW {w : Nat} (H M : List (BitVec w)) : List (BitVec w) :=
  bmwTerms.map (bmwSum (xorList M H))

/-- `BMW.Q0(H, M)`: `Q[0..15]` (R166). -/
def bmwQ0 {w : Nat} (H M : List (BitVec w)) : List (BitVec w) :=
  let wv := bmwW H M
  (List.range 16).map fun i => bmwS (i % 5) (nth wv i) + nth H ((i + 1) % 16)

/-- The message word `M[k mod 16]` rotated left by `k mod 16 + 1`, as ADDELT reads it (R167). -/
def bmwRotM {w : Nat} (M : List (BitVec w)) (k : Nat) : BitVec w := rotl (nth M (k % 16)) (k % 16 + 1)

/-- `BMW.ADDELT(j, H, M)` (R167). -/
def bmwAddElt {w : Nat} (j : Nat) (H M : List (BitVec w)) : BitVec w :=
  (bmwRotM M j + bmwRotM M (j + 3) - bmwRotM M (j + 10) + bmwK w j) ^^^ nth H ((j + 7) % 16)

/-- `BMW.EXPAND1(j, Q, H, M)`: term `k` is `s_((k+1) mod 4)(Q[j+k])` (R169). -/
def bmwExpand1 {w : Nat} (j : Nat) (Q H M : List (BitVec w)) : BitVec w :=
  (List.range 16).foldl (fun acc k => acc + bmwS ((k + 1) % 4) (nth Q (j + k))) 0 + bmwAddElt j H M

/-- `BMW.EXPAND2(j, Q, H, M)` (R170). -/
def bmwExpand2 {w : Nat} (j : Nat) (Q H M : List (BitVec w)) : BitVec w :=
  nth Q j + bmwR 1 (nth Q (j + 1)) + nth Q (j + 2) + bmwR 2 (nth Q (j + 3)) +
    nth Q (j + 4) + bmwR 3 (nth Q (j + 5)) + nth Q (j + 6) + bmwR 4 (nth Q (j + 7)) +
    nth Q (j + 8) + bmwR 5 (nth Q (j + 9)) + nth Q (j + 10) + bmwR 6 (nth Q (j + 11)) +
    nth Q (j + 12) + bmwR 7 (nth Q (j + 13)) + bmwS 4 (nth Q (j + 14)) + bmwS 5 (nth Q (j + 15)) +
    bmwAddElt j H M

/-- One of the sixteen rounds of R171: the word `Q[j + 16]`. -/
def bmwExpandWord {w : Nat} (j : Nat) (Q H M : List (BitVec w)) : BitVec w :=
  if j < 2 then bmwExpand1 j Q H M else bmwExpand2 j Q H M

/-- `BMW.EXPAND(Q[0..15], H, M)`: sixteen rounds, each appending one word (R171). -/
def bmwExpand {w : Nat} (Q H M : List (BitVec w)) : List (BitVec w) :=
  (List.range 16).foldl (fun Q j => Q ++ [bmwExpandWord j Q H M]) Q

/-- `XL` of R172. -/
def bmwXL {w : Nat} (Q : List (BitVec w)) : BitVec w := ((Q.drop 16).take 8).foldl (· ^^^ ·) 0

/-- `XH` of R172. -/
def bmwXH {w : Nat} (Q : List (BitVec w)) : BitVec w := ((Q.drop 24).take 8).foldl (· ^^^ ·) (bmwXL Q)

/-- `BMW.FOLD(Q, M)`: the new chaining value `G[0..15]` (R172, its pseudocode line by line). -/
def bmwFold {w : Nat} (Q M : List (BitVec w)) : List (BitVec w) :=
  let xl := bmwXL Q
  let xh := bmwXH Q
  let q := nth Q
  let m := nth M
  let g0 := (shl xh 5 ^^^ shr (q 16) 5 ^^^ m 0) + (xl ^^^ q 24 ^^^ q 0)
  let g1 := (shr xh 7 ^^^ shl (q 17) 8 ^^^ m 1) + (xl ^^^ q 25 ^^^ q 1)
  let g2 := (shr xh 5 ^^^ shl (q 18) 5 ^^^ m 2) + (xl ^^^ q 26 ^^^ q 2)
  let g3 := (shr xh 1 ^^^ shl (q 19) 5 ^^^ m 3) + (xl ^^^ q 27 ^^^ q 3)
  let g4 := (shr xh 3 ^^^ q 20 ^^^ m 4) + (xl ^^^ q 28 ^^^ q 4)
  let g5 := (shl xh 6 ^^^ shr (q 21) 6 ^^^ m 5) + (xl ^^^ q 29 ^^^ q 5)
  let g6 := (shr xh 4 ^^^ shl (q 22) 6 ^^^ m 6) + (xl ^^^ q 30 ^^^ q 6)
  let g7 := (shr xh 11 ^^^ shl (q 23) 2 ^^^ m 7) + (xl ^^^ q 31 ^^^ q 7)
  let g8 := rotl g4 9 + (xh ^^^ q 24 ^^^ m 8) + (shl xl 8 ^^^ q 23 ^^^ q 8)
  let g9 := rotl g5 10 + (xh ^^^ q 25 ^^^ m 9) + (shr xl 6 ^^^ q 16 ^^^ q 9)
  let g10 := rotl g6 11 + (xh ^^^ q 26 ^^^ m 10) + (shl xl 6 ^^^ q 17 ^^^ q 10)
  let g11 := rotl g7 12 + (xh ^^^ q 27 ^^^ m 11) + (shl xl 4 ^^^ q 18 ^^^ q 11)
  let g12 := rotl g0 13 + (xh ^^^ q 28 ^^^ m 12) + (shr xl 3 ^^^ q 19 ^^^ q 12)
  let g13 := rotl g1 14 + (xh ^^^ q 29 ^^^ m 13) + (shr xl 4 ^^^ q 20 ^^^ q 13)
  let g14 := rotl g2 15 + (xh ^^^ q 30 ^^^ m 14) + (shr xl 7 ^^^ q 21 ^^^ q 14)
  let g15 := rotl g3 16 + (xh ^^^ q 31 ^^^ m 15) + (shr xl 2 ^^^ q 22 ^^^ q 15)
  [g0, g1, g2, g3, g4, g5, g6, g7, g8, g9, g10, g11, g12, g13, g14, g15]

/-- `BMW.COMPRESS_W(H, M)`, the document's `f0` (R176). -/
def bmwCompress {w : Nat} (H M : List (BitVec w)) : List (BitVec w) :=
  bmwFold (bmwExpand (bmwQ0 H M) H M) M

/-- `BMW.FINAL_W(H)`, the document's `f1`: the constant block is the chaining value, `H` the message (R177). -/
def bmwFinal {w : Nat} (H : List (BitVec w)) : List (BitVec w) := bmwCompress (bmwCF w) H

/-- `BMW.PAD(tail, msgbits)` for blocks of `bs` bytes: one or two blocks (R178). -/
def bmwPad (bs : Nat) (tail : Bytes) (msgbits : Nat) : List Bytes :=
  let p := tail ++ [0x80#8]
  if tail.length + 1 > bs - 8 then
    [p ++ zeros (bs - tail.length - 1), zeros (bs - 8) ++ enc64LE msgbits]
  else
    [p ++ zeros (bs - 9 - tail.length) ++ enc64LE msgbits]

/-- The state after the padded blocks and the final stage (R179). -/
def bmwFinished (w : Nat) (H : List (BitVec w)) (tail : Bytes) (msgbits : Nat) : List (BitVec w) :=
  bmwFinal ((bmwPad (2 * w) tail msgbits).foldl (fun H b => bmwCompress H (words w b)) H)

/-- `BMW.FINALIZE(H, tail, msgbits)`: the last `8 * OB / W` words, each little-endian (R179). -/
def bmwFinalize (w : Nat) (ob : Nat) (H : List (BitVec w)) (tail : Bytes) (msgbits : Nat) : Bytes :=
  unwords ((bmwFinished w H tail msgbits).drop (16 - 8 * ob / w))

/-- The initial value of R161: sixteen words whose bytes count up from `first`, read big-endian. -/
def bmwIV (w first : Nat) : List (BitVec w) :=
  (List.range 16).map fun i =>
    (List.range (w / 8)).foldl (fun x k => (x <<< 8) ||| BitVec.ofNat w (first + w / 8 * i + k)) 0

end Sys2Proof.Machine
end

