-- ==== Sys2Proof/Machine/Groestl.lean ====
section
/-! DEFINITION. The Groestl family (`44_groestl.md`), for `nc` = 8 columns (GROESTL224/256) or 16 (GROESTL384/512).
A matrix is the list of its columns, each the list of its 8 bytes from row 0 down. -/

namespace Sys2Proof.Machine

/-- Which of the two permutations a round belongs to. -/
inductive GroestlKind where
  | p
  | q
deriving DecidableEq, Repr

/-- A matrix as the list of its columns (R190). -/
abbrev Columns := List Bytes

/-- The byte `A[r][c]` of a matrix. -/
def cell (A : Columns) (r c : Nat) : Byte := nth (A.getD c []) r

/-- `GROESTL.TOMATRIX(x)`: `A[r][c] = x[8 * c + r]` (R192). -/
def groestlToMatrix (nc : Nat) (x : Bytes) : Columns :=
  (List.range nc).map fun c => (List.range 8).map fun r => nth x (8 * c + r)

/-- `GROESTL.FROMMATRIX(A)`, the inverse (R192). -/
def groestlFromMatrix (A : Columns) : Bytes := A.flatten

/-- The MixBytes coefficients `MIX[0..7]` (R194). -/
def groestlMixCoeffs : Bytes := [0x02, 0x02, 0x03, 0x04, 0x05, 0x03, 0x05, 0x07]

/-- The circulant matrix `B[i][j] = MIX[(j - i) mod 8]` (R194), for `i, j < 8`. -/
def groestlB (i j : Nat) : Byte := nth groestlMixCoeffs ((j + 8 - i) % 8)

/-- The shift vector of a permutation and shape (R195). -/
def groestlShiftVector (nc : Nat) (kind : GroestlKind) : List Nat :=
  match kind with
  | .p => if nc = 16 then [0, 1, 2, 3, 4, 5, 6, 11] else [0, 1, 2, 3, 4, 5, 6, 7]
  | .q => if nc = 16 then [1, 3, 5, 11, 0, 2, 4, 6] else [1, 3, 5, 7, 0, 2, 4, 6]

/-- The number of rounds `NR` (`44_groestl.md`, introduction, and R200). -/
def groestlRounds (nc : Nat) : Nat := if nc = 16 then 14 else 10

/-- The round constant `(c << 4) ^ r` of column `c` in round `r` (R196). -/
def groestlRoundConst (c r : Nat) : Byte := (BitVec.ofNat 8 c <<< 4) ^^^ BitVec.ofNat 8 r

/-- What round `r` does to the byte at row `i`, column `c` (R196). -/
def groestlArcByte (kind : GroestlKind) (r c i : Nat) (x : Byte) : Byte :=
  match kind with
  | .p => if i = 0 then x ^^^ groestlRoundConst c r else x
  | .q => if i = 7 then x ^^^ 0xff#8 ^^^ groestlRoundConst c r else x ^^^ 0xff#8

/-- `GROESTL.ARC(kind, A, r)`, AddRoundConstant (R196). -/
def groestlArc (nc : Nat) (kind : GroestlKind) (A : Columns) (r : Nat) : Columns :=
  (List.range nc).map fun c => (List.range 8).map fun i => groestlArcByte kind r c i (cell A i c)

/-- `GROESTL.SUB(A)`, SubBytes (R197). -/
def groestlSub (A : Columns) : Columns := A.map fun col => col.map sbox

/-- `GROESTL.SHIFT(kind, A)`: row `i` rotated left by `σ[i]` places (R197). -/
def groestlShift (nc : Nat) (kind : GroestlKind) (A : Columns) : Columns :=
  (List.range nc).map fun c => (List.range 8).map fun i =>
    cell A i ((c + (groestlShiftVector nc kind).getD i 0) % nc)

/-- Entry `i` of a column multiplied by `B` (R198). -/
def groestlMixEntry (col : Bytes) (i : Nat) : Byte :=
  (List.range 8).foldl (fun acc j => acc ^^^ gmul (groestlB i j) (nth col j)) 0

/-- `GROESTL.MIX(A)`, MixBytes: each column multiplied by `B` over GF(2^8) (R198). -/
def groestlMix (A : Columns) : Columns :=
  A.map fun col => (List.range 8).map (groestlMixEntry col)

/-- `GROESTL.ROUND(kind, A, r)` (R200). -/
def groestlRound (nc : Nat) (kind : GroestlKind) (A : Columns) (r : Nat) : Columns :=
  groestlMix (groestlShift nc kind (groestlSub (groestlArc nc kind A r)))

/-- The permutations `GROESTL.P` and `GROESTL.Q` (R200). -/
def groestlPerm (nc : Nat) (kind : GroestlKind) (x : Bytes) : Bytes :=
  groestlFromMatrix
    ((List.range (groestlRounds nc)).foldl (groestlRound nc kind) (groestlToMatrix nc x))

/-- `GROESTL.COMPRESS(h, m) = P(h ^ m) ^ Q(m) ^ h` (R199). -/
def groestlCompress (nc : Nat) (h m : Bytes) : Bytes :=
  xorList (xorList (groestlPerm nc .p (xorList h m)) (groestlPerm nc .q m)) h

/-- `GROESTL.PAD(tail, msgbits)` for blocks of `bs` bytes: the length field counts blocks (R201). -/
def groestlPad (bs : Nat) (tail : Bytes) (msgbits : Nat) : List Bytes :=
  let nfull := msgbits / (8 * bs)
  let p := tail ++ [0x80#8]
  if tail.length + 1 > bs - 8 then
    [p ++ zeros (bs - tail.length - 1), zeros (bs - 8) ++ encBE 64 (nfull + 2)]
  else
    [p ++ zeros (bs - 9 - tail.length) ++ encBE 64 (nfull + 1)]

/-- `GROESTL.OUTPUT(h)`: the last `ob` bytes of `P(h) ^ h` (R203). -/
def groestlOutput (nc ob : Nat) (h : Bytes) : Bytes :=
  (xorList (groestlPerm nc .p h) h).drop (8 * nc - ob)

/-- `GROESTL.FINALIZE(h, tail, msgbits)` (R202). -/
def groestlFinalize (nc ob : Nat) (h tail : Bytes) (msgbits : Nat) : Bytes :=
  groestlOutput nc ob ((groestlPad (8 * nc) tail msgbits).foldl (groestlCompress nc) h)

/-- The initial value of R191: zeros, then the output size in bits as a 16-bit big-endian number. -/
def groestlIV (nc ob : Nat) : Bytes := zeros (8 * nc - 2) ++ encBE 16 (8 * ob)

end Sys2Proof.Machine
end

