-- ==== Sys2Proof/Machine/Jh.lean ====
section
/-! DEFINITION. The JH family (`45_jh.md`): four output sizes over one 1024-bit state and one 64-byte block.
The state is the 1024-bit string `BITS(H)`, bit 0 the most significant (R126, R220); a block is a 512-bit string. -/

namespace Sys2Proof.Machine

/-! ### Constants -/

/-- The S-box `S0` (R224). -/
def jhS0 : List Nibble := [9, 0, 4, 11, 13, 12, 3, 15, 1, 10, 2, 6, 7, 5, 8, 14]

/-- The S-box `S1` (R224). -/
def jhS1 : List Nibble := [3, 12, 6, 13, 5, 7, 1, 9, 15, 2, 0, 4, 11, 10, 14, 8]

/-- The seed `C[0]` of the round constants (R228). -/
def jhSeed : BitVec 256 := 0x6a09e667f3bcc908b2fb1366ea957d3e3adec17512775099da2f590b0667322a#256

/-- The round-constant ROM `C[0..41]` (R229), byte 0 of a row the most significant. -/
def jhConstants : List (BitVec 256) := [
  0x6a09e667f3bcc908b2fb1366ea957d3e3adec17512775099da2f590b0667322a#256,
  0xbb896bf05955abcd5281828d66e7d99ac4203494f89bf12817deb43288712231#256,
  0x1836e76b12d79c55118a1139d2417df52a2021225ff6350063d88e5f1f91631c#256,
  0x263085a7000fa9c3317c6ca8ab65f7a7713cf4201060ce886af855a90d6a4eed#256,
  0x1cebafd51a156aeb62a11fb3be2e14f60b7e48de85814270fd62e97614d7b441#256,
  0xe5564cb574f7e09c75e2e244929e9549279ab224a28e445d57185e7d7a09fdc1#256,
  0x5820f0f0d764cff3a5552a5e41a82b9eff6ee0aa615773bb07e8603424c3cf8a#256,
  0xb126fb741733c5bfcef6f43a62e8e5706a26656028aa897ec1ea4616ce8fd510#256,
  0xdbf0de32bca77254bb4f562581a3bc991cf94f225652c27f14eae958ae6aa616#256,
  0xe6113be617f45f3de53cff03919a94c32c927b093ac8f23b47f7189aadb9bc67#256,
  0x80d0d26052ca45d593ab5fb3102506390083afb5ffe107dacfcba7dbe601a12b#256,
  0x43af1c76126714dfa950c368787c81ae3beecf956c85c962086ae16e40ebb0b4#256,
  0x9aee8994d2d74a5cdb7b1ef294eed5c1520724dd8ed58c92d3f0e174b0c32045#256,
  0x0b2aa58ceb3bdb9e1eef66b376e0c565d5d8fe7bacb8da866f859ac521f3d571#256,
  0x7a1523ef3d970a3a9b0b4d610e02749d37b8d57c1885fe4206a7f338e8356866#256,
  0x2c2db8f7876685f2cd9a2e0ddb64c9d5bf13905371fc39e0fa86e1477234a297#256,
  0x9df085eb2544ebf62b50686a71e6e828dfed9dbe0b106c9452ceddff3d138990#256,
  0xe6e5c42cb2d460c9d6e4791a1681bb2e222e54558eb78d5244e217d1bfcf5058#256,
  0x8f1f57e44e126210f00763ff57da208a5093b8ff7947534a4c260a17642f72b2#256,
  0xae4ef4792ea148608cf116cb2bff66e8fc74811266cd641112cd17801ed38b59#256,
  0x91a744efbf68b192d0549b608bdb3191fc12a0e83543cec5f882250b244f78e4#256,
  0x4b5d27d3368f9c17d4b2a2b216c7e74e7714d2cc03e1e44588cd9936de74357c#256,
  0x0ea17cafb8286131bda9e3757b3610aa3f77a6d0575053fc926eea7e237df289#256,
  0x848af9f57eb1a616e2c342c8cea528b8a95a5d16d9d87be9bb3784d0c351c32b#256,
  0xc0435cc3654fb85dd9335ba91ac3dbde1f85d567d7ad16f9de6e009bca3f95b5#256,
  0x927547fe5e5e45e2fe99f1651ea1cbf097dc3a3d40ddd21cee260543c288ec6b#256,
  0xc117a3770d3a34469d50dfa7db020300d306a365374fa828c8b780ee1b9d7a34#256,
  0x8ff2178ae2dbe5e872fac789a34bc228debf54a882743caad14f3a550fdbe68f#256,
  0xabd06c52ed58ff091205d0f627574c8cbc1fe7cf79210f5a2286f6e23a27efa0#256,
  0x631f4acb8d3ca4253e301849f157571d3211b6c1045347befb7c77df3c6ca7bd#256,
  0xae88f2342c23344590be2014fab4f179fd4bf7c90db14fa4018fcce689d2127b#256,
  0x93b89385546d71379fe41c39bc602e8b7c8b2f78ee914d1f0af0d437a189a8a4#256,
  0x1d1e036abeef3f44848cd76ef6baa889fcec56cd7967eb909a464bfc23c72435#256,
  0xa8e4ede4c5fe5e88d4fb192e0a0821e935ba145bbfc59c2508282755a5df53a5#256,
  0x8e4e37a3b970f079ae9d22a499a714c875760273f74a9398995d32c05027d810#256,
  0x61cfa42792f93b9fde36eb163e978709fafa7616ec3c7dad0135806c3d91a21b#256,
  0xf037c5d91623288b7d0302c1b941b72676a943b372659dcd7d6ef408a11b40c0#256,
  0x2a306354ca3ea90b0e97eaebcea0a6d7c6522399e885c613de824922c892c490#256,
  0x3ca6cdd788a5bdc5ef2dceeb16bca31e0a0d2c7e9921b6f71d33e25dd2f3cf53#256,
  0xf72578721db56bf8f49538b0ae6ea470c2fb1339dd26333f135f7def45376ec0#256,
  0xe449a03eab359e34095f8b4b55cd7ac7c0ec6510f2c4cc79fa6b1fee6b18c59e#256,
  0x73bd6978c59f2b219449b36770fb313fbe2da28f6b04275f071a1b193dde2072#256]

/-- The initial value of JH224 (R222). -/
def jhIV224 : BitVec 1024 :=
  0x2dfedd62f99a98acae7cacd619d634e7a4831005bc301216b86038c6c9661494#256 ++
  0x66d9899f2580706fce9ea31b1d9b1adc11e8325f7b366e10f994857f02fa06c1#256 ++
  0x1b4f1b5cd8c840b397f6a17f6e738099dcdf93a5adeaa3d3a431e8dec9539a68#256 ++
  0x22b4a98aec86a1e4d574ac959ce56cf015960deab5ab2bbf9611dcf0dd64ea6e#256

/-- The initial value of JH256 (R222). -/
def jhIV256 : BitVec 1024 :=
  0xeb98a3412c20d3eb92cdbe7b9cb245c11c93519160d4c7fa260082d67e508a03#256 ++
  0xa4239e267726b945e0fb1a48d41a9477cdb5ab26026b177a56f024420fff2fa8#256 ++
  0x71a396897f2e4d751d144908f77de262277695f776248f9487d5b6574780296c#256 ++
  0x5c5e272dac8e0d6c518450c657057a0f7be4d367702412ea89e3ab13d31cd769#256

/-- The initial value of JH384 (R222). -/
def jhIV384 : BitVec 1024 :=
  0x481e3bc6d813398a6d3b5e894ade879b63faea68d480ad2e332ccb21480f8267#256 ++
  0x98aec84d9082b928d455ea304111424936f555b2924847ecc7250a93baf43ce1#256 ++
  0x569b7f8a27db454c9efcbd496397af0e589fc27d26aa80cd80c08b8c9deb2eda#256 ++
  0x8a7981e8f8d5373af43967adddd17a71a9b4d3bda475d394976c3fba9842737f#256

/-- The initial value of JH512 (R222). -/
def jhIV512 : BitVec 1024 :=
  0x6fd14b963e00aa17636a2e057a15d5438a225e8d0c97ef0be9341259f2b3c361#256 ++
  0x891da0c1536f801e2aa9056bea2b6d80588eccdb2075baa6a90f3a76baf83bf7#256 ++
  0x0169e60541e34a6946b58a8e2e6fe65a1047a7d0c1843c243b6e71b12d5ac199#256 ++
  0xcf57f6ec9db1f856a706887c5716b156e3c2fcdfe68517fb545a4678cc8cdd4b#256

/-! ### The round function -/

/-- `JH.S(b, x) = S_b[x]` (R224). -/
def jhS (b : Bool) (x : Nibble) : Nibble := nth (bif b then jhS1 else jhS0) x.toNat

/-- `JH.MUL2(x)`: multiplication by 2 in GF(2^4) modulo `x^4 + x + 1` (R225). -/
def jhMul2 (x : Nibble) : Nibble := bif x.getLsbD 3 then (x <<< 1) ^^^ 3#4 else x <<< 1

/-- `JH.L(a, b)`: the pair `(c, d)` with `d = b ^ MUL2(a)` and `c = a ^ MUL2(d)` (R225). -/
def jhL (a b : Nibble) : Nibble × Nibble :=
  let d := b ^^^ jhMul2 a
  (a ^^^ jhMul2 d, d)

/-- `JH.L` on each pair `(v[2i], v[2i+1])` of a list (R227). -/
def jhLPairs : List Nibble → List Nibble
  | a :: b :: rest => (jhL a b).1 :: (jhL a b).2 :: jhLPairs rest
  | _ => []

/-- The first half of `JH.PERM_d(w)`: of each four values, the ones at places 0 and 3 (R226). -/
def jhPermLeft : List Nibble → List Nibble
  | w0 :: _ :: _ :: w3 :: rest => w0 :: w3 :: jhPermLeft rest
  | _ => []

/-- The second half of `JH.PERM_d(w)`: of each four values, the ones at places 2 and 1 (R226). -/
def jhPermRight : List Nibble → List Nibble
  | _ :: w1 :: w2 :: _ :: rest => w2 :: w1 :: jhPermRight rest
  | _ => []

/-- `JH.PERM_d(w)` on `2^d` values, `d >= 2` (R226).  `b[2i] = w[4i]` and `b[2i+1] = w[4i+3]` in the first half,
`w[4i+2]` and `w[4i+1]` in the second. -/
def jhPerm (w : List Nibble) : List Nibble := jhPermLeft w ++ jhPermRight w

/-- `JH.ROUND_d(a, cb)`: S-boxes chosen by the selector bits, then `L`, then the permutation (R227). -/
def jhRound (a : List Nibble) (cb : List Bool) : List Nibble :=
  jhPerm (jhLPairs (List.zipWith jhS cb a))

/-! ### The round-constant generator -/

/-- The 64 values of a round constant, high nibble of byte 0 first (R127, R228). -/
def jhConstNibbles (c : BitVec 256) : List Nibble :=
  (List.range 64).map fun i => c.extractLsb' (252 - 4 * i) 4

/-- `JH.CONST`: the constant after `C[r]` is one `ROUND_6` with all selectors 0 (R228). -/
def jhNextConst (c : List Nibble) : List Nibble := jhRound c (List.replicate 64 false)

/-- The selector bits `BITS(C[r])` (R229). -/
def jhSelectors (c : BitVec 256) : List Bool := (List.range 256).map c.getMsbD

/-! ### E8 and F8 -/

/-- The 4-bit value with bits `A[i], A[i+256], A[i+512], A[i+768]`, first bit most significant (R230). -/
def jhGather (A : BitVec 1024) (i : Nat) : Nibble :=
  BitVec.ofBool (A.getMsbD i) ++ BitVec.ofBool (A.getMsbD (i + 256)) ++
    BitVec.ofBool (A.getMsbD (i + 512)) ++ BitVec.ofBool (A.getMsbD (i + 768))

/-- `JH.GROUP(A)`: `q[2i]` gathers from bit `i`, `q[2i+1]` from bit `i + 128` (R230). -/
def jhGroup (A : BitVec 1024) : List Nibble :=
  (List.range 128).flatMap fun i => [jhGather A i, jhGather A (i + 128)]

/-- The elements at even places of a list. -/
def evens : List Nibble → List Nibble
  | a :: _ :: rest => a :: evens rest
  | _ => []

/-- The elements at odd places of a list. -/
def odds : List Nibble → List Nibble
  | _ :: b :: rest => b :: odds rest
  | _ => []

/-- Bit `k` (0 = most significant) of each of 128 values, as a 128-bit string in list order. -/
def jhPlane (k : Nat) (xs : List Nibble) : BitVec 128 :=
  xs.foldl (fun acc x => (acc <<< 1) ||| (BitVec.ofBool (x.getMsbD k)).setWidth 128) 0

/-- `JH.DEGROUP(q)`: bit `k` of `q[2i]` goes to `B[i + 256k]`, bit `k` of `q[2i+1]` to `B[i + 128 + 256k]` (R230). -/
def jhDegroup (q : List Nibble) : BitVec 1024 :=
  let e := evens q
  let o := odds q
  jhPlane 0 e ++ jhPlane 0 o ++ jhPlane 1 e ++ jhPlane 1 o ++
    jhPlane 2 e ++ jhPlane 2 o ++ jhPlane 3 e ++ jhPlane 3 o

/-- `JH.E8(H)`: 42 rounds between grouping and de-grouping (R231). -/
def jhE8 (H : BitVec 1024) : BitVec 1024 :=
  jhDegroup ((jhConstants.map jhSelectors).foldl jhRound (jhGroup H))

/-- `JH.F8(H, M) = E8(H ^ (M ‖ 0)) ^ (0 ‖ M)` (R233). -/
def jhF8 (H : BitVec 1024) (M : BitVec 512) : BitVec 1024 :=
  jhE8 (H ^^^ (M ++ 0#512)) ^^^ (0#512 ++ M)

/-- A 64-byte block as a 512-bit string, byte 0 first. -/
def jhBlock (block : Bytes) : BitVec 512 :=
  block.foldl (fun acc b => (acc <<< 8) ||| b.setWidth 512) 0

/-- `JH.IVGEN(ob)` (R221). -/
def jhIvGen (ob : Nat) : BitVec 1024 := jhF8 (BitVec.ofNat 16 (8 * ob) ++ 0#1008) 0#512

/-! ### Padding and output -/

/-- `JH.PAD(tail, msgbits)` (R235). -/
def jhPad (tail : Bytes) (msgbits : Nat) : List Bytes :=
  let field := encBE 128 msgbits
  if tail.length = 0 then
    [0x80#8 :: zeros 47 ++ field]
  else
    let p := tail ++ [0x80#8] ++ zeros (111 - tail.length) ++ field
    [p.take 64, p.drop 64]

/-- The state after the padded blocks (R236). -/
def jhFinished (H : BitVec 1024) (tail : Bytes) (msgbits : Nat) : BitVec 1024 :=
  (jhPad tail msgbits).foldl (fun H b => jhF8 H (jhBlock b)) H

/-- `JH.FINALIZE(H, tail, msgbits)`: the last `ob` bytes of the state (R236). -/
def jhFinalize (ob : Nat) (H : BitVec 1024) (tail : Bytes) (msgbits : Nat) : Bytes :=
  let T := jhFinished H tail msgbits
  (List.range ob).map fun i => T.extractLsb' (8 * (ob - 1 - i)) 8

end Sys2Proof.Machine
end

