-- ==== Sys2Proof/Machine/Shavite.lean ====
section
/-! DEFINITION. SHAvite-3 with 256-bit output (`46_shavite.md`); the salt is the constant zero (R5 f).
The state is a list of eight 32-bit words, the schedule a list of 144. -/

namespace Sys2Proof.Machine

/-- The initial value of SHAVITE256 (R251). -/
def shaviteIV : List (BitVec 32) :=
  [0x49BB3E47, 0x2674860D, 0xA8B392AC, 0x021AC4E6, 0x409283CF, 0x620E5D86, 0x6D929DCB, 0x96CC2A8B]

/-- `c0`, the low word of the counter (R252). -/
def shaviteC0 (cnt : BitVec 64) : BitVec 32 := cnt.extractLsb' 0 32

/-- `c1`, the high word of the counter (R252). -/
def shaviteC1 (cnt : BitVec 64) : BitVec 32 := cnt.extractLsb' 32 32

/-- What the counter step exclusive-ors into the four words of the group at `u` (R254). -/
def shaviteCounterMask (cnt : BitVec 64) (u : Nat) : List (BitVec 32) :=
  let c0 := shaviteC0 cnt
  let c1 := shaviteC1 cnt
  if u = 16 then [c0, ~~~c1, 0, 0]
  else if u = 56 then [0, c1, ~~~c0, 0]
  else if u = 84 then [0, 0, c1, ~~~c0]
  else if u = 124 then [c0, 0, 0, ~~~c1]
  else [0, 0, 0, 0]

/-- The four words of a nonlinear group at `u`, counter step included (R253, R254). -/
def shaviteNonlinear (cnt : BitVec 64) (rk : List (BitVec 32)) (u : Nat) : List (BitVec 32) :=
  let x := aesRound [nth rk (u - 15), nth rk (u - 14), nth rk (u - 13), nth rk (u - 16)]
  let y := (List.range 4).map fun k => nth x k ^^^ nth rk (u - 4 + k)
  xorList y (shaviteCounterMask cnt u)

/-- The four words of a linear group at `u`; the last uses the first (R253). -/
def shaviteLinear (rk : List (BitVec 32)) (u : Nat) : List (BitVec 32) :=
  let r0 := nth rk (u - 16) ^^^ nth rk (u - 3)
  [r0, nth rk (u - 15) ^^^ nth rk (u - 2), nth rk (u - 14) ^^^ nth rk (u - 1), nth rk (u - 13) ^^^ r0]

/-- One group of the schedule, appended (R253). -/
def shaviteGroup (cnt : BitVec 64) (rk : List (BitVec 32)) (u : Nat) : List (BitVec 32) :=
  rk ++ if (u / 16) % 2 = 1 then shaviteNonlinear cnt rk u else shaviteLinear rk u

/-- `SHAVITE.KEYS(block, cnt)`: 144 words, 16 from the block and 32 groups of four (R253). -/
def shaviteKeys (block : Bytes) (cnt : BitVec 64) : List (BitVec 32) :=
  ((List.range 32).map fun g => 16 + 4 * g).foldl (shaviteGroup cnt) (words 32 block)

/-- `SHAVITE.F3(x, k)`: three AES rounds, each after adding four key words (R257). -/
def shaviteF3 (x k : List (BitVec 32)) : List (BitVec 32) :=
  let y0 := aesRound (xorList x (k.take 4))
  let y1 := aesRound (xorList y0 ((k.drop 4).take 4))
  aesRound (xorList y1 ((k.drop 8).take 4))

/-- One Feistel round `t` of `SHAVITE.E256` (R257). -/
def shaviteRound (rk p : List (BitVec 32)) (t : Nat) : List (BitVec 32) :=
  let k := (rk.drop (12 * t)).take 12
  let l := p.take 4
  let r := p.drop 4
  if t % 2 = 0 then xorList l (shaviteF3 r k) ++ r else l ++ xorList r (shaviteF3 l k)

/-- `SHAVITE.E256(h, rk)`: twelve rounds (R257). -/
def shaviteE256 (h rk : List (BitVec 32)) : List (BitVec 32) :=
  (List.range 12).foldl (shaviteRound rk) h

/-- `SHAVITE.C256(h, block, cnt)`: feed-forward (R256). -/
def shaviteC256 (h : List (BitVec 32)) (block : Bytes) (cnt : BitVec 64) : List (BitVec 32) :=
  xorList h (shaviteE256 h (shaviteKeys block cnt))

/-- `SHAVITE.PAD(tail, msgbits)` with the output size `ob` in bytes (R258). -/
def shavitePad (ob : Nat) (tail : Bytes) (msgbits : Nat) : List Bytes :=
  let c := tail.length
  let field := enc64LE msgbits ++ enc16LE (8 * ob)
  if c ≤ 53 then [tail ++ [0x80#8] ++ zeros (53 - c) ++ field]
  else [tail ++ [0x80#8] ++ zeros (63 - c), zeros 54 ++ field]

/-- The counter of each padded block: `msgbits` for a block with a message byte, else 0 (R148, R259). -/
def shavitePadCounters (c msgbits : Nat) : List (BitVec 64) :=
  [if c = 0 then 0 else BitVec.ofNat 64 msgbits, 0]

/-- `SHAVITE.FINALIZE(H, tail, msgbits)`: the first `ob` bytes of the state (R259). -/
def shaviteFinalize (ob : Nat) (h : List (BitVec 32)) (tail : Bytes) (msgbits : Nat) : Bytes :=
  let blocks := (shavitePad ob tail msgbits).zip (shavitePadCounters tail.length msgbits)
  (unwords (blocks.foldl (fun h b => shaviteC256 h b.1 b.2) h)).take ob

end Sys2Proof.Machine
end

