-- ==== Sys2Proof/Machine/Descriptor.lean ====
section
/-! DEFINITION. The descriptor ROM (R9, R33), the views of the chaining state `H` (R22), and the dispatch of `COMPRESS`
and `FINALIZE` by family (R144, R145). -/

namespace Sys2Proof.Machine

/-! ### Views of the 1024-bit chaining state -/

/-- Element `i` of width `w` of `H`, element 0 in the most significant bits (R22; log 8). -/
def hElem (w : Nat) (h : BitVec 1024) (i : Nat) : BitVec w := h.extractLsb' (1024 - w * (i + 1)) w

/-- The first `n` elements of width `w` of `H`. -/
def hElems (w n : Nat) (h : BitVec 1024) : List (BitVec w) := (List.range n).map (hElem w h)

/-- The register that holds the given elements from its most significant bits down, and zeros after them (log 9). -/
def hPack {w : Nat} (xs : List (BitVec w)) : BitVec 1024 :=
  (xs.foldl (fun (acc : BitVec 1024) x => (acc <<< w) ||| x.setWidth 1024) 0) <<< (1024 - w * xs.length)

/-! ### The descriptor ROM -/

/-- The four families (R2, R9). -/
inductive Family where
  | bmw
  | groestl
  | jh
  | shavite
deriving DecidableEq, Repr

/-- The column `LF` of R9: what the length field of the padding counts, its width and byte order. -/
inductive LengthField where
  /-- 64 bits, little-endian, message bits. -/
  | bits64LE
  /-- 64 bits, big-endian, blocks. -/
  | blocks64BE
  /-- 128 bits, big-endian, message bits. -/
  | bits128BE
  /-- 64 bits little-endian of message bits, then the output size in bits as 16 bits little-endian. -/
  | bits64LEsize16LE
deriving DecidableEq, Repr

/-- The width of the length field in bytes (R9, R147). -/
def LengthField.bytes : LengthField → Nat
  | .bits64LE => 8
  | .blocks64BE => 8
  | .bits128BE => 16
  | .bits64LEsize16LE => 10

/-- A valid row of the descriptor ROM (R33): `w` in bits, the sizes in bytes, the IV left-aligned in `H`. -/
structure Descriptor where
  name : String
  family : Family
  w : Nat
  bs : Nat
  sb : Nat
  ob : Nat
  lf : LengthField
  iv : BitVec 1024
deriving DecidableEq, Repr

/-- The sixteen entries of the descriptor ROM, `none` where the entry is reserved (R9, R33). -/
def descriptorRom : List (Option Descriptor) := [
  some ⟨"BMW224", .bmw, 32, 64, 64, 28, .bits64LE, hPack (bmwIV 32 0x00)⟩,
  some ⟨"BMW256", .bmw, 32, 64, 64, 32, .bits64LE, hPack (bmwIV 32 0x40)⟩,
  some ⟨"BMW384", .bmw, 64, 128, 128, 48, .bits64LE, hPack (bmwIV 64 0x00)⟩,
  some ⟨"BMW512", .bmw, 64, 128, 128, 64, .bits64LE, hPack (bmwIV 64 0x80)⟩,
  some ⟨"GROESTL224", .groestl, 8, 64, 64, 28, .blocks64BE, hPack (groestlIV 8 28)⟩,
  some ⟨"GROESTL256", .groestl, 8, 64, 64, 32, .blocks64BE, hPack (groestlIV 8 32)⟩,
  some ⟨"GROESTL384", .groestl, 8, 128, 128, 48, .blocks64BE, hPack (groestlIV 16 48)⟩,
  some ⟨"GROESTL512", .groestl, 8, 128, 128, 64, .blocks64BE, hPack (groestlIV 16 64)⟩,
  some ⟨"JH224", .jh, 4, 64, 128, 28, .bits128BE, jhIV224⟩,
  some ⟨"JH256", .jh, 4, 64, 128, 32, .bits128BE, jhIV256⟩,
  some ⟨"JH384", .jh, 4, 64, 128, 48, .bits128BE, jhIV384⟩,
  some ⟨"JH512", .jh, 4, 64, 128, 64, .bits128BE, jhIV512⟩,
  none,
  some ⟨"SHAVITE256", .shavite, 32, 64, 32, 32, .bits64LEsize16LE, hPack shaviteIV⟩,
  none,
  none]

/-- `VALID_ALG` for a value of the parameter `WIDE_VARIANTS` (R92). -/
def validAlgs (wide : Bool) : List Nat :=
  if wide then [0, 1, 2, 3, 4, 5, 6, 7, 8, 9, 10, 11, 13] else [0, 1, 4, 5, 8, 9, 10, 11, 13]

/-- The code `a` names a descriptor (R92). -/
def validAlg (wide : Bool) (a : BitVec 4) : Bool := (validAlgs wide).contains a.toNat

/-- The descriptor of a code, none where the code is reserved (R33, R92). -/
def descriptorOf (wide : Bool) (a : BitVec 4) : Option Descriptor :=
  if validAlg wide a then descriptorRom.getD a.toNat none else none

/-! ### Dispatch by family -/

/-- `COMPRESS(a, H, block, cnt)` (R144); only SHAvite-3 uses `cnt`. -/
def compress (D : Descriptor) (h : BitVec 1024) (block : Bytes) (cnt : BitVec 64) : BitVec 1024 :=
  match D.family with
  | .bmw => hPack (bmwCompress (hElems D.w 16 h) (words D.w block))
  | .groestl => hPack (groestlCompress (D.bs / 8) (hElems 8 D.sb h) block)
  | .jh => jhF8 h (jhBlock block)
  | .shavite => hPack (shaviteC256 (hElems 32 8 h) block cnt)

/-- `FINALIZE(a, H, tail, msgbits)` (R145): the `OB(a)` bytes of the digest. -/
def finalize (D : Descriptor) (h : BitVec 1024) (tail : Bytes) (msgbits : Nat) : Bytes :=
  match D.family with
  | .bmw => bmwFinalize D.w D.ob (hElems D.w 16 h) tail msgbits
  | .groestl => groestlFinalize (D.bs / 8) D.ob (hElems 8 D.sb h) tail msgbits
  | .jh => jhFinalize D.ob h tail msgbits
  | .shavite => shaviteFinalize D.ob (hElems 32 8 h) tail msgbits

/-- The padded blocks that `FINALIZE` compresses (R146, R147): one block or two. -/
def padBlocks (D : Descriptor) (tail : Bytes) (msgbits : Nat) : List Bytes :=
  match D.family with
  | .bmw => bmwPad D.bs tail msgbits
  | .groestl => groestlPad D.bs tail msgbits
  | .jh => jhPad tail msgbits
  | .shavite => shavitePad D.ob tail msgbits

end Sys2Proof.Machine
end

