-- ==== Sys2Proof/Machine/State.lean ====
section
/-! DEFINITION. The architectural state of one HCORE instance (R20), the host's side of its two ports, and the state after
power-on reset (R39, R310).  State is plain data. -/

namespace Sys2Proof.Machine

/-- The lifecycle register `PHASE` (R26). -/
inductive Phase where
  /-- 0: no descriptor has been bound since power-on. -/
  | unconf
  /-- 1: a message is being taken. -/
  | active
  /-- 2: the digest is in `OUT`. -/
  | done
  /-- 3: an error was raised and is not cleared. -/
  | error
deriving DecidableEq, Repr

/-- The value of the 2-bit register (R26). -/
def Phase.code : Phase → BitVec 2
  | .unconf => 0
  | .active => 1
  | .done => 2
  | .error => 3

/-- The cause register `ERR`; its values 5 to 7 never occur (R27, R280, U11). -/
inductive ErrCause where
  /-- 0: no error. -/
  | none
  /-- 1, `E_CONFIG`: `INIT` named no descriptor (R281). -/
  | config
  /-- 2, `E_LENOVF`: the length counter is exhausted (R282). -/
  | lenovf
  /-- 3, `E_MISUSE`: the command is not legal in this phase (R283). -/
  | misuse
  /-- 4, `E_ILLCMD`: a reserved word or an index past the digest (R285). -/
  | illcmd
deriving DecidableEq, Repr

/-- The value of the 3-bit register (R27, R280). -/
def ErrCause.code : ErrCause → BitVec 3
  | .none => 0
  | .config => 1
  | .lenovf => 2
  | .misuse => 3
  | .illcmd => 4

/-- The answer to one command: a bit and 16 bits of data (R78). -/
structure Response where
  err : Bool
  data : BitVec 16
deriving DecidableEq, Repr

/-- What the outside world does next to the instance (log 1, log 4). -/
inductive HostEvent where
  /-- The host presents a command word on the command port (R70). -/
  | command (w : CommandWord)
  /-- The environment applies power-on reset, which drops whole the command it arrives in, if there is one (R310). -/
  | powerOn (inFlight : Option CommandWord)
deriving DecidableEq, Repr

/-- One instance.  The first nine fields are the registers of R20; the last three are the model's own. -/
structure State where
  /-- `CFGV`: a descriptor is bound (R24). -/
  cfgv : Bool
  /-- `ALG`: the descriptor select (R25). -/
  alg : BitVec 4
  /-- `PHASE` (R26). -/
  phase : Phase
  /-- `ERR` (R27). -/
  err : ErrCause
  /-- `H`, the chaining state, its first byte the most significant (R21, R22; log 8). -/
  h : BitVec 1024
  /-- `BUF`, the block buffer (R35). -/
  buf : Vector Byte 128
  /-- `CUR`, the write index into `BUF` (R28). -/
  cur : BitVec 8
  /-- `LEN`, the number of message bits in the blocks compressed so far (R29). -/
  len : BitVec 64
  /-- `OUT`, the digest (R36). -/
  out : Vector Byte 64
  /-- The parameter `WIDE_VARIANTS` of this instance; no step writes it (R10; log 5). -/
  wideVariants : Bool
  /-- What the outside world still presents, oldest first (log 1). -/
  port : List HostEvent
  /-- The response port: the answer to the last command (R78; log 3). -/
  response : Option Response
deriving DecidableEq, Repr

/-- Why the machine stops.  Both are raised only in states that no run from reset reaches (log 11). -/
inductive Fault where
  /-- Raised by `RESET`, `UPDATE`, `DIGEST` and `RDOUT` where their rules read a size or an IV of the bound descriptor and
  `ALG` names no descriptor.  Safe: the spec gives no such state (R24, R26), and `Safety.Inv` excludes it. -/
  | noDescriptor
  /-- Raised by `UPDATE` and `DIGEST` where `CUR` is not below the block size, against the precondition of R141.  Safe:
  the spec gives no such state (R38 c), and `Safety.Inv` excludes it. -/
  | cursorOutOfRange
deriving DecidableEq, Repr

/-- Why an instruction has no meaning.  No command is refused in this model. -/
inductive Refusal where
  /-- Raised by an arm of `exec` whose instruction has no meaning yet; no arm raises it.  Safe. -/
  | notModelled (mnemonic : String)
deriving DecidableEq, Repr

/-- After power-on reset every register is zero (R39, R310); the ports are empty (log 1, log 3). -/
def State.reset : State where
  cfgv := false
  alg := 0
  phase := .unconf
  err := .none
  h := 0
  buf := Vector.replicate 128 0
  cur := 0
  len := 0
  out := Vector.replicate 64 0
  wideVariants := Config.wideVariantsDefault
  port := []
  response := none

end Sys2Proof.Machine
end

