-- ==== Sys2Proof/Machine/Flags.lean ====
section
/-! DEFINITION. The flags and the status word, all computed from the registers (R30, R31, R32, R143).  HCORE has no
arithmetic condition codes (R32). -/

namespace Sys2Proof.Machine

/-- `EMPTY = (CUR = 0)` (R32, R143). -/
def emptyFlag (s : State) : Bool := s.cur == 0

/-- `FULL = (CUR = BS)` (R32, R143). -/
def fullFlag (D : Descriptor) (s : State) : Bool := s.cur.toNat == D.bs

/-- `LEVEL = CUR` (R143). -/
def level (s : State) : Nat := s.cur.toNat

/-- `msgbits = LEN + 8 * CUR`, in unbounded integers (R30). -/
def msgbits (s : State) : Nat := s.len.toNat + 8 * s.cur.toNat

/-- The check of R94: one more byte would make `msgbits` reach 2^64. -/
def lengthExhausted (s : State) : Bool :=
  decide (s.len.toNat + 8 * (s.cur.toNat + 1) ≥ Config.messageBitLimit)

/-- The `STATUS` word (R31): bits 15..12 zero, `ALG`, bit 7 zero, `EMPTY`, `CFGV`, `ERR`, `PHASE`. -/
def statusWord (s : State) : BitVec 16 :=
  0#4 ++ s.alg ++ 0#1 ++ BitVec.ofBool (emptyFlag s) ++ BitVec.ofBool s.cfgv ++ s.err.code ++ s.phase.code

end Sys2Proof.Machine
end

