-- ==== Sys2Proof/Machine/Operands.lean ====
section
/-! DEFINITION. What the commands' operands select (R73): the algorithm code a descriptor, the byte `D` a message byte or
an index into `OUT`; and the reads of the two byte stores `BUF` and `OUT` (R52, R53). -/

namespace Sys2Proof.Machine

/-- The descriptor the operand `a` of `INIT` names (R73, R92). -/
def operandDescriptor (s : State) (a : BitVec 4) : Option Descriptor := descriptorOf s.wideVariants a

/-- The bound descriptor, read through `ALG` (R25). -/
def boundDescriptor (s : State) : Option Descriptor := descriptorOf s.wideVariants s.alg

/-- Byte `i` of `BUF`. -/
def bufByte (s : State) (i : Nat) : Byte := s.buf.toList.getD i 0

/-- Byte `i` of `OUT`. -/
def outByte (s : State) (i : Nat) : Byte := s.out.toList.getD i 0

/-- The tail `BUF[0..CUR)` (R19, R35). -/
def tailBytes (s : State) : Bytes := s.buf.toList.take s.cur.toNat

/-- The index operand `d` of `RDOUT` selects a digest byte (R96). -/
def indexInDigest (D : Descriptor) (d : BitVec 8) : Bool := decide (d.toNat < D.ob)

/-- `zext_16` of a byte (R73, R78). -/
def zext16 (b : Byte) : BitVec 16 := b.setWidth 16

end Sys2Proof.Machine
end

