-- ==== Sys2Proof/Machine/Ops.lean ====
section
/-! DEFINITION. The operations the commands share: the ports, error entry and the way out of it, the FIFO, and the writes
of the digest. -/

namespace Sys2Proof.Machine

/-! ### The ports -/

/-- The next thing the outside world presents, and what remains after it (R70; log 1). -/
def nextEvent (s : State) : Option (HostEvent × List HostEvent) :=
  match s.port with
  | [] => none
  | e :: rest => some (e, rest)

/-- The instance once its next event is taken from the port. -/
def withPort (rest : List HostEvent) (s : State) : State := { s with port := rest }

/-- The response of every command but a successful `RDOUT`: the status after the command (R78). -/
def respond (s : State) : State :=
  { s with response := some ⟨decide (s.phase = .error), statusWord s⟩ }

/-- The response of a successful `RDOUT` (R78, R96). -/
def respondByte (b : Byte) (s : State) : State := { s with response := some ⟨false, zext16 b⟩ }

/-- A command that phase `ERROR` ignores changes no state and is answered with the unchanged status (R90, R286). -/
def ignoreCommand (s : State) : State := respond s

/-! ### Error entry and the way out -/

/-- Error entry (R284): the first error is kept, every other register keeps its value. -/
def enterError (e : ErrCause) (s : State) : State :=
  { s with err := if s.phase = .error then s.err else e, phase := .error }

/-- `raise E`: error entry, then the response that reports it (R15, R78, R284).  It is applied to the state before the
command's writes, which discards them. -/
def raise (e : ErrCause) (s : State) : State := respond (enterError e s)

/-- The entry of `E_CONFIG`, which also unbinds the descriptor and overwrites `ERR` (R281). -/
def raiseConfig (s : State) : State :=
  respond { s with cfgv := false, alg := 0, phase := .error, err := .config }

/-- Bind the descriptor code `a` (R24, R25, R91). -/
def bindAlg (a : BitVec 4) (s : State) : State := { s with cfgv := true, alg := a }

/-- The virgin state of descriptor `D`: what `INIT` and `RESET` write beside `CFGV` and `ALG`, and the only way out of
phase `ERROR` (R40, R93, R288). -/
def makeVirgin (D : Descriptor) (s : State) : State :=
  { s with
    h := D.iv
    buf := Vector.replicate 128 0
    cur := 0
    len := 0
    out := Vector.replicate 64 0
    phase := .active
    err := .none }

/-- Power-on reset: every register holds its reset value and no response is left; the parameter and what the outside
world still presents are not registers (R310; log 4). -/
def powerOnReset (s : State) : State :=
  { State.reset with wideVariants := s.wideVariants, port := s.port }

/-! ### The block buffer -/

/-- `FIFO.PUSH(d)` (R141). -/
def fifoPush (d : Byte) (s : State) : State :=
  { s with buf := s.buf.setIfInBounds s.cur.toNat d, cur := s.cur + 1 }

/-- The block that `FIFO.POPBLOCK` takes: `BUF[0..BS)` in index order (R142). -/
def fifoBlock (D : Descriptor) (s : State) : Bytes := s.buf.toList.take D.bs

/-- The dispatch of a full block: `LEN` advances, `H` is compressed with the new `LEN`, `CUR` returns to 0 (R94, R142). -/
def dispatchBlock (D : Descriptor) (s : State) : State :=
  let len := s.len + BitVec.ofNat 64 (8 * D.bs)
  { s with len := len, h := compress D s.h (fifoBlock D s) len, cur := 0 }

/-- `UPDATE`'s writes: push, and dispatch when that fills the block (R94). -/
def acceptByte (D : Descriptor) (d : Byte) (s : State) : State :=
  let s1 := fifoPush d s
  if fullFlag D s1 then dispatchBlock D s1 else s1

/-! ### The digest -/

/-- The first `n` bytes of a string, with zeros where it is shorter. -/
def fitBytes : Nat → Bytes → Bytes
  | 0, _ => []
  | n + 1, [] => 0 :: fitBytes n []
  | n + 1, b :: bs => b :: fitBytes n bs

theorem length_fitBytes (n : Nat) (bs : Bytes) : (fitBytes n bs).length = n := by
  induction n generalizing bs with
  | zero => rfl
  | succ n ih => cases bs <;> simp [fitBytes, ih]

/-- A byte string as a register of `n` bytes. -/
def toRegister (n : Nat) (bs : Bytes) : Vector Byte n :=
  ⟨(fitBytes n bs).toArray, by simp [length_fitBytes]⟩

/-- `OUT[0..k) <- bytes`, the bytes from `k` on keep their values (R95). -/
def writeOut (out : Vector Byte 64) (bytes : Bytes) : Vector Byte 64 :=
  toRegister 64 (bytes ++ out.toList.drop bytes.length)

/-- The digest of the message taken so far, computed on a copy (R95, R145). -/
def digestBytes (D : Descriptor) (s : State) : Bytes := finalize D s.h (tailBytes s) (msgbits s)

/-- `DIGEST`'s writes: `OUT[0..OB)` and `PHASE` (R95). -/
def storeDigest (D : Descriptor) (s : State) : State :=
  { s with out := writeOut s.out (digestBytes D s), phase := .done }

end Sys2Proof.Machine
end

