-- ==== Sys2Proof/Machine/Commands.lean ====
section
/-! DEFINITION. The meanings of the six commands (`40_commands.md`), and what a reserved word does.  Each follows the
pseudocode of its rule inside the frame of R90: phase `ERROR` first, then the command's own checks in order. -/

namespace Sys2Proof.Machine

/-- The three outcomes of a command of this machine. -/
abbrev Result := Host.Outcome State Fault Refusal

/-- `INIT a` (R91): legal in every phase. -/
def execInit (a : BitVec 4) (s : State) : Result :=
  match operandDescriptor s a with
  | none => .next (raiseConfig s)
  | some D => .next (respond (makeVirgin D (bindAlg a s)))

/-- `RESET` (R93): legal in every phase provided a descriptor is bound. -/
def execReset (s : State) : Result :=
  if s.cfgv then
    match boundDescriptor s with
    | none => .fault .noDescriptor
    | some D => .next (respond (makeVirgin D s))
  else .next (raise .misuse s)

/-- `UPDATE d` in phase `ACTIVE` (R94): the length check, then the push and the dispatch. -/
def updateActive (d : Byte) (s : State) : Result :=
  if lengthExhausted s then .next (raise .lenovf s)
  else
    match boundDescriptor s with
    | none => .fault .noDescriptor
    | some D =>
      if s.cur.toNat < D.bs then .next (respond (acceptByte D d s)) else .fault .cursorOutOfRange

/-- `UPDATE d` (R94). -/
def execUpdate (d : BitVec 8) (s : State) : Result :=
  match s.phase with
  | .error => .next (ignoreCommand s)
  | .active => updateActive d s
  | .unconf => .next (raise .misuse s)
  | .done => .next (raise .misuse s)

/-- `DIGEST` in phase `ACTIVE` (R95). -/
def digestActive (s : State) : Result :=
  match boundDescriptor s with
  | none => .fault .noDescriptor
  | some D =>
    if s.cur.toNat < D.bs then .next (respond (storeDigest D s)) else .fault .cursorOutOfRange

/-- `DIGEST` (R95). -/
def execDigest (s : State) : Result :=
  match s.phase with
  | .error => .next (ignoreCommand s)
  | .active => digestActive s
  | .unconf => .next (raise .misuse s)
  | .done => .next (raise .misuse s)

/-- `RDOUT d` in phase `DONE` (R96). -/
def rdoutDone (d : BitVec 8) (s : State) : Result :=
  match boundDescriptor s with
  | none => .fault .noDescriptor
  | some D =>
    if indexInDigest D d then .next (respondByte (outByte s d.toNat) s) else .next (raise .illcmd s)

/-- `RDOUT d` (R96). -/
def execRdout (d : BitVec 8) (s : State) : Result :=
  match s.phase with
  | .error => .next (ignoreCommand s)
  | .done => rdoutDone d s
  | .unconf => .next (raise .misuse s)
  | .active => .next (raise .misuse s)

/-- `RDSTAT` (R97): legal in every phase, writes and raises nothing. -/
def execRdstat (s : State) : Result := .next (respond s)

/-- A reserved command word (R76, R90, R285, R286). -/
def reservedWord (s : State) : State :=
  if s.phase = .error then ignoreCommand s else raise .illcmd s

end Sys2Proof.Machine
end

