-- ==== Sys2Proof/Machine/Dispatch.lean ====
section
/-! DEFINITION. One arm per command (R74). -/

namespace Sys2Proof.Machine

def exec (i : Instr) (s : State) : Host.Outcome State Fault Refusal :=
  match i with
  | .init a => Sys2Proof.Machine.execInit a s
  | .reset => Sys2Proof.Machine.execReset s
  | .update d => Sys2Proof.Machine.execUpdate d s
  | .digest => Sys2Proof.Machine.execDigest s
  | .rdout d => Sys2Proof.Machine.execRdout d s
  | .rdstat => Sys2Proof.Machine.execRdstat s

end Sys2Proof.Machine
end

