-- ==== Sys2Proof/Machine/Step.lean ====
section
/-! DEFINITION. One step of an instance: it takes the next event of its port (R60, R70, R90, R310; log 1, log 2). -/

namespace Sys2Proof.Machine

/-- One command word, executed to completion (R90). -/
def runWord (w : CommandWord) (s : State) : Host.Outcome State Fault Refusal :=
  match decode w with
  | .ok i => exec i s
  | .error _ => .next (reservedWord s)

/-- One step.  With nothing presented the instance is idle and keeps its state (R297; log 2). -/
def step (s : State) : Host.Outcome State Fault Refusal :=
  match nextEvent s with
  | none => .next s
  | some (.command w, rest) => runWord w (withPort rest s)
  | some (.powerOn _, rest) => .next (powerOnReset (withPort rest s))

/-- The state in which the host presents the given command word next (log 1). -/
def State.withFetchWord (s : State) (nbits w : Nat) : State :=
  { s with port := .command (BitVec.ofNat 16 (w % 2 ^ nbits)) :: s.port }

end Sys2Proof.Machine
end

