-- ==== Sys2Proof/Machine/System.lean ====
section
/-! DEFINITION. A system of `NINST` instances (R10, R62, R294): a list of states that share nothing but the ROMs.  Which
instance takes its next event is an argument, never chosen by HCORE (R62, U17; log 6). -/

namespace Sys2Proof.Machine

/-- The instances of a system; `NINST` is the length. -/
abbrev System := List State

/-- `NINST` instances after power-on reset. -/
def systemReset (ninst : Nat) : System := List.replicate ninst State.reset

/-- Instance `k` takes one step; an index past the last instance does nothing. -/
def systemStep (k : Nat) (y : System) : Host.Outcome System Fault Refusal :=
  match y[k]? with
  | none => .next y
  | some s =>
    match step s with
    | .next t => .next (y.set k t)
    | .fault r => .fault r
    | .refused r => .refused r

/-- Steps of the instances in a given order, stopping at the first fault or refusal. -/
def systemRun : List Nat → System → Host.Outcome System Fault Refusal
  | [], y => .next y
  | k :: ks, y =>
    match systemStep k y with
    | .next z => systemRun ks z
    | .fault r => .fault r
    | .refused r => .refused r

end Sys2Proof.Machine
end

