-- ==== Sys2Proof/Machine/Assembler.lean ====
section
/-! DEFINITION. The host's side of the command port: the assembler of R79, the pseudo-instructions of R80, the document's
API calls as commands (R99), and the responses a host sees to a sequence of commands (R78). -/

namespace Sys2Proof.Machine

/-! ### Expansions -/

/-- `UPDATE.S` (R80): one `UPDATE` for each byte, in order. -/
def updateAll (bytes : Bytes) : List Instr := bytes.map Instr.update

/-- `RDOUT.ALL` (R80): `RDOUT 0` to `RDOUT OB-1`. -/
def rdoutAll (ob : Nat) : List Instr := (List.range ob).map fun i => .rdout (BitVec.ofNat 8 i)

/-- `HASH` (R80) for a code whose digest has `ob` bytes. -/
def hashCommands (a : BitVec 4) (ob : Nat) (m : Bytes) : List Instr :=
  .init a :: updateAll m ++ .digest :: rdoutAll ob

/-- A call of the document's public API (R99). -/
inductive ApiCall where
  | construct (a : BitVec 4)
  | update (bytes : Bytes)
  | digest
  | reset
deriving DecidableEq, Repr

/-- The commands that carry an API call, for a descriptor whose digest has `ob` bytes (R99). -/
def apiCommands (ob : Nat) : ApiCall → List Instr
  | .construct a => [.init a]
  | .update bytes => updateAll bytes
  | .digest => .digest :: rdoutAll ob
  | .reset => [.reset]

/-- The responses to a sequence of commands and the state after it, if none stops the machine (R78). -/
def hostRun : List Instr → State → Host.Outcome (List Response × State) Fault Refusal
  | [], s => .next ([], s)
  | i :: is, s =>
    match exec i s with
    | .next t =>
      match hostRun is t with
      | .next (rs, u) => .next (t.response.toList ++ rs, u)
      | .fault r => .fault r
      | .refused r => .refused r
    | .fault r => .fault r
    | .refused r => .refused r

/-! ### Assembly lines -/

/-- A line of assembly (R79, R80); operands are numbers as written. -/
inductive AsmLine where
  | initName (name : String)
  | initCode (n : Nat)
  | reset
  | update (b : Nat)
  | digest
  | rdout (n : Nat)
  | rdstat
  | updateS (bytes : Bytes)
  | rdoutAll
  | hash (name : String) (bytes : Bytes)
deriving DecidableEq, Repr

/-- Why a line cannot be assembled. -/
inductive AsmError where
  /-- The line has none of the forms of R79 and R80. -/
  | form
  /-- The name is none of R75. -/
  | name
  /-- The operand does not fit its field (R71). -/
  | range
  /-- `RDOUT.ALL` stands where no descriptor is current. -/
  | noDescriptor
deriving DecidableEq, Repr

/-- The names of R75 and their codes. -/
def algNames : List (String × BitVec 4) := [
  ("BMW224", 0), ("BMW256", 1), ("BMW384", 2), ("BMW512", 3),
  ("GROESTL224", 4), ("GROESTL256", 5), ("GROESTL384", 6), ("GROESTL512", 7),
  ("JH224", 8), ("JH256", 9), ("JH384", 10), ("JH512", 11), ("SHAVITE256", 13)]

/-- The code of a name (R75). -/
def algCode (name : String) : Except AsmError (BitVec 4) :=
  match algNames.lookup name with
  | some a => .ok a
  | none => .error .name

/-- The output size of a code, for the expansion of `RDOUT.ALL`. -/
def algOutputBytes (a : BitVec 4) : Option Nat := (descriptorOf true a).map (·.ob)

/-- A number that must be below `2^w` as a field of width `w`. -/
def asField (w n : Nat) : Except AsmError (BitVec w) :=
  if n < 2 ^ w then .ok (BitVec.ofNat w n) else .error .range

/-- The commands of one line (R79, R80) and the current code after it. -/
def expandLine (current : Option (BitVec 4)) : AsmLine → Except AsmError (List Instr × Option (BitVec 4))
  | .initName name => do
    let a ← algCode name
    pure ([.init a], some a)
  | .initCode n => do
    let a ← asField 4 n
    pure ([.init a], some a)
  | .reset => pure ([.reset], current)
  | .update b => do
    let d ← asField 8 b
    pure ([.update d], current)
  | .digest => pure ([.digest], current)
  | .rdout n => do
    let d ← asField 8 n
    pure ([.rdout d], current)
  | .rdstat => pure ([.rdstat], current)
  | .updateS bytes => pure (updateAll bytes, current)
  | .rdoutAll =>
    match current.bind algOutputBytes with
    | some ob => pure (rdoutAll ob, current)
    | none => .error .noDescriptor
  | .hash name bytes => do
    let a ← algCode name
    match algOutputBytes a with
    | some ob => pure (hashCommands a ob bytes, some a)
    | none => .error .noDescriptor

/-- The command words of a list of lines (R79, R80). -/
def assembleLines : Option (BitVec 4) → List AsmLine → Except AsmError (List CommandWord)
  | _, [] => .ok []
  | current, l :: ls => do
    let (is, next) ← expandLine current l
    let rest ← assembleLines next ls
    pure (is.map encode ++ rest)

/-! ### Text -/

/-- The value of a hexadecimal digit. -/
def hexDigit (c : Char) : Option Nat :=
  if '0' ≤ c ∧ c ≤ '9' then some (c.toNat - '0'.toNat)
  else if 'a' ≤ c ∧ c ≤ 'f' then some (c.toNat - 'a'.toNat + 10)
  else if 'A' ≤ c ∧ c ≤ 'F' then some (c.toNat - 'A'.toNat + 10)
  else none

/-- The value of a decimal digit. -/
def decDigit (c : Char) : Option Nat :=
  if '0' ≤ c ∧ c ≤ '9' then some (c.toNat - '0'.toNat) else none

/-- A number in the given base, of at least one digit. -/
def number (base : Nat) (digit : Char → Option Nat) (cs : List Char) : Except AsmError Nat :=
  if cs.isEmpty then .error .form
  else
    match cs.mapM digit with
    | some ds => .ok (ds.foldl (fun acc d => acc * base + d) 0)
    | none => .error .form

/-- A byte string in hexadecimal, two digits a byte. -/
def hexBytes : List Char → Except AsmError Bytes
  | [] => .ok []
  | hi :: lo :: rest =>
    match hexDigit hi, hexDigit lo, hexBytes rest with
    | some h, some l, .ok bs => .ok (BitVec.ofNat 8 (16 * h + l) :: bs)
    | _, _, _ => .error .form
  | [_] => .error .form

/-- The words of a line: runs of characters other than spaces and commas, before any `;` (R79). -/
def tokens (line : List Char) : List (List Char) :=
  ((line.takeWhile (· ≠ ';')).splitOnP fun c => c = ' ' || c = ',' || c = '\t').filter (!·.isEmpty)

/-- The operand of `INIT`: a name, or `#` and a decimal code (R79). -/
def parseInit : List Char → Except AsmError AsmLine
  | '#' :: digits => AsmLine.initCode <$> number 10 decDigit digits
  | name => .ok (.initName (String.ofList name))

/-- The operand of `UPDATE`: `0x` and exactly two hexadecimal digits (R79). -/
def parseUpdate : List Char → Except AsmError AsmLine
  | ['0', 'x', hi, lo] => AsmLine.update <$> number 16 hexDigit [hi, lo]
  | _ => .error .form

/-- One line of text (R79, R80); none for a line with nothing but a comment. -/
def parseLine (line : List Char) : Except AsmError (Option AsmLine) :=
  match (tokens line).map String.ofList, tokens line with
  | [], _ => .ok none
  | ["RESET"], _ => .ok (some .reset)
  | ["DIGEST"], _ => .ok (some .digest)
  | ["RDSTAT"], _ => .ok (some .rdstat)
  | ["RDOUT.ALL"], _ => .ok (some .rdoutAll)
  | ["UPDATE.S"], _ => .ok (some (.updateS []))
  | ["INIT", _], [_, x] => some <$> parseInit x
  | ["UPDATE", _], [_, x] => some <$> parseUpdate x
  | ["RDOUT", _], [_, x] => (some ∘ AsmLine.rdout) <$> number 10 decDigit x
  | ["UPDATE.S", _], [_, x] => (some ∘ AsmLine.updateS) <$> hexBytes x
  | ["HASH", name], _ => .ok (some (.hash name []))
  | ["HASH", name, _], [_, _, x] => (some ∘ AsmLine.hash name) <$> hexBytes x
  | _, _ => .error .form

/-- The command words of a text, one command a line (R79). -/
def assemble (lines : List (List Char)) : Except AsmError (List CommandWord) := do
  let parsed ← lines.mapM parseLine
  assembleLines none (parsed.filterMap id)

end Sys2Proof.Machine
end

