-- ==== Sys2Proof/Safety.lean ====
section
/-! DEFINITION. What a safe state is (the invariants of R38 and of the register rules), what a message's hash is, and when
the engine has absorbed a message: the terms of the statements. -/

namespace Sys2Proof.Safety

open Sys2Proof.Machine

/-! ### The invariant of the registers -/

/-- What holds of the counters and the digest while descriptor `D` is bound: R38 (c), (d), (e) and R36. -/
structure CountersOk (D : Descriptor) (s : State) : Prop where
  /-- R38 (c): the cursor is below the block size. -/
  cursor : s.cur.toNat < D.bs
  /-- R38 (d): `LEN` counts whole blocks. -/
  blocks : s.len.toNat % (8 * D.bs) = 0
  /-- R38 (e): the message length is below 2^64 bits. -/
  bits : msgbits s < Config.messageBitLimit
  /-- R36: bytes of `OUT` from `OB` on are zero. -/
  outTail : ∀ i, D.ob ≤ i → outByte s i = 0

/-- The invariant every step keeps: R24 to R29, R36 and R38 (c), (d), (e). -/
structure Inv (s : State) : Prop where
  /-- R27: `ERR != 0` exactly when `PHASE = ERROR`. -/
  errPhase : s.err ≠ .none ↔ s.phase = .error
  /-- R25: `ALG` is 0 while no descriptor is bound. -/
  algUnbound : s.cfgv = false → s.alg = 0
  /-- R24, R26: a descriptor is bound in phases `ACTIVE` and `DONE`. -/
  boundWhenOpen : s.phase = .active ∨ s.phase = .done → s.cfgv = true
  /-- R26: none is bound in phase `UNCONF`. -/
  unboundWhenUnconf : s.phase = .unconf → s.cfgv = false
  /-- R24, R25: a bound code names a descriptor, and its counters are in range. -/
  bound : s.cfgv = true → ∃ D, boundDescriptor s = some D ∧ CountersOk D s

/-- A safe outcome: the machine goes on. -/
def Continues (o : Result) : Prop := ∃ t, o = .next t

/-! ### The hash of a message, written over the whole message at once -/

/-- Block `i` of a message (R142): bytes `BS*i` to `BS*i + BS - 1`. -/
def messageBlock (D : Descriptor) (m : Bytes) (i : Nat) : Bytes := (m.drop (D.bs * i)).take D.bs

/-- The number of full blocks of a message. -/
def fullBlocks (D : Descriptor) (m : Bytes) : Nat := m.length / D.bs

/-- The chaining value after the first `n` blocks: R38 (a), with the counter of R252 for each block. -/
def chainAfter (D : Descriptor) (m : Bytes) : Nat → BitVec 1024
  | 0 => D.iv
  | n + 1 => compress D (chainAfter D m n) (messageBlock D m n) (BitVec.ofNat 64 (8 * D.bs * (n + 1)))

/-- The bytes after the last full block (R38 b). -/
def messageTail (D : Descriptor) (m : Bytes) : Bytes := m.drop (D.bs * fullBlocks D m)

/-- The digest of a message: a function of the descriptor and the message alone (R101). -/
def hashOf (D : Descriptor) (m : Bytes) : Bytes :=
  finalize D (chainAfter D m (fullBlocks D m)) (messageTail D m) (8 * m.length)

/-- The engine has taken exactly the message `m` under descriptor `D`: R38 (a), (b), with `LEN` and `CUR` as R28 and R29
count them. -/
structure Absorbed (D : Descriptor) (m : Bytes) (s : State) : Prop where
  active : s.phase = .active
  noError : s.err = .none
  isBound : s.cfgv = true
  descriptor : boundDescriptor s = some D
  /-- R38 (a): `H` is the fold of the compression over the full blocks, from the IV. -/
  chain : s.h = chainAfter D m (fullBlocks D m)
  /-- R38 (b): the tail of the message is `BUF[0..CUR)`. -/
  tail : tailBytes s = messageTail D m
  /-- R28: the cursor counts the bytes of the tail. -/
  cursor : s.cur.toNat = m.length % D.bs
  /-- R29: `LEN` counts the bits of the full blocks. -/
  length : s.len.toNat = 8 * D.bs * fullBlocks D m
  /-- R38 (e): the message is shorter than 2^64 bits. -/
  bits : 8 * m.length < Config.messageBitLimit
  /-- R36, R40: no digest is held yet. -/
  noDigest : s.out = Vector.replicate 64 0

/-! ### The legality table -/

/-- An entry of the table of R102. -/
inductive Legality where
  /-- The command executes and leaves this phase. -/
  | ok (after : Phase)
  /-- The command raises this error. -/
  | raises (e : ErrCause)
  /-- The command changes no state and is answered with `err = 1`. -/
  | ignored
deriving DecidableEq, Repr

/-- The table of R102, with the length check of `UPDATE` and the index check of `RDOUT` as the table names them. -/
def legality (i : Instr) (s : State) : Legality :=
  match i with
  | .init a => if validAlg s.wideVariants a then .ok .active else .raises .config
  | .reset =>
    match s.phase with
    | .unconf => .raises .misuse
    | .active => .ok .active
    | .done => .ok .active
    | .error => if s.cfgv then .ok .active else .raises .misuse
  | .update _ =>
    match s.phase with
    | .unconf => .raises .misuse
    | .active => if lengthExhausted s then .raises .lenovf else .ok .active
    | .done => .raises .misuse
    | .error => .ignored
  | .digest =>
    match s.phase with
    | .unconf => .raises .misuse
    | .active => .ok .done
    | .done => .raises .misuse
    | .error => .ignored
  | .rdout d =>
    match s.phase with
    | .unconf => .raises .misuse
    | .active => .raises .misuse
    | .done => if (boundDescriptor s).any (fun D => decide (d.toNat < D.ob)) then .ok .done else .raises .illcmd
    | .error => .ignored
  | .rdstat => .ok s.phase

end Sys2Proof.Safety
end

