-- ==== Sys2Proof/Certificates/Slice0/Obligations.lean ====
section
/-! DEFINITION. The statements for the provers.  Each docstring names the rule it formalises. -/

open Sys2Proof Sys2Proof.Machine Sys2Proof.Safety

/-! ### Encoding -/

/-- Every well-formed command is read back from its own word, with every operand at every value (R72, R73, R81). -/
def Obligations.DecodeEncodeRoundTrip : Prop :=
  ∀ i : Instr, i.wellFormed = true → decode (encode i) = .ok i

/-- Every word that decodes is the encoding of the command it decodes to: no bit of the word is dropped (R72, R76). -/
def Obligations.EncodeDecodeRoundTrip : Prop :=
  ∀ (w : CommandWord) (i : Instr), decode w = .ok i → encode i = w

/-- The decoding procedure of R81 over the number `w`. -/
def Obligations.DecodingProcedure : Prop :=
  ∀ w : CommandWord,
    (decode w).toOption =
      (let op := w.toNat / 4096
       let a := w.toNat / 256 % 16
       let d := w.toNat % 256
       if op = 1 ∧ d = 0 then some (.init (BitVec.ofNat 4 a))
       else if op = 2 ∧ a = 0 ∧ d = 0 then some .reset
       else if op = 3 ∧ a = 0 then some (.update (BitVec.ofNat 8 d))
       else if op = 4 ∧ a = 0 ∧ d = 0 then some .digest
       else if op = 5 ∧ a = 0 then some (.rdout (BitVec.ofNat 8 d))
       else if op = 6 ∧ a = 0 ∧ d = 0 then some .rdstat
       else none)

/-- The opcode map of R74: its rows, that a word selects the row of the command it decodes to and no other, and that a
reserved word selects none. -/
def Obligations.OpcodeMapSelectsTheCommand : Prop :=
  (opcodeMap.map fun r => (r.mnemonic, r.bits.toNat, r.mask.toNat)) =
      [("INIT", 0x1000, 0xF0FF), ("RESET", 0x2000, 0xFFFF), ("UPDATE", 0x3000, 0xFF00),
       ("DIGEST", 0x4000, 0xFFFF), ("RDOUT", 0x5000, 0xFF00), ("RDSTAT", 0x6000, 0xFFFF)] ∧
    ∀ (w : CommandWord) (r : OpcodeRow), r ∈ opcodeMap →
      (r.selects w = true ↔ ∃ i, decode w = .ok i ∧ mnemonicOf i = r.mnemonic)

/-- A few words written out from R71 and R74 decode to the commands they stand for. -/
def Obligations.SampleWordsDecode : Prop :=
  decode 0x1B00 = .ok (.init 11) ∧ decode 0x2000 = .ok .reset ∧ decode 0x30CC = .ok (.update 0xCC) ∧
    decode 0x4000 = .ok .digest ∧ decode 0x501B = .ok (.rdout 27) ∧ decode 0x6000 = .ok .rdstat ∧
    decode 0x0000 = .error (.opcode 0) ∧ decode 0x3161 = .error (.fieldA 3)

/-! ### The step and reset -/

/-- A command word on the port that decodes to a well-formed command is executed as that command, the word taken from the
port and nothing else changed (R70, R90; the port is the model's own, log 1). -/
def Obligations.StepRunsTheDecodedCommand : Prop :=
  ∀ (s : State) (w : CommandWord) (rest : List HostEvent) (i : Instr),
    s.port = .command w :: rest → decode w = .ok i → i.wellFormed = true →
      step s = exec i { s with port := rest }

/-- After power-on reset every register is zero and `STATUS` is `0x0040` (R39, R310). -/
def Obligations.ResetRegisters : Prop :=
  State.reset.cfgv = false ∧ State.reset.alg = 0 ∧ State.reset.phase.code = 0 ∧ State.reset.err.code = 0 ∧
    State.reset.h = 0 ∧ (∀ i, bufByte State.reset i = 0) ∧ State.reset.cur = 0 ∧ State.reset.len = 0 ∧
    (∀ i, outByte State.reset i = 0) ∧ statusWord State.reset = 0x0040

/-- A power-on reset, with or without a command in flight, leaves the reset values of the registers and no mixture (R310).
The rest of the next state is the model's own: the parameter and what the outside world still presents stay (log 4, log 5),
and the response port is empty (DESIGN CHOICE, log 3 and log 4: the spec states no response to an aborted command). -/
def Obligations.PowerOnEventLeavesResetValues : Prop :=
  ∀ (s : State) (inFlight : Option CommandWord) (rest : List HostEvent), s.port = .powerOn inFlight :: rest →
    step s = .next { State.reset with wideVariants := s.wideVariants, port := rest }

/-- The invariant of the registers holds after power-on reset. -/
def Obligations.InvariantHoldsAtReset : Prop := Inv State.reset

/-- Every step keeps the invariant of the registers: R24 to R29, R36 and R38 (c), (d), (e).  That an idle step and
a power-on reset are steps is the model's choice (log 2, log 4). -/
def Obligations.EveryStepKeepsTheInvariant : Prop :=
  ∀ s t : State, Inv s → step s = .next t → Inv t

/-- From a state with the invariant no step stops: every event is answered by a next state (R289).  With nothing presented the step
is idle, by the model's choice (log 2). -/
def Obligations.NoStepStops : Prop :=
  ∀ s : State, Inv s → ∃ t, step s = .next t

/-- Whatever sequence of command words and power-on resets the outside world presents after reset, for either value of
`WIDE_VARIANTS`, no number of steps stops the machine (R289, R320).  The model's own choices it rests on: the port as a list
(log 1), idle steps past the end of the list (log 2), power-on reset as an event (log 4), the parameter as a field (log 5). -/
def Obligations.NoEventSequenceStopsTheMachine : Prop :=
  ∀ (wide : Bool) (events : List HostEvent) (n : Nat),
    ∃ t, Host.Core.run Sys2Proof.core n { State.reset with wideVariants := wide, port := events } = .next t ∧ Inv t

/-! ### The status word and the responses -/

/-- The fields of `STATUS` (R31) as a number, with the codes of `PHASE` (R26) and `ERR` (R27, R280). -/
def Obligations.StatusFields : Prop :=
  (∀ s : State,
    (statusWord s).toNat =
      s.phase.code.toNat + 4 * s.err.code.toNat + (if s.cfgv then 32 else 0) + (if s.cur = 0 then 64 else 0) +
        256 * s.alg.toNat) ∧
    (Phase.code .unconf = 0 ∧ Phase.code .active = 1 ∧ Phase.code .done = 2 ∧ Phase.code .error = 3) ∧
    (ErrCause.code .none = 0 ∧ ErrCause.code .config = 1 ∧ ErrCause.code .lenovf = 2 ∧
      ErrCause.code .misuse = 3 ∧ ErrCause.code .illcmd = 4)

/-- Every command, and every reserved word, produces one response: `err` is set exactly in phase `ERROR` after it, and the
data is the status after it, but for a successful `RDOUT`, whose data is the digest byte (R78). -/
def Obligations.EveryCommandResponds : Prop :=
  (∀ (i : Instr) (s t : State), exec i s = .next t →
    ∃ data, t.response = some ⟨decide (t.phase = .error), data⟩ ∧
      (∀ d, i = .rdout d → t.phase ≠ .error → data = (outByte s d.toNat).setWidth 16) ∧
      ((∀ d, i = .rdout d → t.phase = .error) → data = statusWord t)) ∧
  (∀ (s t : State) (w : CommandWord) (rest : List HostEvent) (r : Reserved),
    s.port = .command w :: rest → decode w = .error r → step s = .next t →
      t.response = some ⟨decide (t.phase = .error), statusWord t⟩)

/-! ### INIT and RESET -/

/-- `INIT a` (R91): its word; for a valid code it completes, from every state, in the virgin state of that descriptor (R40),
every field not named unchanged; for a code that names no descriptor it raises `E_CONFIG` in every phase, unbinds the
descriptor and overwrites `ERR`; with the code already bound it acts exactly as `RESET`.  The response to the failing `INIT` is `STATUS`
after it, as R78 says; that this holds against the one value R281 prints is DEDUCED (log 13). -/
def Obligations.InitBindsOrRaises : Prop :=
  (∀ a : BitVec 4, encode (.init a) = 0x1000#16 ||| (a.setWidth 16 <<< 8)) ∧
  (∀ (a : BitVec 4) (s : State) (D : Descriptor), descriptorOf s.wideVariants a = some D →
    exec (.init a) s = .next { s with
      cfgv := true
      alg := a
      h := D.iv
      buf := Vector.replicate 128 0
      cur := 0
      len := 0
      out := Vector.replicate 64 0
      phase := .active
      err := .none
      response := some ⟨false, 0x0061#16 ||| (a.setWidth 16 <<< 8)⟩ }) ∧
  (∀ (a : BitVec 4) (s : State), descriptorOf s.wideVariants a = none →
    exec (.init a) s =
      (let t : State := { s with cfgv := false, alg := 0, phase := .error, err := .config }
       .next { t with response := some ⟨true, statusWord t⟩ })) ∧
  (∀ (s : State) (D : Descriptor), s.cfgv = true → boundDescriptor s = some D →
    exec (.init s.alg) s = exec .reset s)

/-- `RESET` (R93): its word; with a descriptor bound it completes, in every phase, in the virgin state of that descriptor,
`CFGV` and `ALG` unchanged; with none bound it raises `E_MISUSE`, and in phase `ERROR` leaves `ERR` at its first value. -/
def Obligations.ResetRearmsOrRaises : Prop :=
  encode .reset = 0x2000#16 ∧
  (∀ (s : State) (D : Descriptor), s.cfgv = true → boundDescriptor s = some D →
    exec .reset s = .next { s with
      h := D.iv
      buf := Vector.replicate 128 0
      cur := 0
      len := 0
      out := Vector.replicate 64 0
      phase := .active
      err := .none
      response := some ⟨false, 0x0061#16 ||| (s.alg.setWidth 16 <<< 8)⟩ }) ∧
  (∀ s : State, s.cfgv = false →
    exec .reset s =
      (let t : State := { s with phase := .error, err := if s.phase = .error then s.err else .misuse }
       .next { t with response := some ⟨true, statusWord t⟩ }))

/-- `VALID_ALG` for both values of the parameter, and that a valid code names its row of the ROM (R92, R33). -/
def Obligations.ValidCodes : Prop :=
  (∀ a : BitVec 4,
    ((descriptorOf true a).isSome = true ↔ a.toNat ∈ [0, 1, 2, 3, 4, 5, 6, 7, 8, 9, 10, 11, 13]) ∧
    ((descriptorOf false a).isSome = true ↔ a.toNat ∈ [0, 1, 4, 5, 8, 9, 10, 11, 13])) ∧
  ∀ (wide : Bool) (a : BitVec 4) (D : Descriptor), descriptorOf wide a = some D →
    descriptorRom[a.toNat]? = some (some D)

/-- The descriptor table of R9. -/
def Obligations.DescriptorTable : Prop :=
  ((List.range 16).map fun a =>
      (descriptorOf true (BitVec.ofNat 4 a)).map fun D => (D.name, D.family, D.w, D.bs, D.sb, D.ob, D.lf)) =
    [some ("BMW224", .bmw, 32, 64, 64, 28, .bits64LE), some ("BMW256", .bmw, 32, 64, 64, 32, .bits64LE),
     some ("BMW384", .bmw, 64, 128, 128, 48, .bits64LE), some ("BMW512", .bmw, 64, 128, 128, 64, .bits64LE),
     some ("GROESTL224", .groestl, 8, 64, 64, 28, .blocks64BE),
     some ("GROESTL256", .groestl, 8, 64, 64, 32, .blocks64BE),
     some ("GROESTL384", .groestl, 8, 128, 128, 48, .blocks64BE),
     some ("GROESTL512", .groestl, 8, 128, 128, 64, .blocks64BE),
     some ("JH224", .jh, 4, 64, 128, 28, .bits128BE), some ("JH256", .jh, 4, 64, 128, 32, .bits128BE),
     some ("JH384", .jh, 4, 64, 128, 48, .bits128BE), some ("JH512", .jh, 4, 64, 128, 64, .bits128BE),
     none, some ("SHAVITE256", .shavite, 32, 64, 32, 32, .bits64LEsize16LE), none, none]

/-! ### UPDATE -/

/-- `UPDATE d` (R94): its word; in `ACTIVE`, below the length limit, a byte that does not fill the block is stored at `CUR`,
and a byte that fills it is stored and the block dispatched: `LEN` advances by the block's bits, `H` becomes the
compression of `BUF[0..BS)` with the new `LEN`, `CUR` returns to 0; at the length limit it raises `E_LENOVF`, in `UNCONF` and
`DONE` `E_MISUSE`, and stores nothing.  Every register not named keeps its value. -/
def Obligations.UpdateAppendsOrRaises : Prop :=
  (∀ d : BitVec 8, encode (.update d) = 0x3000#16 ||| d.setWidth 16) ∧
  (∀ (d : BitVec 8) (s : State) (D : Descriptor), s.phase = .active → boundDescriptor s = some D →
    s.cur.toNat + 1 < D.bs → s.len.toNat + 8 * (s.cur.toNat + 1) < 2 ^ 64 →
      ∃ t, exec (.update d) s = .next t ∧
        (∀ i, bufByte t i = if i = s.cur.toNat then d else bufByte s i) ∧
        t.cur.toNat = s.cur.toNat + 1 ∧
        t.response = some ⟨false, statusWord t⟩ ∧
        t = { s with buf := t.buf, cur := t.cur, response := t.response }) ∧
  (∀ (d : BitVec 8) (s : State) (D : Descriptor), s.phase = .active → boundDescriptor s = some D →
    s.cur.toNat + 1 = D.bs → s.len.toNat + 8 * (s.cur.toNat + 1) < 2 ^ 64 →
      ∃ t, exec (.update d) s = .next t ∧
        (∀ i, bufByte t i = if i = s.cur.toNat then d else bufByte s i) ∧
        t.cur = 0 ∧
        t.len.toNat = s.len.toNat + 8 * D.bs ∧
        t.h = compress D s.h ((List.range D.bs).map (bufByte t)) t.len ∧
        t.response = some ⟨false, statusWord t⟩ ∧
        t = { s with buf := t.buf, cur := t.cur, len := t.len, h := t.h, response := t.response }) ∧
  (∀ (d : BitVec 8) (s : State), s.phase = .active → s.len.toNat + 8 * (s.cur.toNat + 1) ≥ 2 ^ 64 →
    exec (.update d) s = .next { s with
      phase := .error
      err := .lenovf
      response := some ⟨true, statusWord { s with phase := .error, err := .lenovf }⟩ }) ∧
  (∀ (d : BitVec 8) (s : State), s.phase = .unconf ∨ s.phase = .done →
    exec (.update d) s = .next { s with
      phase := .error
      err := .misuse
      response := some ⟨true, statusWord { s with phase := .error, err := .misuse }⟩ })

/-- The length limit (R282): the error arises only on the last byte of a block at the last value of `LEN` (for `BS = 64` with
`CUR = 63` at `LEN = 2^64 - 512`, for `BS = 128` with `CUR = 127` at `LEN = 2^64 - 1024`), and the longest accepted message has
`2^61 - 1` bytes. -/
def Obligations.LengthLimit : Prop :=
  (∀ (s : State) (D : Descriptor), Inv s → s.cfgv = true → boundDescriptor s = some D →
    s.len.toNat + 8 * (s.cur.toNat + 1) ≥ 2 ^ 64 →
      (D.bs = 64 ∧ s.cur.toNat = 63 ∧ s.len.toNat = 2 ^ 64 - 512) ∨
      (D.bs = 128 ∧ s.cur.toNat = 127 ∧ s.len.toNat = 2 ^ 64 - 1024)) ∧
  (∀ (D : Descriptor) (m : Bytes) (d : BitVec 8) (s t : State), Absorbed D m s → exec (.update d) s = .next t →
    (t.err = .lenovf ↔ m.length = 2 ^ 61 - 1))

/-! ### DIGEST, RDOUT, RDSTAT -/

/-- `DIGEST` (R95): its word; in `ACTIVE` it completes: `OUT[0..OB)` becomes the finalization of the snapshot, which has
exactly `OB` bytes, the other bytes of `OUT` and every register but `PHASE` keep their values; in `UNCONF` and `DONE` it raises `E_MISUSE`. -/
def Obligations.DigestStoresOrRaises : Prop :=
  encode .digest = 0x4000#16 ∧
  (∀ (s : State) (D : Descriptor), s.phase = .active → boundDescriptor s = some D → s.cur.toNat < D.bs →
    ∃ t, exec .digest s = .next t ∧
      (finalize D s.h ((List.range s.cur.toNat).map (bufByte s)) (s.len.toNat + 8 * s.cur.toNat)).length = D.ob ∧
      (∀ i, i < D.ob →
        outByte t i = (finalize D s.h ((List.range s.cur.toNat).map (bufByte s))
          (s.len.toNat + 8 * s.cur.toNat)).getD i 0) ∧
      (∀ i, D.ob ≤ i → outByte t i = outByte s i) ∧
      t.response = some ⟨false, statusWord t⟩ ∧
      t = { s with out := t.out, phase := .done, response := t.response }) ∧
  (∀ s : State, s.phase = .unconf ∨ s.phase = .done →
    exec .digest s = .next { s with
      phase := .error
      err := .misuse
      response := some ⟨true, statusWord { s with phase := .error, err := .misuse }⟩ })

/-- `RDOUT d` (R96): its word; in `DONE` an index below `OB` is answered with the digest byte and nothing is written, an index
from `OB` on raises `E_ILLCMD`; in `UNCONF` and `ACTIVE` it raises `E_MISUSE`. -/
def Obligations.RdoutAnswersOrRaises : Prop :=
  (∀ d : BitVec 8, encode (.rdout d) = 0x5000#16 ||| d.setWidth 16) ∧
  (∀ (d : BitVec 8) (s : State) (D : Descriptor), s.phase = .done → boundDescriptor s = some D → d.toNat < D.ob →
    exec (.rdout d) s = .next { s with response := some ⟨false, (outByte s d.toNat).setWidth 16⟩ }) ∧
  (∀ (d : BitVec 8) (s : State) (D : Descriptor), s.phase = .done → boundDescriptor s = some D → D.ob ≤ d.toNat →
    exec (.rdout d) s = .next { s with
      phase := .error
      err := .illcmd
      response := some ⟨true, statusWord { s with phase := .error, err := .illcmd }⟩ }) ∧
  (∀ (d : BitVec 8) (s : State), s.phase = .unconf ∨ s.phase = .active →
    exec (.rdout d) s = .next { s with
      phase := .error
      err := .misuse
      response := some ⟨true, statusWord { s with phase := .error, err := .misuse }⟩ })

/-- `RDSTAT` (R97): its word; it completes in every state, answers the status and changes nothing. -/
def Obligations.RdstatAnswersTheStatus : Prop :=
  encode .rdstat = 0x6000#16 ∧
    ∀ s : State, exec .rdstat s = .next { s with response := some ⟨decide (s.phase = .error), statusWord s⟩ }

/-! ### Errors -/

/-- `E_MISUSE` (R283): `UPDATE` and `DIGEST` in `DONE` and `UNCONF`, `RDOUT` in `UNCONF` and `ACTIVE`, `RESET` with no
descriptor bound, whatever the phase; nothing is written but the error entry, in `ERROR` the first code is kept, and
`RDOUT` changes nothing in `ERROR`.  No other command, and no reserved word, puts `E_MISUSE` into `ERR`. -/
def Obligations.MisuseIsRaised : Prop :=
  (∀ s : State,
    (s.phase = .done ∨ s.phase = .unconf →
      (∀ d, exec (.update d) s = .next { s with
        phase := .error, err := .misuse
        response := some ⟨true, statusWord { s with phase := .error, err := .misuse }⟩ }) ∧
      exec .digest s = .next { s with
        phase := .error, err := .misuse
        response := some ⟨true, statusWord { s with phase := .error, err := .misuse }⟩ }) ∧
    (s.phase = .unconf ∨ s.phase = .active →
      ∀ d, exec (.rdout d) s = .next { s with
        phase := .error, err := .misuse
        response := some ⟨true, statusWord { s with phase := .error, err := .misuse }⟩ }) ∧
    (s.cfgv = false → s.phase ≠ .error →
      exec .reset s = .next { s with
        phase := .error, err := .misuse
        response := some ⟨true, statusWord { s with phase := .error, err := .misuse }⟩ }) ∧
    (s.cfgv = false → s.phase = .error →
      exec .reset s = .next { s with response := some ⟨true, statusWord s⟩ }) ∧
    (s.phase = .error → ∀ d, exec (.rdout d) s = .next { s with response := some ⟨true, statusWord s⟩ })) ∧
  (∀ (i : Instr) (s t : State), exec i s = .next t → t.err = .misuse → s.err ≠ .misuse →
    (((∃ d, i = .update d) ∨ i = .digest) ∧ (s.phase = .done ∨ s.phase = .unconf)) ∨
    ((∃ d, i = .rdout d) ∧ (s.phase = .unconf ∨ s.phase = .active)) ∨
    (i = .reset ∧ s.cfgv = false)) ∧
  (∀ (s t : State) (w : CommandWord) (rest : List HostEvent) (r : Reserved),
    s.port = .command w :: rest → decode w = .error r → step s = .next t → t.err = .misuse → s.err = .misuse)

/-- `E_ILLCMD` (R285): every reserved word outside phase `ERROR`, and `RDOUT` in `DONE` with an index from `OB` on. -/
def Obligations.IllegalCommandIsRaised : Prop :=
  (∀ (s : State) (w : CommandWord) (rest : List HostEvent) (r : Reserved),
    s.port = .command w :: rest → decode w = .error r → s.phase ≠ .error →
      step s = .next { s with
        port := rest, phase := .error, err := .illcmd
        response := some ⟨true, statusWord { s with phase := .error, err := .illcmd }⟩ }) ∧
  (∀ (d : BitVec 8) (s : State) (D : Descriptor), s.phase = .done → boundDescriptor s = some D → D.ob ≤ d.toNat →
    exec (.rdout d) s = .next { s with
      phase := .error, err := .illcmd
      response := some ⟨true, statusWord { s with phase := .error, err := .illcmd }⟩ })

/-- In phase `ERROR` every command but `INIT`, `RESET` and `RDSTAT`, and every reserved word, is ignored: no state changes
and the unchanged status is answered with `err = 1` (R286). -/
def Obligations.ErrorPhaseIgnoresCommands : Prop :=
  ∀ s : State, s.phase = .error →
    (∀ d, exec (.update d) s = .next { s with response := some ⟨true, statusWord s⟩ }) ∧
    exec .digest s = .next { s with response := some ⟨true, statusWord s⟩ } ∧
    (∀ d, exec (.rdout d) s = .next { s with response := some ⟨true, statusWord s⟩ }) ∧
    (∀ (w : CommandWord) (rest : List HostEvent) (r : Reserved),
      s.port = .command w :: rest → decode w = .error r →
        step s = .next { s with port := rest, response := some ⟨true, statusWord s⟩ })

/-- Error entry (R284): a command that ends in phase `ERROR` has changed nothing but `PHASE`, `ERR` and the response, and,
for `INIT`, `CFGV` and `ALG`; the first error is kept except by `INIT`. -/
def Obligations.ErrorsArePrecise : Prop :=
  ∀ (i : Instr) (s t : State), exec i s = .next t → t.phase = .error →
    t = { s with cfgv := t.cfgv, alg := t.alg, phase := t.phase, err := t.err, response := t.response } ∧
    ((∀ a, i ≠ .init a) → t.cfgv = s.cfgv ∧ t.alg = s.alg) ∧
    ((∀ a, i ≠ .init a) → s.phase = .error → t.err = s.err) ∧
    (∀ a, i = .init a → t.cfgv = false ∧ t.alg = 0 ∧ t.err = .config)

/-- The legality table of R102: in every state with the invariant every command, and every reserved word, executes, raises
or is ignored as the table says.  `RDSTAT` is legal everywhere and keeps `PHASE` and `ERR`. -/
def Obligations.LegalityTable : Prop :=
  (∀ (i : Instr) (s : State), Inv s → ∃ t, exec i s = .next t ∧
    (∀ p, legality i s = .ok p → t.phase = p ∧ (i ≠ .rdstat → t.err = .none) ∧ (i = .rdstat → t.err = s.err)) ∧
    (∀ e, legality i s = .raises e → t.phase = .error ∧
      t.err = if s.phase = .error ∧ (∀ a, i ≠ .init a) then s.err else e) ∧
    (legality i s = .ignored → t = { s with response := some ⟨true, statusWord s⟩ })) ∧
  (∀ (s : State) (w : CommandWord) (rest : List HostEvent) (r : Reserved),
    s.port = .command w :: rest → decode w = .error r →
      ∃ t, step s = .next t ∧ t.phase = .error ∧ (s.phase ≠ .error → t.err = .illcmd) ∧
        (s.phase = .error → t = { s with port := rest, response := some ⟨true, statusWord s⟩ }))

/-! ### Who writes what -/

/-- The transitions of `PHASE` (R26): `INIT` and `RESET` lead to `ACTIVE`, `DIGEST` from `ACTIVE` to `DONE`, an error to
`ERROR` with a cause in `ERR`, and nothing else changes it. -/
def Obligations.PhaseTransitions : Prop :=
  ∀ (i : Instr) (s t : State), Inv s → exec i s = .next t → t.phase ≠ s.phase →
    (t.phase = .active ∧ ((∃ a, i = .init a) ∨ (i = .reset ∧ s.cfgv = true))) ∨
    (t.phase = .done ∧ i = .digest ∧ s.phase = .active) ∨
    (t.phase = .error ∧ t.err ≠ .none)

/-- `UNCONF` is reached by power-on reset only (R311); an idle step keeps the phase by the model's choice (log 2). -/
def Obligations.UnconfOnlyByPowerOn : Prop :=
  ∀ s t : State, step s = .next t → t.phase = .unconf →
    s.phase = .unconf ∨ ∃ c rest, s.port = .powerOn c :: rest

/-- The writers of each register: `CFGV` and `ALG` by `INIT` (R24, R25); `H`, `BUF`, `CUR`, `LEN` by `INIT`, `RESET` and
`UPDATE` (R21, R28, R29, R35); `OUT` by `INIT`, `RESET` and `DIGEST` (R36); the parameter and the port by no command
(model's own, log 1, log 5). -/
def Obligations.RegisterWriters : Prop :=
  ∀ (i : Instr) (s t : State), exec i s = .next t →
    ((∀ a, i ≠ .init a) → t.cfgv = s.cfgv ∧ t.alg = s.alg) ∧
    ((∀ a, i ≠ .init a) → i ≠ .reset → (∀ d, i ≠ .update d) →
      t.h = s.h ∧ t.buf = s.buf ∧ t.cur = s.cur ∧ t.len = s.len) ∧
    ((∀ a, i ≠ .init a) → i ≠ .reset → i ≠ .digest → t.out = s.out) ∧
    t.wideVariants = s.wideVariants ∧ t.port = s.port

/-- `H` and `BUF` cannot be read by any command: the response to a command does not depend on them (R296). -/
def Obligations.ResponsesHideTheChainingState : Prop :=
  ∀ (i : Instr) (s t : State) (h : BitVec 1024) (buf : Vector Byte 128), exec i s = .next t →
    ∃ u, exec i { s with h := h, buf := buf } = .next u ∧ u.response = t.response

/-- Instances share no mutable state (R62, R294; a system as a list of instances, with
the schedule an argument, is the model's choice, log 6): after any schedule of steps, each instance is where its own number of
steps alone would have brought it. -/
def Obligations.InstancesAreIndependent : Prop :=
  ∀ (schedule : List Nat) (y z : System), systemRun schedule y = .next z →
    z.length = y.length ∧
    ∀ (k : Nat) (s : State), y[k]? = some s →
      ∃ t, z[k]? = some t ∧ Host.Core.run Sys2Proof.core (schedule.count k) s = .next t

/-! ### The message -/

/-- The invariants of R38 while `PHASE = ACTIVE`: `INIT` and `RESET` establish them for the empty message, `UPDATE` carries
them to the message with one more byte, and no other command that stays in `ACTIVE` changes them. -/
def Obligations.MessageInvariant : Prop :=
  (∀ (a : BitVec 4) (s t : State) (D : Descriptor), descriptorOf s.wideVariants a = some D →
    exec (.init a) s = .next t → Absorbed D [] t) ∧
  (∀ (s t : State) (D : Descriptor), s.cfgv = true → boundDescriptor s = some D →
    exec .reset s = .next t → Absorbed D [] t) ∧
  (∀ (D : Descriptor) (m : Bytes) (d : BitVec 8) (s : State), Absorbed D m s → 8 * (m.length + 1) < 2 ^ 64 →
    ∃ t, exec (.update d) s = .next t ∧ Absorbed D (m ++ [d]) t) ∧
  (∀ (D : Descriptor) (m : Bytes) (i : Instr) (s t : State), Absorbed D m s → (∀ a, i ≠ .init a) → i ≠ .reset →
    (∀ d, i ≠ .update d) → exec i s = .next t → t.phase = .active → Absorbed D m t)

/-- `DIGEST` after a message leaves the hash of that message in `OUT` and zeros after it: the streaming engine computes the
function of descriptor and message alone that `hashOf` is (R95, R101). -/
def Obligations.DigestIsTheHashOfTheMessage : Prop :=
  ∀ (D : Descriptor) (m : Bytes) (s : State), Absorbed D m s →
    ∃ t, exec .digest s = .next t ∧ t.phase = .done ∧
      (hashOf D m).length = D.ob ∧
      (∀ i, outByte t i = (hashOf D m).getD i 0)

/-- The commands of `HASH` (R80), issued in any state to a valid code, with any message below 2^64 bits: every response has
`err = 0` and the data of the last `OB` responses are the bytes of the hash (R99, R101). -/
def Obligations.HashCommandsAnswerTheHash : Prop :=
  ∀ (a : BitVec 4) (D : Descriptor) (m : Bytes) (s : State), descriptorOf s.wideVariants a = some D →
    8 * m.length < 2 ^ 64 →
      ∃ rs u, hostRun (hashCommands a D.ob m) s = .next (rs, u) ∧
        (∀ r, r ∈ rs → r.err = false) ∧
        (rs.drop (m.length + 2)).map (fun r => r.data) = (hashOf D m).map (fun b => b.setWidth 16)

/-- The API calls as commands (R99, R80): `update` is one `UPDATE` for each byte in order, nothing for no bytes, `construct` is
`INIT`, `digest` is `DIGEST` and the `OB` reads, `reset` is `RESET`; hence, however a message is cut into `update` calls, the
commands are the same (R100). -/
def Obligations.ChunkSizeIndependence : Prop :=
  (∀ (ob : Nat) (m : Bytes),
    apiCommands ob (.update m) = m.map Instr.update ∧ apiCommands ob (.update []) = [] ∧
      apiCommands ob .digest = .digest :: (List.range ob).map (fun i => .rdout (BitVec.ofNat 8 i)) ∧
      apiCommands ob .reset = [.reset] ∧ ∀ a, apiCommands ob (.construct a) = [.init a]) ∧
  ∀ (ob : Nat) (chunks : List Bytes),
    (chunks.flatMap fun c => apiCommands ob (.update c)) = apiCommands ob (.update chunks.flatten)

/-! ### Padding and finalization -/

/-- The padding frame (R147): whole blocks; the tail, the marker `80`, zeros and the family's length field; two blocks
exactly when the thresholds of R147 say so. -/
def Obligations.PaddingFrame : Prop :=
  ∀ (wide : Bool) (a : BitVec 4) (D : Descriptor) (tail : Bytes) (n : Nat),
    descriptorOf wide a = some D → tail.length < D.bs →
      let blocks := padBlocks D tail n
      let field : Bytes :=
        match D.lf with
        | .bits64LE => enc64LE n
        | .blocks64BE => encBE 64 (n / (8 * D.bs) + blocks.length)
        | .bits128BE => encBE 128 n
        | .bits64LEsize16LE => enc64LE n ++ enc16LE (8 * D.ob)
      (∀ b, b ∈ blocks → b.length = D.bs) ∧
      (∃ z, blocks.flatten = tail ++ [0x80#8] ++ zeros z ++ field) ∧
      blocks.length =
        (if D.family = .jh then (if tail.length = 0 then 1 else 2)
         else if tail.length + 1 + D.lf.bytes ≤ D.bs then 1 else 2)

/-- The digest always has exactly `OB` bytes (R101, R145). -/
def Obligations.DigestLength : Prop :=
  ∀ (wide : Bool) (a : BitVec 4) (D : Descriptor) (h : BitVec 1024) (tail : Bytes) (n : Nat),
    descriptorOf wide a = some D → (finalize D h tail n).length = D.ob

/-- Every family's digest is a slice of what its final function makes of the state after the padded blocks are compressed
exactly as `UPDATE` would (R146): for BMW the last words of `BMW.FINAL_W` (R179), for Groestl the last bytes of `P(h) ^ h`
(R202, R203), for JH the last bytes of the state (R236), for SHAvite-3 the first bytes, with counter `msgbits` for a block that
holds a message byte and 0 otherwise (R148, R259). -/
def Obligations.DigestIsASliceAfterThePadding : Prop :=
  ∀ (wide : Bool) (a : BitVec 4) (D : Descriptor) (h : BitVec 1024) (tail : Bytes) (n : Nat),
    descriptorOf wide a = some D → tail.length < D.bs →
      let padded := (padBlocks D tail n).foldl (fun h b => compress D h b 0) h
      (D.family = .bmw →
        finalize D h tail n = unwords ((bmwFinal (hElems D.w 16 padded)).drop (16 - 8 * D.ob / D.w))) ∧
      (D.family = .groestl →
        finalize D h tail n =
          (xorList (groestlPerm (D.sb / 8) .p (hElems 8 D.sb padded)) (hElems 8 D.sb padded)).drop (D.sb - D.ob)) ∧
      (D.family = .jh → finalize D h tail n = (hElems 8 128 padded).drop (128 - D.ob)) ∧
      (D.family = .shavite →
        finalize D h tail n =
          (unwords (hElems 32 8 (((padBlocks D tail n).zip
            [if tail.length = 0 then 0 else BitVec.ofNat 64 n, 0]).foldl
              (fun h b => compress D h b.1 b.2) h))).take D.ob)

/-! ### BitIO -/

/-- `ENC32LE`, byte by byte, and that it and `DEC32LE` are inverse (R111). -/
def Obligations.LittleEndianWordsRoundTrip : Prop :=
  (∀ x : BitVec 32, enc32LE x = [x.extractLsb' 0 8, x.extractLsb' 8 8, x.extractLsb' 16 8, x.extractLsb' 24 8]) ∧
    (∀ x : BitVec 32, dec32LE (enc32LE x) = x) ∧
    (∀ b : Bytes, b.length = 4 → enc32LE (dec32LE b) = b) ∧
    enc32LE 0x3d187ce5 = [0xe5, 0x7c, 0x18, 0x3d]

/-- `WORDS_W` word by word, `UNWORDS_W` its inverse, and `ENC16LE` (R114). -/
def Obligations.WordsOfABlockRoundTrip : Prop :=
  (∀ block : Bytes, block.length = 64 →
    (words 32 block).length = 16 ∧ unwords (words 32 block) = block ∧
      ∀ i, i < 16 → nth (words 32 block) i = dec32LE ((block.drop (4 * i)).take 4)) ∧
  (∀ block : Bytes, block.length = 128 →
    (words 64 block).length = 16 ∧ unwords (words 64 block) = block ∧
      ∀ i, i < 16 → nth (words 64 block) i = dec64LE ((block.drop (8 * i)).take 8)) ∧
  (∀ (w : Nat) (ws : List (BitVec w)), w = 32 ∨ w = 64 → ws.length = 16 → words w (unwords ws) = ws) ∧
  ∀ x, x < 2 ^ 16 → enc16LE x = [BitVec.ofNat 8 x, BitVec.ofNat 8 (x / 256)]

/-- The bit and nibble views of a byte string, place by place, and their inverses (R126, R127). -/
def Obligations.BitAndNibbleViewsRoundTrip : Prop :=
  (∀ s : Bytes,
    (bits s).length = 8 * s.length ∧ (nibbles s).length = 2 * s.length ∧
      unbits (bits s) = s ∧ unnibbles (nibbles s) = s ∧
      (∀ i k, i < s.length → k < 8 → (bits s).getD (8 * i + k) false = (nth s i).getLsbD (7 - k)) ∧
      (∀ i, i < s.length → nth (nibbles s) (2 * i) = (nth s i).extractLsb' 4 4 ∧
        nth (nibbles s) (2 * i + 1) = (nth s i).extractLsb' 0 4)) ∧
  (∀ (n : Nat) (l : List Bool), l.length = 8 * n → bits (unbits l) = l) ∧
  (∀ (n : Nat) (l : List Nibble), l.length = 2 * n → nibbles (unnibbles l) = l)

/-- `XTIME` and the product recursion of R120, for all bytes. -/
def Obligations.FieldProductRecursion : Prop :=
  (∀ a : Byte, xtime a = BitVec.ofNat 8 (2 * a.toNat) ^^^ (if a.getLsbD 7 then 0x1B else 0)) ∧
  ∀ a b : Byte, gmul a 0 = 0 ∧ gmul a b = (if b.getLsbD 0 then a else 0) ^^^ gmul (xtime a) (b >>> 1)

/-- The S-box is the field inverse (0 to 0) followed by the affine map of R121. -/
def Obligations.SboxIsInverseThenAffine : Prop :=
  ∀ a : Byte, ∃ x : Byte, (if a = 0 then x = 0 else gmul a x = 1) ∧
    sbox a = x ^^^ rotl x 1 ^^^ rotl x 2 ^^^ rotl x 3 ^^^ rotl x 4 ^^^ 0x63

/-- `AESROUND` column by column: SubBytes and ShiftRows give the bytes `a r`, MixColumns the bytes `b0 .. b3` of the result word,
`b0` the least significant; no key is added (R122). -/
def Obligations.AesRoundOfColumns : Prop :=
  (∀ x : List (BitVec 32), (aesRound x).length = 4 ∧
    ∀ c, c < 4 →
      let a := fun r => sbox ((nth x ((c + r) % 4)).extractLsb' (8 * r) 8)
      let b0 := gmul (a 0) 2 ^^^ gmul (a 1) 3 ^^^ a 2 ^^^ a 3
      let b1 := a 0 ^^^ gmul (a 1) 2 ^^^ gmul (a 2) 3 ^^^ a 3
      let b2 := a 0 ^^^ a 1 ^^^ gmul (a 2) 2 ^^^ gmul (a 3) 3
      let b3 := gmul (a 0) 3 ^^^ a 1 ^^^ a 2 ^^^ gmul (a 3) 2
      nth (aesRound x) c = b3 ++ b2 ++ b1 ++ b0) ∧
  aesRound [1, 0, 0, 0] = [0x427c7c5d, 0x63636363, 0x63636363, 0x63636363]

/-! ### BMW -/

/-- The initial values of R161 in closed form. -/
def Obligations.BmwInitialValues : Prop :=
  ∀ i, i < 16 →
    (descriptorOf true 0).map (fun D => hElem 32 D.iv i) = some (0x00010203 + BitVec.ofNat 32 i * 0x04040404) ∧
    (descriptorOf true 1).map (fun D => hElem 32 D.iv i) = some (0x40414243 + BitVec.ofNat 32 i * 0x04040404) ∧
    (descriptorOf true 2).map (fun D => hElem 64 D.iv i) =
      some (0x0001020304050607 + BitVec.ofNat 64 i * 0x0808080808080808) ∧
    (descriptorOf true 3).map (fun D => hElem 64 D.iv i) =
      some (0x8081828384858687 + BitVec.ofNat 64 i * 0x0808080808080808)

/-- The first half of the quadruple pipe: `Wv` row by row of the sign table (R165), `Q[i] = s_(i mod 5)(Wv[i]) + H[(i+1) mod 16]`
(R166), and the corner case `H = M`, where `Wv = 0` and `Q[i] = H[(i+1) mod 16]`. -/
def Obligations.BmwFirstPipeHalf : Prop :=
  (∀ (w : Nat) (H M : List (BitVec w)), H.length = 16 → M.length = 16 →
    let T := fun j => nth M j ^^^ nth H j
    bmwW H M =
      [T 5 - T 7 + T 10 + T 13 + T 14,
       T 6 - T 8 + T 11 + T 14 - T 15,
       T 0 + T 7 + T 9 - T 12 + T 15,
       T 0 - T 1 + T 8 - T 10 + T 13,
       T 1 + T 2 + T 9 - T 11 - T 14,
       T 3 - T 2 + T 10 - T 12 + T 15,
       T 4 - T 0 - T 3 - T 11 + T 13,
       T 1 - T 4 - T 5 - T 12 - T 14,
       T 2 - T 5 - T 6 + T 13 - T 15,
       T 0 - T 3 + T 6 - T 7 + T 14,
       T 8 - T 1 - T 4 - T 7 + T 15,
       T 8 - T 0 - T 2 - T 5 + T 9,
       T 1 + T 3 - T 6 - T 9 + T 10,
       T 2 + T 4 + T 7 + T 10 + T 11,
       T 3 - T 5 + T 8 - T 11 - T 12,
       T 12 - T 4 - T 6 - T 9 + T 13]) ∧
  (∀ (w : Nat) (H M : List (BitVec w)), (bmwQ0 H M).length = 16 ∧
    ∀ i, i < 16 → nth (bmwQ0 H M) i = bmwS (i % 5) (nth (bmwW H M) i) + nth H ((i + 1) % 16)) ∧
  ∀ (w : Nat) (H : List (BitVec w)), H.length = 16 →
    bmwW H H = List.replicate 16 0 ∧ ∀ i, i < 16 → nth (bmwQ0 H H) i = nth H ((i + 1) % 16)

/-- The mixing functions of BMW with their amounts for both widths (R162, R163, R164), and the constants `K[j]` (R168). -/
def Obligations.BmwMixingFunctions : Prop :=
  (∀ x : BitVec 32,
    bmwS 0 x = x >>> 1 ^^^ x <<< 3 ^^^ x.rotateLeft 4 ^^^ x.rotateLeft 19 ∧
    bmwS 1 x = x >>> 1 ^^^ x <<< 2 ^^^ x.rotateLeft 8 ^^^ x.rotateLeft 23 ∧
    bmwS 2 x = x >>> 2 ^^^ x <<< 1 ^^^ x.rotateLeft 12 ^^^ x.rotateLeft 25 ∧
    bmwS 3 x = x >>> 2 ^^^ x <<< 2 ^^^ x.rotateLeft 15 ^^^ x.rotateLeft 29 ∧
    bmwS 4 x = x >>> 1 ^^^ x ∧ bmwS 5 x = x >>> 2 ^^^ x ∧
    (List.range 7).map (fun k => bmwR (k + 1) x) = [3, 7, 13, 16, 19, 23, 27].map x.rotateLeft) ∧
  (∀ x : BitVec 64,
    bmwS 0 x = x >>> 1 ^^^ x <<< 3 ^^^ x.rotateLeft 4 ^^^ x.rotateLeft 37 ∧
    bmwS 1 x = x >>> 1 ^^^ x <<< 2 ^^^ x.rotateLeft 13 ^^^ x.rotateLeft 43 ∧
    bmwS 2 x = x >>> 2 ^^^ x <<< 1 ^^^ x.rotateLeft 19 ^^^ x.rotateLeft 53 ∧
    bmwS 3 x = x >>> 2 ^^^ x <<< 2 ^^^ x.rotateLeft 28 ^^^ x.rotateLeft 59 ∧
    bmwS 4 x = x >>> 1 ^^^ x ∧ bmwS 5 x = x >>> 2 ^^^ x ∧
    (List.range 7).map (fun k => bmwR (k + 1) x) = [5, 11, 27, 32, 37, 43, 53].map x.rotateLeft) ∧
  ∀ j, j < 16 → bmwK 32 j = BitVec.ofNat 32 ((j + 16) * 0x05555555) ∧
    bmwK 64 j = BitVec.ofNat 64 ((j + 16) * 0x0555555555555555)

/-- `BMW.EXPAND` keeps the sixteen words and appends sixteen more, each by `EXPAND1` (the first two) or `EXPAND2` over the words
before it and `ADDELT` (R167, R169, R170, R171). -/
def Obligations.BmwExpandAppendsSixteenWords : Prop :=
  ∀ (w : Nat) (Q H M : List (BitVec w)), Q.length = 16 →
    let P := bmwExpand Q H M
    P.length = 32 ∧ P.take 16 = Q ∧
      ∀ j, j < 16 →
        let m := fun k => rotl (nth M (k % 16)) (k % 16 + 1)
        let addelt := (m j + m (j + 3) - m (j + 10) + bmwK w j) ^^^ nth H ((j + 7) % 16)
        let q := fun k => nth P (j + k)
        nth P (j + 16) =
          if j < 2 then
            bmwS 1 (q 0) + bmwS 2 (q 1) + bmwS 3 (q 2) + bmwS 0 (q 3) + bmwS 1 (q 4) + bmwS 2 (q 5) + bmwS 3 (q 6) +
              bmwS 0 (q 7) + bmwS 1 (q 8) + bmwS 2 (q 9) + bmwS 3 (q 10) + bmwS 0 (q 11) + bmwS 1 (q 12) +
              bmwS 2 (q 13) + bmwS 3 (q 14) + bmwS 0 (q 15) + addelt
          else
            q 0 + bmwR 1 (q 1) + q 2 + bmwR 2 (q 3) + q 4 + bmwR 3 (q 5) + q 6 + bmwR 4 (q 7) + q 8 + bmwR 5 (q 9) +
              q 10 + bmwR 6 (q 11) + q 12 + bmwR 7 (q 13) + bmwS 4 (q 14) + bmwS 5 (q 15) + addelt

/-- `BMW.FOLD` word by word (R172), the compression as its three stages (R176), and the final stage: the same compression with
the constant block `CF` as chaining value and the chaining value as message (R173, R177). -/
def Obligations.BmwFoldAndFinal : Prop :=
  (∀ (w : Nat) (Q M : List (BitVec w)), Q.length = 32 →
    let q := nth Q
    let m := nth M
    let g := nth (bmwFold Q M)
    let xl := q 16 ^^^ q 17 ^^^ q 18 ^^^ q 19 ^^^ q 20 ^^^ q 21 ^^^ q 22 ^^^ q 23
    let xh := xl ^^^ q 24 ^^^ q 25 ^^^ q 26 ^^^ q 27 ^^^ q 28 ^^^ q 29 ^^^ q 30 ^^^ q 31
    (bmwFold Q M).length = 16 ∧
    g 0 = (xh <<< 5 ^^^ q 16 >>> 5 ^^^ m 0) + (xl ^^^ q 24 ^^^ q 0) ∧
    g 1 = (xh >>> 7 ^^^ q 17 <<< 8 ^^^ m 1) + (xl ^^^ q 25 ^^^ q 1) ∧
    g 2 = (xh >>> 5 ^^^ q 18 <<< 5 ^^^ m 2) + (xl ^^^ q 26 ^^^ q 2) ∧
    g 3 = (xh >>> 1 ^^^ q 19 <<< 5 ^^^ m 3) + (xl ^^^ q 27 ^^^ q 3) ∧
    g 4 = (xh >>> 3 ^^^ q 20 ^^^ m 4) + (xl ^^^ q 28 ^^^ q 4) ∧
    g 5 = (xh <<< 6 ^^^ q 21 >>> 6 ^^^ m 5) + (xl ^^^ q 29 ^^^ q 5) ∧
    g 6 = (xh >>> 4 ^^^ q 22 <<< 6 ^^^ m 6) + (xl ^^^ q 30 ^^^ q 6) ∧
    g 7 = (xh >>> 11 ^^^ q 23 <<< 2 ^^^ m 7) + (xl ^^^ q 31 ^^^ q 7) ∧
    g 8 = rotl (g 4) 9 + (xh ^^^ q 24 ^^^ m 8) + (xl <<< 8 ^^^ q 23 ^^^ q 8) ∧
    g 9 = rotl (g 5) 10 + (xh ^^^ q 25 ^^^ m 9) + (xl >>> 6 ^^^ q 16 ^^^ q 9) ∧
    g 10 = rotl (g 6) 11 + (xh ^^^ q 26 ^^^ m 10) + (xl <<< 6 ^^^ q 17 ^^^ q 10) ∧
    g 11 = rotl (g 7) 12 + (xh ^^^ q 27 ^^^ m 11) + (xl <<< 4 ^^^ q 18 ^^^ q 11) ∧
    g 12 = rotl (g 0) 13 + (xh ^^^ q 28 ^^^ m 12) + (xl >>> 3 ^^^ q 19 ^^^ q 12) ∧
    g 13 = rotl (g 1) 14 + (xh ^^^ q 29 ^^^ m 13) + (xl >>> 4 ^^^ q 20 ^^^ q 13) ∧
    g 14 = rotl (g 2) 15 + (xh ^^^ q 30 ^^^ m 14) + (xl >>> 7 ^^^ q 21 ^^^ q 14) ∧
    g 15 = rotl (g 3) 16 + (xh ^^^ q 31 ^^^ m 15) + (xl >>> 2 ^^^ q 22 ^^^ q 15)) ∧
  (∀ (w : Nat) (H M : List (BitVec w)), bmwCompress H M = bmwFold (bmwExpand (bmwQ0 H M) H M) M) ∧
  (∀ H : List (BitVec 32),
    bmwFinal H = bmwCompress ((List.range 16).map fun i => 0xaaaaaaa0 + BitVec.ofNat 32 i) H) ∧
  ∀ H : List (BitVec 64),
    bmwFinal H = bmwCompress ((List.range 16).map fun i => 0xaaaaaaaaaaaaaaa0 + BitVec.ofNat 64 i) H

/-! ### Groestl -/

/-- `A[r][c] = x[8c + r]`, and `FROMMATRIX` is the inverse of `TOMATRIX` (R192). -/
def Obligations.GroestlMatrixRoundTrip : Prop :=
  (∀ (nc : Nat) (x : Bytes), x.length = 8 * nc →
    groestlFromMatrix (groestlToMatrix nc x) = x ∧
      ∀ r c, r < 8 → c < nc → cell (groestlToMatrix nc x) r c = nth x (8 * c + r)) ∧
  ∀ (nc : Nat) (A : Columns), A.length = nc → (∀ col, col ∈ A → col.length = 8) →
    groestlToMatrix nc (groestlFromMatrix A) = A

/-- `P` and `Q` are permutations of the `8 * NC`-byte strings, in both shapes (R200). -/
def Obligations.GroestlPermutations : Prop :=
  ∀ (nc : Nat) (kind : GroestlKind), nc = 8 ∨ nc = 16 →
    (∀ x : Bytes, x.length = 8 * nc → (groestlPerm nc kind x).length = 8 * nc) ∧
    (∀ x y : Bytes, x.length = 8 * nc → y.length = 8 * nc →
      groestlPerm nc kind x = groestlPerm nc kind y → x = y)

/-! ### JH -/

/-- The two S-boxes of R224, each a permutation of the 4-bit values. -/
def Obligations.JhSboxes : Prop :=
  ((List.range 16).map fun x => (jhS false (BitVec.ofNat 4 x)).toNat) =
      [9, 0, 4, 11, 13, 12, 3, 15, 1, 10, 2, 6, 7, 5, 8, 14] ∧
    ((List.range 16).map fun x => (jhS true (BitVec.ofNat 4 x)).toNat) =
      [3, 12, 6, 13, 5, 7, 1, 9, 15, 2, 0, 4, 11, 10, 14, 8] ∧
    ∀ (b : Bool) (x y : Nibble), jhS b x = jhS b y → x = y

/-- `PERM_d` place by place (R226). -/
def Obligations.JhPermutationPlaces : Prop :=
  ∀ (d : Nat) (w : List Nibble), 2 ≤ d → w.length = 2 ^ d →
    (jhPerm w).length = 2 ^ d ∧
    (∀ k, k < 2 ^ d / 2 → nth (jhPerm w) k = if k % 2 = 0 then nth w (2 * k) else nth w (2 * k + 1)) ∧
    (∀ m, m < 2 ^ d / 2 →
      nth (jhPerm w) (2 ^ d / 2 + m) = if m % 2 = 0 then nth w (2 * m + 2) else nth w (2 * m - 1))

/-- `ROUND_d` is the S-boxes chosen by the selectors, `JH.L` on each pair, then `PERM_d`; it keeps the number of values and is
bijective for every choice of selector bits (R227). -/
def Obligations.JhRoundIsBijective : Prop :=
  ∀ (d : Nat) (cb : List Bool), 2 ≤ d → cb.length = 2 ^ d →
    (∀ a : List Nibble, a.length = 2 ^ d →
      (jhRound a cb).length = 2 ^ d ∧
      ∃ w : List Nibble, w.length = 2 ^ d ∧ jhRound a cb = jhPerm w ∧
        ∀ i, i < 2 ^ d / 2 →
          (nth w (2 * i), nth w (2 * i + 1)) =
            jhL (jhS (cb.getD (2 * i) false) (nth a (2 * i))) (jhS (cb.getD (2 * i + 1) false) (nth a (2 * i + 1)))) ∧
    (∀ x y : List Nibble, x.length = 2 ^ d → y.length = 2 ^ d → jhRound x cb = jhRound y cb → x = y) ∧
    (∀ z : List Nibble, z.length = 2 ^ d → ∃ x : List Nibble, x.length = 2 ^ d ∧ jhRound x cb = z)

/-- `GROUP` bit by bit, and `DEGROUP` its inverse (R230). -/
def Obligations.JhGroupingRoundTrip : Prop :=
  (∀ (A : BitVec 1024) (i k : Nat), i < 128 → k < 4 →
    (jhGroup A).length = 256 ∧
    (nth (jhGroup A) (2 * i)).getMsbD k = A.getMsbD (i + 256 * k) ∧
    (nth (jhGroup A) (2 * i + 1)).getMsbD k = A.getMsbD (i + 128 + 256 * k)) ∧
  (∀ A : BitVec 1024, jhDegroup (jhGroup A) = A) ∧
    (∀ q : List Nibble, q.length = 256 → jhGroup (jhDegroup q) = q)

/-- `E8` is a bijective permutation of the 1024-bit states (R231). -/
def Obligations.JhE8IsBijective : Prop := Function.Bijective jhE8

/-! ### SHAvite-3 -/

/-- The schedule (R253, R254): 144 words, the first sixteen the block's; a nonlinear group is the AES round of the rotated group
sixteen back, on top of the group before it, with the counter step; a linear group is two earlier words. -/
def Obligations.ShaviteScheduleWords : Prop :=
  ∀ (block : Bytes) (cnt : BitVec 64),
    let rk := nth (shaviteKeys block cnt)
    let c0 : BitVec 32 := cnt.extractLsb' 0 32
    let c1 : BitVec 32 := cnt.extractLsb' 32 32
    let counterStep := fun i : Nat =>
      if i = 16 ∨ i = 124 then c0
      else if i = 57 ∨ i = 86 then c1
      else if i = 58 ∨ i = 87 then ~~~c0
      else if i = 17 ∨ i = 127 then ~~~c1
      else 0
    (shaviteKeys block cnt).length = 144 ∧ (shaviteKeys block cnt).take 16 = words 32 block ∧
    (∀ u k, u ∈ [16, 20, 24, 28, 48, 52, 56, 60, 80, 84, 88, 92, 112, 116, 120, 124] → k < 4 →
      rk (u + k) =
        nth (aesRound [rk (u - 15), rk (u - 14), rk (u - 13), rk (u - 16)]) k ^^^ rk (u - 4 + k) ^^^ counterStep (u + k)) ∧
    ∀ u k, u ∈ [32, 36, 40, 44, 64, 68, 72, 76, 96, 100, 104, 108, 128, 132, 136, 140] → k < 4 →
      rk (u + k) = rk (u + k - 16) ^^^ rk (u + k - 3)

/-- For a fixed schedule the twelve Feistel rounds are a permutation of the states of eight words (the cipher of R257). -/
def Obligations.ShaviteCipherIsAPermutation : Prop :=
  ∀ rk : List (BitVec 32),
    (∀ h : List (BitVec 32), h.length = 8 → (shaviteE256 h rk).length = 8) ∧
    (∀ h g : List (BitVec 32), h.length = 8 → g.length = 8 → shaviteE256 h rk = shaviteE256 g rk → h = g) ∧
    ∀ p : List (BitVec 32), p.length = 8 → ∃ h : List (BitVec 32), h.length = 8 ∧ shaviteE256 h rk = p
end

