-- ==== Sys2Proof/Laws/Families.lean ====
section
/-! SUPPORT. The lengths of what the family operations answer: the small lemmas of their definitions. -/

namespace Sys2Proof.Machine

@[simp] theorem length_zeros (n : Nat) : (zeros n).length = n := by simp [zeros]

@[simp] theorem length_encLE {w : Nat} (x : BitVec w) : (encLE x).length = w / 8 := by simp [encLE]

@[simp] theorem length_enc64LE (x : Nat) : (enc64LE x).length = 8 := by simp [enc64LE]

@[simp] theorem length_enc16LE (x : Nat) : (enc16LE x).length = 2 := by simp [enc16LE]

@[simp] theorem length_encBE (n x : Nat) : (encBE n x).length = n / 8 := by simp [encBE]

@[simp] theorem length_words (w : Nat) (block : Bytes) : (words w block).length = 16 := by simp [words]

theorem length_unwords {w : Nat} (ws : List (BitVec w)) : (unwords ws).length = ws.length * (w / 8) := by
  induction ws with
  | nil => simp [unwords]
  | cons x xs ih => simp [unwords, Nat.add_mul, Nat.add_comm] at ih ⊢

@[simp] theorem length_xorList {w : Nat} (xs ys : List (BitVec w)) :
    (xorList xs ys).length = min xs.length ys.length := by simp [xorList]

@[simp] theorem length_aesRound (x : List (BitVec 32)) : (aesRound x).length = 4 := by simp [aesRound]

@[simp] theorem length_bmwFold {w : Nat} (Q M : List (BitVec w)) : (bmwFold Q M).length = 16 := rfl

@[simp] theorem length_bmwCompress {w : Nat} (H M : List (BitVec w)) : (bmwCompress H M).length = 16 := rfl

@[simp] theorem length_bmwFinal {w : Nat} (H : List (BitVec w)) : (bmwFinal H).length = 16 := rfl

@[simp] theorem length_groestlToMatrix (nc : Nat) (x : Bytes) : (groestlToMatrix nc x).length = nc := by
  simp [groestlToMatrix]

@[simp] theorem length_hElems (w n : Nat) (h : BitVec 1024) : (hElems w n h).length = n := by simp [hElems]

/-- A descriptor found by its code is a row of the ROM. -/
theorem descriptorOf_mem {wide : Bool} {a : BitVec 4} {D : Descriptor} (h : descriptorOf wide a = some D) :
    some D ∈ descriptorRom := by
  unfold descriptorOf at h
  split at h
  · rw [List.getD_eq_getElem?_getD] at h
    cases hr : descriptorRom[a.toNat]? with
    | none => simp [hr] at h
    | some r =>
      simp only [hr, Option.getD_some] at h
      exact h ▸ List.mem_of_getElem? hr
  · cases h

end Sys2Proof.Machine
end

