-- ==== Sys2Proof/Laws/State.lean ====
section
/-! SUPPORT. One lemma per field per update of State, true by `rfl`, so that no proof unfolds a record update. -/

namespace Sys2Proof.Machine

/-! ### `withPort` -/

@[simp] theorem withPort_cfgv (rest : List HostEvent) (s : State) : (withPort rest s).cfgv = s.cfgv := rfl
@[simp] theorem withPort_alg (rest : List HostEvent) (s : State) : (withPort rest s).alg = s.alg := rfl
@[simp] theorem withPort_phase (rest : List HostEvent) (s : State) : (withPort rest s).phase = s.phase := rfl
@[simp] theorem withPort_err (rest : List HostEvent) (s : State) : (withPort rest s).err = s.err := rfl
@[simp] theorem withPort_h (rest : List HostEvent) (s : State) : (withPort rest s).h = s.h := rfl
@[simp] theorem withPort_buf (rest : List HostEvent) (s : State) : (withPort rest s).buf = s.buf := rfl
@[simp] theorem withPort_cur (rest : List HostEvent) (s : State) : (withPort rest s).cur = s.cur := rfl
@[simp] theorem withPort_len (rest : List HostEvent) (s : State) : (withPort rest s).len = s.len := rfl
@[simp] theorem withPort_out (rest : List HostEvent) (s : State) : (withPort rest s).out = s.out := rfl
@[simp] theorem withPort_wideVariants (rest : List HostEvent) (s : State) : (withPort rest s).wideVariants = s.wideVariants := rfl
@[simp] theorem withPort_port (rest : List HostEvent) (s : State) : (withPort rest s).port = rest := rfl
@[simp] theorem withPort_response (rest : List HostEvent) (s : State) : (withPort rest s).response = s.response := rfl

/-! ### `respond` -/

@[simp] theorem respond_cfgv (s : State) : (respond s).cfgv = s.cfgv := rfl
@[simp] theorem respond_alg (s : State) : (respond s).alg = s.alg := rfl
@[simp] theorem respond_phase (s : State) : (respond s).phase = s.phase := rfl
@[simp] theorem respond_err (s : State) : (respond s).err = s.err := rfl
@[simp] theorem respond_h (s : State) : (respond s).h = s.h := rfl
@[simp] theorem respond_buf (s : State) : (respond s).buf = s.buf := rfl
@[simp] theorem respond_cur (s : State) : (respond s).cur = s.cur := rfl
@[simp] theorem respond_len (s : State) : (respond s).len = s.len := rfl
@[simp] theorem respond_out (s : State) : (respond s).out = s.out := rfl
@[simp] theorem respond_wideVariants (s : State) : (respond s).wideVariants = s.wideVariants := rfl
@[simp] theorem respond_port (s : State) : (respond s).port = s.port := rfl
@[simp] theorem respond_response (s : State) : (respond s).response = some ⟨decide (s.phase = .error), statusWord s⟩ := rfl

/-! ### `respondByte` -/

@[simp] theorem respondByte_cfgv (b : Byte) (s : State) : (respondByte b s).cfgv = s.cfgv := rfl
@[simp] theorem respondByte_alg (b : Byte) (s : State) : (respondByte b s).alg = s.alg := rfl
@[simp] theorem respondByte_phase (b : Byte) (s : State) : (respondByte b s).phase = s.phase := rfl
@[simp] theorem respondByte_err (b : Byte) (s : State) : (respondByte b s).err = s.err := rfl
@[simp] theorem respondByte_h (b : Byte) (s : State) : (respondByte b s).h = s.h := rfl
@[simp] theorem respondByte_buf (b : Byte) (s : State) : (respondByte b s).buf = s.buf := rfl
@[simp] theorem respondByte_cur (b : Byte) (s : State) : (respondByte b s).cur = s.cur := rfl
@[simp] theorem respondByte_len (b : Byte) (s : State) : (respondByte b s).len = s.len := rfl
@[simp] theorem respondByte_out (b : Byte) (s : State) : (respondByte b s).out = s.out := rfl
@[simp] theorem respondByte_wideVariants (b : Byte) (s : State) : (respondByte b s).wideVariants = s.wideVariants := rfl
@[simp] theorem respondByte_port (b : Byte) (s : State) : (respondByte b s).port = s.port := rfl
@[simp] theorem respondByte_response (b : Byte) (s : State) : (respondByte b s).response = some ⟨false, zext16 b⟩ := rfl

/-! ### `ignoreCommand` -/

@[simp] theorem ignoreCommand_cfgv (s : State) : (ignoreCommand s).cfgv = s.cfgv := rfl
@[simp] theorem ignoreCommand_alg (s : State) : (ignoreCommand s).alg = s.alg := rfl
@[simp] theorem ignoreCommand_phase (s : State) : (ignoreCommand s).phase = s.phase := rfl
@[simp] theorem ignoreCommand_err (s : State) : (ignoreCommand s).err = s.err := rfl
@[simp] theorem ignoreCommand_h (s : State) : (ignoreCommand s).h = s.h := rfl
@[simp] theorem ignoreCommand_buf (s : State) : (ignoreCommand s).buf = s.buf := rfl
@[simp] theorem ignoreCommand_cur (s : State) : (ignoreCommand s).cur = s.cur := rfl
@[simp] theorem ignoreCommand_len (s : State) : (ignoreCommand s).len = s.len := rfl
@[simp] theorem ignoreCommand_out (s : State) : (ignoreCommand s).out = s.out := rfl
@[simp] theorem ignoreCommand_wideVariants (s : State) : (ignoreCommand s).wideVariants = s.wideVariants := rfl
@[simp] theorem ignoreCommand_port (s : State) : (ignoreCommand s).port = s.port := rfl
@[simp] theorem ignoreCommand_response (s : State) : (ignoreCommand s).response = some ⟨decide (s.phase = .error), statusWord s⟩ := rfl

/-! ### `enterError` -/

@[simp] theorem enterError_cfgv (e : ErrCause) (s : State) : (enterError e s).cfgv = s.cfgv := rfl
@[simp] theorem enterError_alg (e : ErrCause) (s : State) : (enterError e s).alg = s.alg := rfl
@[simp] theorem enterError_phase (e : ErrCause) (s : State) : (enterError e s).phase = .error := rfl
@[simp] theorem enterError_err (e : ErrCause) (s : State) : (enterError e s).err = if s.phase = .error then s.err else e := rfl
@[simp] theorem enterError_h (e : ErrCause) (s : State) : (enterError e s).h = s.h := rfl
@[simp] theorem enterError_buf (e : ErrCause) (s : State) : (enterError e s).buf = s.buf := rfl
@[simp] theorem enterError_cur (e : ErrCause) (s : State) : (enterError e s).cur = s.cur := rfl
@[simp] theorem enterError_len (e : ErrCause) (s : State) : (enterError e s).len = s.len := rfl
@[simp] theorem enterError_out (e : ErrCause) (s : State) : (enterError e s).out = s.out := rfl
@[simp] theorem enterError_wideVariants (e : ErrCause) (s : State) : (enterError e s).wideVariants = s.wideVariants := rfl
@[simp] theorem enterError_port (e : ErrCause) (s : State) : (enterError e s).port = s.port := rfl
@[simp] theorem enterError_response (e : ErrCause) (s : State) : (enterError e s).response = s.response := rfl

/-! ### `raise` -/

@[simp] theorem raise_cfgv (e : ErrCause) (s : State) : (raise e s).cfgv = s.cfgv := rfl
@[simp] theorem raise_alg (e : ErrCause) (s : State) : (raise e s).alg = s.alg := rfl
@[simp] theorem raise_phase (e : ErrCause) (s : State) : (raise e s).phase = .error := rfl
@[simp] theorem raise_err (e : ErrCause) (s : State) : (raise e s).err = if s.phase = .error then s.err else e := rfl
@[simp] theorem raise_h (e : ErrCause) (s : State) : (raise e s).h = s.h := rfl
@[simp] theorem raise_buf (e : ErrCause) (s : State) : (raise e s).buf = s.buf := rfl
@[simp] theorem raise_cur (e : ErrCause) (s : State) : (raise e s).cur = s.cur := rfl
@[simp] theorem raise_len (e : ErrCause) (s : State) : (raise e s).len = s.len := rfl
@[simp] theorem raise_out (e : ErrCause) (s : State) : (raise e s).out = s.out := rfl
@[simp] theorem raise_wideVariants (e : ErrCause) (s : State) : (raise e s).wideVariants = s.wideVariants := rfl
@[simp] theorem raise_port (e : ErrCause) (s : State) : (raise e s).port = s.port := rfl
@[simp] theorem raise_response (e : ErrCause) (s : State) : (raise e s).response = some ⟨true, statusWord (enterError e s)⟩ := rfl

/-! ### `raiseConfig` -/

@[simp] theorem raiseConfig_cfgv (s : State) : (raiseConfig s).cfgv = false := rfl
@[simp] theorem raiseConfig_alg (s : State) : (raiseConfig s).alg = 0 := rfl
@[simp] theorem raiseConfig_phase (s : State) : (raiseConfig s).phase = .error := rfl
@[simp] theorem raiseConfig_err (s : State) : (raiseConfig s).err = .config := rfl
@[simp] theorem raiseConfig_h (s : State) : (raiseConfig s).h = s.h := rfl
@[simp] theorem raiseConfig_buf (s : State) : (raiseConfig s).buf = s.buf := rfl
@[simp] theorem raiseConfig_cur (s : State) : (raiseConfig s).cur = s.cur := rfl
@[simp] theorem raiseConfig_len (s : State) : (raiseConfig s).len = s.len := rfl
@[simp] theorem raiseConfig_out (s : State) : (raiseConfig s).out = s.out := rfl
@[simp] theorem raiseConfig_wideVariants (s : State) : (raiseConfig s).wideVariants = s.wideVariants := rfl
@[simp] theorem raiseConfig_port (s : State) : (raiseConfig s).port = s.port := rfl
@[simp] theorem raiseConfig_response (s : State) : (raiseConfig s).response = some ⟨true, statusWord { s with cfgv := false, alg := 0, phase := .error, err := .config }⟩ := rfl

/-! ### `bindAlg` -/

@[simp] theorem bindAlg_cfgv (a : BitVec 4) (s : State) : (bindAlg a s).cfgv = true := rfl
@[simp] theorem bindAlg_alg (a : BitVec 4) (s : State) : (bindAlg a s).alg = a := rfl
@[simp] theorem bindAlg_phase (a : BitVec 4) (s : State) : (bindAlg a s).phase = s.phase := rfl
@[simp] theorem bindAlg_err (a : BitVec 4) (s : State) : (bindAlg a s).err = s.err := rfl
@[simp] theorem bindAlg_h (a : BitVec 4) (s : State) : (bindAlg a s).h = s.h := rfl
@[simp] theorem bindAlg_buf (a : BitVec 4) (s : State) : (bindAlg a s).buf = s.buf := rfl
@[simp] theorem bindAlg_cur (a : BitVec 4) (s : State) : (bindAlg a s).cur = s.cur := rfl
@[simp] theorem bindAlg_len (a : BitVec 4) (s : State) : (bindAlg a s).len = s.len := rfl
@[simp] theorem bindAlg_out (a : BitVec 4) (s : State) : (bindAlg a s).out = s.out := rfl
@[simp] theorem bindAlg_wideVariants (a : BitVec 4) (s : State) : (bindAlg a s).wideVariants = s.wideVariants := rfl
@[simp] theorem bindAlg_port (a : BitVec 4) (s : State) : (bindAlg a s).port = s.port := rfl
@[simp] theorem bindAlg_response (a : BitVec 4) (s : State) : (bindAlg a s).response = s.response := rfl

/-! ### `makeVirgin` -/

@[simp] theorem makeVirgin_cfgv (D : Descriptor) (s : State) : (makeVirgin D s).cfgv = s.cfgv := rfl
@[simp] theorem makeVirgin_alg (D : Descriptor) (s : State) : (makeVirgin D s).alg = s.alg := rfl
@[simp] theorem makeVirgin_phase (D : Descriptor) (s : State) : (makeVirgin D s).phase = .active := rfl
@[simp] theorem makeVirgin_err (D : Descriptor) (s : State) : (makeVirgin D s).err = .none := rfl
@[simp] theorem makeVirgin_h (D : Descriptor) (s : State) : (makeVirgin D s).h = D.iv := rfl
@[simp] theorem makeVirgin_buf (D : Descriptor) (s : State) : (makeVirgin D s).buf = Vector.replicate 128 0 := rfl
@[simp] theorem makeVirgin_cur (D : Descriptor) (s : State) : (makeVirgin D s).cur = 0 := rfl
@[simp] theorem makeVirgin_len (D : Descriptor) (s : State) : (makeVirgin D s).len = 0 := rfl
@[simp] theorem makeVirgin_out (D : Descriptor) (s : State) : (makeVirgin D s).out = Vector.replicate 64 0 := rfl
@[simp] theorem makeVirgin_wideVariants (D : Descriptor) (s : State) : (makeVirgin D s).wideVariants = s.wideVariants := rfl
@[simp] theorem makeVirgin_port (D : Descriptor) (s : State) : (makeVirgin D s).port = s.port := rfl
@[simp] theorem makeVirgin_response (D : Descriptor) (s : State) : (makeVirgin D s).response = s.response := rfl

/-! ### `powerOnReset` -/

@[simp] theorem powerOnReset_cfgv (s : State) : (powerOnReset s).cfgv = false := rfl
@[simp] theorem powerOnReset_alg (s : State) : (powerOnReset s).alg = 0 := rfl
@[simp] theorem powerOnReset_phase (s : State) : (powerOnReset s).phase = .unconf := rfl
@[simp] theorem powerOnReset_err (s : State) : (powerOnReset s).err = .none := rfl
@[simp] theorem powerOnReset_h (s : State) : (powerOnReset s).h = 0 := rfl
@[simp] theorem powerOnReset_buf (s : State) : (powerOnReset s).buf = Vector.replicate 128 0 := rfl
@[simp] theorem powerOnReset_cur (s : State) : (powerOnReset s).cur = 0 := rfl
@[simp] theorem powerOnReset_len (s : State) : (powerOnReset s).len = 0 := rfl
@[simp] theorem powerOnReset_out (s : State) : (powerOnReset s).out = Vector.replicate 64 0 := rfl
@[simp] theorem powerOnReset_wideVariants (s : State) : (powerOnReset s).wideVariants = s.wideVariants := rfl
@[simp] theorem powerOnReset_port (s : State) : (powerOnReset s).port = s.port := rfl
@[simp] theorem powerOnReset_response (s : State) : (powerOnReset s).response = none := rfl

/-! ### `fifoPush` -/

@[simp] theorem fifoPush_cfgv (d : Byte) (s : State) : (fifoPush d s).cfgv = s.cfgv := rfl
@[simp] theorem fifoPush_alg (d : Byte) (s : State) : (fifoPush d s).alg = s.alg := rfl
@[simp] theorem fifoPush_phase (d : Byte) (s : State) : (fifoPush d s).phase = s.phase := rfl
@[simp] theorem fifoPush_err (d : Byte) (s : State) : (fifoPush d s).err = s.err := rfl
@[simp] theorem fifoPush_h (d : Byte) (s : State) : (fifoPush d s).h = s.h := rfl
@[simp] theorem fifoPush_buf (d : Byte) (s : State) : (fifoPush d s).buf = s.buf.setIfInBounds s.cur.toNat d := rfl
@[simp] theorem fifoPush_cur (d : Byte) (s : State) : (fifoPush d s).cur = s.cur + 1 := rfl
@[simp] theorem fifoPush_len (d : Byte) (s : State) : (fifoPush d s).len = s.len := rfl
@[simp] theorem fifoPush_out (d : Byte) (s : State) : (fifoPush d s).out = s.out := rfl
@[simp] theorem fifoPush_wideVariants (d : Byte) (s : State) : (fifoPush d s).wideVariants = s.wideVariants := rfl
@[simp] theorem fifoPush_port (d : Byte) (s : State) : (fifoPush d s).port = s.port := rfl
@[simp] theorem fifoPush_response (d : Byte) (s : State) : (fifoPush d s).response = s.response := rfl

/-! ### `dispatchBlock` -/

@[simp] theorem dispatchBlock_cfgv (D : Descriptor) (s : State) : (dispatchBlock D s).cfgv = s.cfgv := rfl
@[simp] theorem dispatchBlock_alg (D : Descriptor) (s : State) : (dispatchBlock D s).alg = s.alg := rfl
@[simp] theorem dispatchBlock_phase (D : Descriptor) (s : State) : (dispatchBlock D s).phase = s.phase := rfl
@[simp] theorem dispatchBlock_err (D : Descriptor) (s : State) : (dispatchBlock D s).err = s.err := rfl
@[simp] theorem dispatchBlock_h (D : Descriptor) (s : State) : (dispatchBlock D s).h = compress D s.h (fifoBlock D s) (s.len + BitVec.ofNat 64 (8 * D.bs)) := rfl
@[simp] theorem dispatchBlock_buf (D : Descriptor) (s : State) : (dispatchBlock D s).buf = s.buf := rfl
@[simp] theorem dispatchBlock_cur (D : Descriptor) (s : State) : (dispatchBlock D s).cur = 0 := rfl
@[simp] theorem dispatchBlock_len (D : Descriptor) (s : State) : (dispatchBlock D s).len = s.len + BitVec.ofNat 64 (8 * D.bs) := rfl
@[simp] theorem dispatchBlock_out (D : Descriptor) (s : State) : (dispatchBlock D s).out = s.out := rfl
@[simp] theorem dispatchBlock_wideVariants (D : Descriptor) (s : State) : (dispatchBlock D s).wideVariants = s.wideVariants := rfl
@[simp] theorem dispatchBlock_port (D : Descriptor) (s : State) : (dispatchBlock D s).port = s.port := rfl
@[simp] theorem dispatchBlock_response (D : Descriptor) (s : State) : (dispatchBlock D s).response = s.response := rfl

/-! ### `storeDigest` -/

@[simp] theorem storeDigest_cfgv (D : Descriptor) (s : State) : (storeDigest D s).cfgv = s.cfgv := rfl
@[simp] theorem storeDigest_alg (D : Descriptor) (s : State) : (storeDigest D s).alg = s.alg := rfl
@[simp] theorem storeDigest_phase (D : Descriptor) (s : State) : (storeDigest D s).phase = .done := rfl
@[simp] theorem storeDigest_err (D : Descriptor) (s : State) : (storeDigest D s).err = s.err := rfl
@[simp] theorem storeDigest_h (D : Descriptor) (s : State) : (storeDigest D s).h = s.h := rfl
@[simp] theorem storeDigest_buf (D : Descriptor) (s : State) : (storeDigest D s).buf = s.buf := rfl
@[simp] theorem storeDigest_cur (D : Descriptor) (s : State) : (storeDigest D s).cur = s.cur := rfl
@[simp] theorem storeDigest_len (D : Descriptor) (s : State) : (storeDigest D s).len = s.len := rfl
@[simp] theorem storeDigest_out (D : Descriptor) (s : State) : (storeDigest D s).out = writeOut s.out (digestBytes D s) := rfl
@[simp] theorem storeDigest_wideVariants (D : Descriptor) (s : State) : (storeDigest D s).wideVariants = s.wideVariants := rfl
@[simp] theorem storeDigest_port (D : Descriptor) (s : State) : (storeDigest D s).port = s.port := rfl
@[simp] theorem storeDigest_response (D : Descriptor) (s : State) : (storeDigest D s).response = s.response := rfl

end Sys2Proof.Machine
end

