-- ==== Sys2Proof/Laws/Ops.lean ====
section
/-! SUPPORT. What each shared operation and each command can do, said once: an inversion lemma per command, and the
lemmas of the byte stores and of the ports. -/

namespace Sys2Proof.Machine

/-! ### The ports -/

theorem nextEvent_nil {s : State} (h : s.port = []) : nextEvent s = none := by simp [nextEvent, h]

theorem nextEvent_cons {s : State} {e : HostEvent} {rest : List HostEvent} (h : s.port = e :: rest) :
    nextEvent s = some (e, rest) := by simp [nextEvent, h]

/-- After `respond` the response is the status after the command, with `err` set exactly in phase `ERROR` (R78). -/
theorem statusWord_respond (s : State) : statusWord (respond s) = statusWord s := rfl

/-! ### Reads through the registers' views do not depend on the ports -/

@[simp] theorem boundDescriptor_withPort (rest : List HostEvent) (s : State) :
    boundDescriptor (withPort rest s) = boundDescriptor s := rfl

@[simp] theorem boundDescriptor_respond (s : State) : boundDescriptor (respond s) = boundDescriptor s := rfl

@[simp] theorem boundDescriptor_enterError (e : ErrCause) (s : State) :
    boundDescriptor (enterError e s) = boundDescriptor s := rfl

@[simp] theorem boundDescriptor_raise (e : ErrCause) (s : State) :
    boundDescriptor (raise e s) = boundDescriptor s := rfl

@[simp] theorem boundDescriptor_fifoPush (d : Byte) (s : State) :
    boundDescriptor (fifoPush d s) = boundDescriptor s := rfl

@[simp] theorem boundDescriptor_dispatchBlock (D : Descriptor) (s : State) :
    boundDescriptor (dispatchBlock D s) = boundDescriptor s := rfl

@[simp] theorem boundDescriptor_storeDigest (D : Descriptor) (s : State) :
    boundDescriptor (storeDigest D s) = boundDescriptor s := rfl

/-- Once bound, the code is read back as the operand named it. -/
@[simp] theorem boundDescriptor_makeVirgin_bindAlg (D : Descriptor) (a : BitVec 4) (s : State) :
    boundDescriptor (makeVirgin D (bindAlg a s)) = operandDescriptor s a := rfl

/-! ### The byte stores -/

/-- The bytes of a register written from a byte string. -/
@[simp] theorem toList_toRegister (n : Nat) (bs : Bytes) : (toRegister n bs).toList = fitBytes n bs := rfl

/-- A byte string of at least `n` bytes fits by dropping the rest. -/
theorem fitBytes_eq_take {n : Nat} {bs : Bytes} (h : n ≤ bs.length) : fitBytes n bs = bs.take n := by
  induction n generalizing bs with
  | zero => simp [fitBytes]
  | succ n ih =>
    cases bs with
    | nil => simp at h
    | cons b bs => simp [fitBytes, ih (bs := bs) (by simpa using h)]

/-- `OUT` after `OUT[0..k) <- bytes`: the bytes, then what it held (R95). -/
theorem toList_writeOut (out : Vector Byte 64) {bytes : Bytes} (h : bytes.length ≤ 64) :
    (writeOut out bytes).toList = bytes ++ out.toList.drop bytes.length := by
  have hlen : (bytes ++ out.toList.drop bytes.length).length = 64 := by simp; omega
  rw [writeOut, toList_toRegister, fitBytes_eq_take (by omega), List.take_of_length_le (by omega)]

/-- The push writes one byte of `BUF` (R141). -/
theorem bufByte_fifoPush (d : Byte) (s : State) (i : Nat) (h : s.cur.toNat < 128) :
    bufByte (fifoPush d s) i = if i = s.cur.toNat then d else bufByte s i := by
  simp only [bufByte, fifoPush_buf, List.getD_eq_getElem?_getD, Vector.toList, Vector.setIfInBounds]
  by_cases hi : i = s.cur.toNat
  · subst hi; simp [h]
  · simp [hi, Ne.symm hi]

/-! ### What an accepted byte does -/

/-- `UPDATE` either stores the byte, or stores it and dispatches the block it fills (R94). -/
theorem acceptByte_cases (D : Descriptor) (d : Byte) (s : State) :
    (fullFlag D (fifoPush d s) = false ∧ acceptByte D d s = fifoPush d s) ∨
    (fullFlag D (fifoPush d s) = true ∧ acceptByte D d s = dispatchBlock D (fifoPush d s)) := by
  cases h : fullFlag D (fifoPush d s) <;> simp [acceptByte, h]

/-! ### What each command can do -/

/-- `INIT` binds a named descriptor and enters its virgin state, or raises `E_CONFIG` (R91). -/
theorem execInit_cases {a : BitVec 4} {s : State} {o : Result} (h : execInit a s = o) :
    (operandDescriptor s a = none ∧ o = .next (raiseConfig s)) ∨
    (∃ D, operandDescriptor s a = some D ∧ o = .next (respond (makeVirgin D (bindAlg a s)))) := by
  subst h
  cases hd : operandDescriptor s a with
  | none => exact .inl ⟨rfl, by simp [execInit, hd]⟩
  | some D => exact .inr ⟨D, rfl, by simp [execInit, hd]⟩

/-- `RESET` raises `E_MISUSE` with no descriptor bound, and re-arms the bound one otherwise (R93). -/
theorem execReset_cases {s : State} {o : Result} (h : execReset s = o) :
    (s.cfgv = false ∧ o = .next (raise .misuse s)) ∨
    (s.cfgv = true ∧ boundDescriptor s = none ∧ o = .fault .noDescriptor) ∨
    (∃ D, s.cfgv = true ∧ boundDescriptor s = some D ∧ o = .next (respond (makeVirgin D s))) := by
  subst h
  cases hc : s.cfgv with
  | false => exact .inl ⟨rfl, by simp [execReset, hc]⟩
  | true =>
    cases hd : boundDescriptor s with
    | none => exact .inr (.inl ⟨rfl, rfl, by simp [execReset, hc, hd]⟩)
    | some D => exact .inr (.inr ⟨D, rfl, rfl, by simp [execReset, hc, hd]⟩)

/-- `UPDATE`: ignored in `ERROR`, misuse in `UNCONF` and `DONE`; in `ACTIVE` the length check, then the byte (R94). -/
theorem execUpdate_cases {d : BitVec 8} {s : State} {o : Result} (h : execUpdate d s = o) :
    (s.phase = .error ∧ o = .next (ignoreCommand s)) ∨
    ((s.phase = .unconf ∨ s.phase = .done) ∧ o = .next (raise .misuse s)) ∨
    (s.phase = .active ∧ lengthExhausted s = true ∧ o = .next (raise .lenovf s)) ∨
    (s.phase = .active ∧ lengthExhausted s = false ∧ boundDescriptor s = none ∧ o = .fault .noDescriptor) ∨
    (∃ D, s.phase = .active ∧ lengthExhausted s = false ∧ boundDescriptor s = some D ∧
      ¬ s.cur.toNat < D.bs ∧ o = .fault .cursorOutOfRange) ∨
    (∃ D, s.phase = .active ∧ lengthExhausted s = false ∧ boundDescriptor s = some D ∧
      s.cur.toNat < D.bs ∧ o = .next (respond (acceptByte D d s))) := by
  subst h
  cases hp : s.phase with
  | error => exact .inl ⟨rfl, by simp [execUpdate, hp]⟩
  | unconf => exact .inr (.inl ⟨.inl rfl, by simp [execUpdate, hp]⟩)
  | done => exact .inr (.inl ⟨.inr rfl, by simp [execUpdate, hp]⟩)
  | active =>
    refine .inr (.inr ?_)
    cases hl : lengthExhausted s with
    | true => exact .inl ⟨rfl, rfl, by simp [execUpdate, updateActive, hp, hl]⟩
    | false =>
      cases hd : boundDescriptor s with
      | none => exact .inr (.inl ⟨rfl, rfl, rfl, by simp [execUpdate, updateActive, hp, hl, hd]⟩)
      | some D =>
        by_cases hc : s.cur.toNat < D.bs
        · exact .inr (.inr (.inr ⟨D, rfl, rfl, rfl, hc, by simp [execUpdate, updateActive, hp, hl, hd, hc]⟩))
        · exact .inr (.inr (.inl ⟨D, rfl, rfl, rfl, hc, by simp [execUpdate, updateActive, hp, hl, hd, hc]⟩))

/-- `DIGEST`: ignored in `ERROR`, misuse in `UNCONF` and `DONE`; in `ACTIVE` it stores the digest (R95). -/
theorem execDigest_cases {s : State} {o : Result} (h : execDigest s = o) :
    (s.phase = .error ∧ o = .next (ignoreCommand s)) ∨
    ((s.phase = .unconf ∨ s.phase = .done) ∧ o = .next (raise .misuse s)) ∨
    (s.phase = .active ∧ boundDescriptor s = none ∧ o = .fault .noDescriptor) ∨
    (∃ D, s.phase = .active ∧ boundDescriptor s = some D ∧ ¬ s.cur.toNat < D.bs ∧
      o = .fault .cursorOutOfRange) ∨
    (∃ D, s.phase = .active ∧ boundDescriptor s = some D ∧ s.cur.toNat < D.bs ∧
      o = .next (respond (storeDigest D s))) := by
  subst h
  cases hp : s.phase with
  | error => exact .inl ⟨rfl, by simp [execDigest, hp]⟩
  | unconf => exact .inr (.inl ⟨.inl rfl, by simp [execDigest, hp]⟩)
  | done => exact .inr (.inl ⟨.inr rfl, by simp [execDigest, hp]⟩)
  | active =>
    refine .inr (.inr ?_)
    cases hd : boundDescriptor s with
    | none => exact .inl ⟨rfl, rfl, by simp [execDigest, digestActive, hp, hd]⟩
    | some D =>
      by_cases hc : s.cur.toNat < D.bs
      · exact .inr (.inr ⟨D, rfl, rfl, hc, by simp [execDigest, digestActive, hp, hd, hc]⟩)
      · exact .inr (.inl ⟨D, rfl, rfl, hc, by simp [execDigest, digestActive, hp, hd, hc]⟩)

/-- `RDOUT`: ignored in `ERROR`, misuse in `UNCONF` and `ACTIVE`; in `DONE` the index check, then the byte (R96). -/
theorem execRdout_cases {d : BitVec 8} {s : State} {o : Result} (h : execRdout d s = o) :
    (s.phase = .error ∧ o = .next (ignoreCommand s)) ∨
    ((s.phase = .unconf ∨ s.phase = .active) ∧ o = .next (raise .misuse s)) ∨
    (s.phase = .done ∧ boundDescriptor s = none ∧ o = .fault .noDescriptor) ∨
    (∃ D, s.phase = .done ∧ boundDescriptor s = some D ∧ indexInDigest D d = false ∧
      o = .next (raise .illcmd s)) ∨
    (∃ D, s.phase = .done ∧ boundDescriptor s = some D ∧ indexInDigest D d = true ∧
      o = .next (respondByte (outByte s d.toNat) s)) := by
  subst h
  cases hp : s.phase with
  | error => exact .inl ⟨rfl, by simp [execRdout, hp]⟩
  | unconf => exact .inr (.inl ⟨.inl rfl, by simp [execRdout, hp]⟩)
  | active => exact .inr (.inl ⟨.inr rfl, by simp [execRdout, hp]⟩)
  | done =>
    refine .inr (.inr ?_)
    cases hd : boundDescriptor s with
    | none => exact .inl ⟨rfl, rfl, by simp [execRdout, rdoutDone, hp, hd]⟩
    | some D =>
      cases hc : indexInDigest D d with
      | false => exact .inr (.inl ⟨D, rfl, rfl, hc, by simp [execRdout, rdoutDone, hp, hd, hc]⟩)
      | true => exact .inr (.inr ⟨D, rfl, rfl, hc, by simp [execRdout, rdoutDone, hp, hd, hc]⟩)

/-- A reserved word raises `E_ILLCMD`, and in phase `ERROR` is ignored (R285, R286). -/
theorem reservedWord_cases (s : State) :
    (s.phase = .error ∧ reservedWord s = ignoreCommand s) ∨
    (s.phase ≠ .error ∧ reservedWord s = raise .illcmd s) := by
  by_cases h : s.phase = .error <;> simp [reservedWord, h]

end Sys2Proof.Machine
end

