-- ==== Sys2Proof/Laws/PerInstr.lean ====
section
/-! SUPPORT. Facts about the commands as syntax, one lemma per constructor. -/

namespace Sys2Proof.Laws.FieldsWellFormed

/-- The fields that stand for the command have an assigned opcode and zero must-be-zero fields (R72, R76). -/
def Statement (i : Instr) : Prop := i.wellFormed = true

theorem init (a : BitVec 4) : Statement (.init a) := rfl
theorem reset : Statement .reset := rfl
theorem update (d : BitVec 8) : Statement (.update d) := rfl
theorem digest : Statement .digest := rfl
theorem rdout (d : BitVec 8) : Statement (.rdout d) := rfl
theorem rdstat : Statement .rdstat := rfl

end Sys2Proof.Laws.FieldsWellFormed
end

