-- ==== Sys2Proof/Laws/Step.lean ====
section
/-! SUPPORT. What a step can do: one inversion lemma, and where the host's command word goes. -/

namespace Sys2Proof.Machine

/-- A step is idle, runs a decoded command, processes a reserved word, or applies power-on reset. -/
theorem step_cases {s : State} {o : Host.Outcome State Fault Refusal} (h : step s = o) :
    (s.port = [] ∧ o = .next s) ∨
    (∃ w rest i, s.port = .command w :: rest ∧ decode w = .ok i ∧ o = exec i (withPort rest s)) ∨
    (∃ w rest r, s.port = .command w :: rest ∧ decode w = .error r ∧
      o = .next (reservedWord (withPort rest s))) ∨
    (∃ c rest, s.port = .powerOn c :: rest ∧ o = .next (powerOnReset (withPort rest s))) := by
  subst h
  cases hp : s.port with
  | nil => exact .inl ⟨rfl, by simp [step, nextEvent, hp]⟩
  | cons e rest =>
    cases e with
    | command w =>
      cases hd : decode w with
      | ok i => exact .inr (.inl ⟨w, rest, i, rfl, hd, by simp [step, nextEvent, hp, runWord, hd]⟩)
      | error r => exact .inr (.inr (.inl ⟨w, rest, r, rfl, hd, by simp [step, nextEvent, hp, runWord, hd]⟩))
    | powerOn c => exact .inr (.inr (.inr ⟨c, rest, rfl, by simp [step, nextEvent, hp]⟩))

/-- The step after `withFetchWord` runs the command its word decodes to, on the state as it was. -/
theorem step_withFetchWord {s : State} {nbits w : Nat} {i : Instr}
    (h : decode (BitVec.ofNat 16 (w % 2 ^ nbits)) = .ok i) : step (s.withFetchWord nbits w) = exec i s := by
  cases s
  simp [step, nextEvent, State.withFetchWord, runWord, h, withPort]

end Sys2Proof.Machine
end

