-- ==== Sys2Proof/Tests/Slice0.lean ====
section
/-! SUPPORT. Tests.  Every expected value is the spec's: `V<n>` and `P<n>` are entries of `95_test_vectors.md`, `R<n>` the
example of a rule.  The theorems named `witness_…` show, for each statement with hypotheses, a state and operands that
meet them all. -/

set_option Elab.async false

namespace Sys2Proof.Tests

open Sys2Proof.Machine Sys2Proof.Safety

/-! ### Helpers -/

/-- A bound descriptor in a given phase, with the given cursor and length. -/
def boundState (a : BitVec 4) (phase : Phase) (cur : BitVec 8) (len : BitVec 64) : State :=
  { State.reset with cfgv := true, alg := a, phase := phase, cur := cur, len := len }

/-- An instance in phase `ERROR` with a descriptor bound. -/
def errorState (a : BitVec 4) (e : ErrCause) (cur : BitVec 8) : State :=
  { boundState a .error cur 0 with err := e }

/-- The state a command leaves, the given one if it stops. -/
def after (o : Result) (s : State) : State :=
  match o with
  | .next t => t
  | .fault _ => s
  | .refused _ => s

/-- The response a command leaves, none if it stops. -/
def answer (o : Result) : Option Response :=
  match o with
  | .next t => t.response
  | .fault _ => none
  | .refused _ => none

/-- What `STATUS` does not show and the counters: `PHASE`, `ERR`, `CUR`, `LEN`. -/
def counters (o : Result) : Option (Phase × ErrCause × Nat × Nat) :=
  match o with
  | .next t => some (t.phase, t.err, t.cur.toNat, t.len.toNat)
  | .fault _ => none
  | .refused _ => none

/-- A byte string from a number in hexadecimal. -/
def hexString (n x : Nat) : Bytes := encBE (8 * n) x

/-! ### WellFormed -/

theorem test_wellFormed_refuses_opcode_zero : (⟨0, 0, 0⟩ : Fields).wellFormed = false := by decide
theorem test_wellFormed_refuses_opcode_seven : (⟨7, 0, 0⟩ : Fields).wellFormed = false := by decide
theorem test_wellFormed_refuses_format_I_D : (⟨1, 4, 1⟩ : Fields).wellFormed = false := by decide
theorem test_wellFormed_refuses_format_B_A : (⟨3, 1, 0x61⟩ : Fields).wellFormed = false := by decide
theorem test_wellFormed_refuses_format_Z_A : (⟨2, 1, 0⟩ : Fields).wellFormed = false := by decide
theorem test_wellFormed_refuses_format_Z_D : (⟨4, 0, 1⟩ : Fields).wellFormed = false := by decide

/-! ### Decode: words written out bit by bit from R71 and R74 (OP, A, D) -/

theorem test_decode_init : decode 0b0001_1101_00000000#16 = .ok (.init 13) := by decide
theorem test_decode_init_reserved_code : decode 0b0001_1100_00000000#16 = .ok (.init 12) := by decide
theorem test_decode_reset : decode 0b0010_0000_00000000#16 = .ok .reset := by decide
theorem test_decode_update : decode 0b0011_0000_11001100#16 = .ok (.update 0xCC) := by decide
theorem test_decode_digest : decode 0b0100_0000_00000000#16 = .ok .digest := by decide
theorem test_decode_rdout : decode 0b0101_0000_00111111#16 = .ok (.rdout 63) := by decide
theorem test_decode_rdstat : decode 0b0110_0000_00000000#16 = .ok .rdstat := by decide

/-- V103, V105, V107, V109, V113 to V115. -/
theorem test_decode_reserved :
    decode 0x1401 = .error (.fieldD 1) ∧ decode 0x2100 = .error (.fieldA 2) ∧ decode 0x3161 = .error (.fieldA 3) ∧
      decode 0x4001 = .error (.fieldD 4) ∧ decode 0x6001 = .error (.fieldD 6) ∧ decode 0x0000 = .error (.opcode 0) ∧
      decode 0x7000 = .error (.opcode 7) ∧ decode 0xF123 = .error (.opcode 15) := by decide

theorem test_decodeTableWord : decodeTableWord 16 0x503F = some (.rdout 63) ∧ decodeTableWord 16 0x7000 = none := by
  decide

/-! ### Primitives (V10 to V19) -/

theorem test_V10 : dec32LE [1, 2, 3, 4] = 0x04030201 ∧ enc32LE 0x01020304 = [4, 3, 2, 1] := by decide
theorem test_V11 :
    enc64LE 8 = hexString 8 0x0800000000000000 ∧ encBE 64 1 = hexString 8 1 ∧ encBE 128 8 = hexString 16 8 ∧
      encBE 16 224 = [0x00, 0xe0] ∧ enc16LE 256 = [0x00, 0x01] := by decide
theorem test_V12 :
    rotl 0x80000001#32 1 = 3 ∧ rotl 0x12345678#32 0 = 0x12345678 ∧ rotl 0x12345678#32 31 = 0x091a2b3c ∧
      rotl 0x8000000000000001#64 1 = 3 ∧ rotl 0x0123456789abcdef#64 32 = 0x89abcdef01234567 := by decide
theorem test_V13 :
    shl 0xffffffff#32 4 = 0xfffffff0 ∧ shr 0xffffffff#32 4 = 0x0fffffff ∧
      shl 0xffffffffffffffff#64 8 = 0xffffffffffffff00 ∧ shr 0x8000000000000000#64 63 = 1 := by decide
theorem test_V15 :
    xtime 0x57 = 0xae ∧ xtime 0x80 = 0x1b ∧ xtime 0xae = 0x47 ∧ gmul 0x57 0x83 = 0xc1 ∧ gmul 0x57 0x13 = 0xfe ∧
      gmul 2 0xff = 0xe5 ∧ gmul 7 0xff = 0xcb := by decide
theorem test_V16 :
    sbox 0x00 = 0x63 ∧ sbox 0x01 = 0x7c ∧ sbox 0x53 = 0xed ∧ sbox 0x80 = 0xcd ∧ sbox 0xff = 0x16 := by decide
theorem test_V18 :
    aesRound [0x03020100, 0x07060504, 0x0b0a0908, 0x0f0e0d0c] = [0x455c6a6a, 0x51336d2c, 0x615dd9b0, 0x5c219c27] := by
  decide +kernel
theorem test_V19 :
    bits [0x80, 0x01] =
        [true, false, false, false, false, false, false, false, false, false, false, false, false, false, false, true] ∧
      nibbles [0xa5, 0x3c] = [10, 5, 3, 12] := by decide

/-! ### The families -/

/-- V26: `s0 .. s5` for both word widths. -/
theorem test_bmw_S :
    ((List.range 6).map fun k => bmwS k 0x12345678#32) =
        [0x083d6edf, 0x499410e5, 0x95a650e1, 0x6526cfab, 0x1b2e7d44, 0x16b943e6] ∧
      ((List.range 6).map fun k => bmwS k 0x0123456789abcdef#64) =
        [0x2ec66217375ffb8e, 0x32df3e1181ec0d22, 0x94d232a032b454c6, 0x04566232089aaefe, 0x01b2e7d44d7e2b18,
          0x016b943e6bc13e94] := by decide +kernel

/-- V29: one compression with 64-bit words. -/
theorem test_bmw_compress_wide :
    bmwCompress (bmwIV 64 0x00) (0x80 :: List.replicate 15 0) =
      [0xadb2e05872563ab0, 0x801e9de8ba53ed71, 0x959039a932a2fb84, 0x7493417fce14f9e0, 0x6dc3cb13fc8cc2aa,
        0x79be764a7c3cb25e, 0x4a85f75681520f43, 0xdb8fd1a51fb7e1e9, 0x1fb4a575a34f33a0, 0x1ea322a5348431fc,
        0xa8343f5ad364fc7a, 0xdddc0c5db8008d96, 0x69262e2cebf246ad, 0x23c2e5c4adea113d, 0x1a14ecdeda6c29af,
        0x9d42833f79262242] := by decide +kernel

/-- R200: the first round of the permutation `P` on the example's input. -/
theorem test_groestl_round :
    groestlFromMatrix (groestlRound 8 .p (groestlToMatrix 8 ([0x80] ++ zeros 62 ++ [0xe1])) 0) =
      hexString 64
        0x0e03338ddf9d61cfecd79e459e3745ec16bf0cc20cd8c2166b8b450c45220c6b71a87c1b7c161b71c53555f55565f5c5d891ec6bec5f6bd8c13b5ff35f6df3c1 := by
  decide +kernel

/-- V30: `JH.L`, and `JH.ROUND_d` for `d` = 2 and 3. -/
theorem test_jh_round :
    ([((0 : Nibble), (0 : Nibble)), (1, 0), (0, 1), (15, 15), (9, 3)].map fun p => jhL p.1 p.2) =
        [(0, 0), (5, 2), (2, 1), (11, 2), (13, 2)] ∧
      jhRound [1, 2, 3, 4] [false, true, false, true] = [12, 0, 11, 6] ∧
      jhRound [0, 1, 2, 3, 4, 5, 6, 7] (List.replicate 8 false) = [11, 3, 7, 9, 2, 1, 2, 5] := by decide

/-- V32: the places of three single bits. -/
theorem test_jh_group :
    jhGroup (1#1024 <<< 1023) = 8 :: List.replicate 255 0 ∧
      jhGroup (1#1024 <<< 895) = 0 :: 8 :: List.replicate 254 0 ∧
      jhGroup 1#1024 = List.replicate 255 0 ++ [1] := by decide +kernel

/-- R228, R229: every constant of the ROM is one `JH.CONST` step after the one before it. -/
theorem test_jh_constants :
    jhConstants.head? = some jhSeed ∧
      (jhConstants.dropLast.map fun c => jhNextConst (jhConstNibbles c)) = jhConstants.tail.map jhConstNibbles := by
  decide +kernel

/-- V35: both words of the counter are used. -/
theorem test_shavite_counter :
    shaviteC256 (List.replicate 8 0) (zeros 64) 0x0000000100000200 =
      [0x4c47ae67, 0x806bdad5, 0xc2f726e2, 0xbb0bd039, 0xfcf273f4, 0xb568a189, 0x6c889e29, 0xe853caf3] := by
  decide +kernel

/-- V1: BMW-224 of the empty message. -/
theorem test_V1_bmw224 :
    (descriptorOf true 0).map (fun D => finalize D D.iv [] 0) =
      some (hexString 28 0xe57c183da7e2cd3e90258ca04499b222420f9b6797bbab131b4d286e) := by decide +kernel

/-- V2: Groestl-224 of the empty message. -/
theorem test_V2_groestl224 :
    (descriptorOf true 4).map (fun D => finalize D D.iv [] 0) =
      some (hexString 28 0xf2e180fb5947be964cd584e22e496242c6a329c577fc4ce8c36d34c3) := by decide +kernel

/-- V3: JH-384 of the empty message. -/
theorem test_V3_jh384 :
    (descriptorOf true 10).map (fun D => finalize D D.iv [] 0) =
      some (hexString 48
        0x2fe5f71b1b3290d3c017fb3c1a4d02a5cbeb03a0476481e25082434a881994b0ff99e078d2c16b105ad069b569315328) := by
  decide +kernel

/-! ### The commands -/

/-- V118: a wide code with the parameter false. -/
theorem test_init_wide_code_absent :
    answer (exec (.init 2) { State.reset with wideVariants := false }) = some ⟨true, 0x0047⟩ := by decide
/-- V119: `E_CONFIG` in `ACTIVE` unbinds the descriptor and keeps `CUR`. -/
theorem test_init_reserved_code :
    answer (exec (.init 14) (boundState 11 .active 1 0)) = some ⟨true, 0x0007⟩ ∧
      counters (exec (.init 14) (boundState 11 .active 1 0)) = some (.error, .config, 1, 0) := by decide

/-- V124: `RESET` leaves `ERROR`. -/
theorem test_reset_leaves_error :
    counters (exec .reset (errorState 11 .misuse 1)) = some (.active, .none, 0, 0) ∧
      (after (exec .reset (errorState 11 .misuse 1)) State.reset).h = jhIV512 := by decide +kernel
/-- P3 step 1: `RESET` with no descriptor bound. -/
theorem test_reset_unbound : answer (exec .reset State.reset) = some ⟨true, 0x004F⟩ := by decide

/-- V126: the last byte below the length limit. -/
theorem test_update_below_limit :
    answer (exec (.update 0x55) (boundState 8 .active 62 (0 - 512))) = some ⟨false, 0x0821⟩ ∧
      bufByte (after (exec (.update 0x55) (boundState 8 .active 62 (0 - 512))) State.reset) 62 = 0x55 := by
  decide +kernel
/-- V127: the byte at the length limit. -/
theorem test_update_at_limit :
    answer (exec (.update 0x55) (boundState 8 .active 63 (0 - 512))) = some ⟨true, 0x082B⟩ ∧
      counters (exec (.update 0x55) (boundState 8 .active 63 (0 - 512))) =
        some (.error, .lenovf, 63, 0xFFFFFFFFFFFFFE00) := by decide +kernel

/-- V5: SHAvite-3-256 of the empty message, as the `DIGEST` after `INIT`. -/
theorem test_digest_V5 :
    (after (exec .digest { boundState 13 .active 0 0 with h := hPack shaviteIV }) State.reset).out.toList =
      hexString 32 0x08c5825af2e9e5947286a8fe208bd5f8c6a7c8e4da598947d7ff8eda0fcd2bd7 ++ zeros 32 := by decide +kernel
/-- V120: a second `DIGEST`. -/
theorem test_digest_in_done : answer (exec .digest (boundState 11 .done 1 0)) = some ⟨true, 0x0B2F⟩ := by decide

/-- P3 steps 11 and 12: the last digest byte of BMW224, and the first index past it. -/
theorem test_rdout :
    answer (exec (.rdout 27) { boundState 0 .done 0 0 with out := toRegister 64 (zeros 27 ++ [0x6e]) }) =
        some ⟨false, 0x006E⟩ ∧
      answer (exec (.rdout 28) (boundState 0 .done 0 0)) = some ⟨true, 0x0073⟩ := by decide
/-- V121: `RDOUT` before `DIGEST`. -/
theorem test_rdout_in_active : answer (exec (.rdout 0) (boundState 11 .active 1 0)) = some ⟨true, 0x0B2F⟩ := by decide

/-- V116, as the first command after power-on reset. -/
theorem test_rdstat_at_reset : answer (step (State.reset.withFetchWord 16 0x6000)) = some ⟨false, 0x0040⟩ := by decide

/-- V122 and P4 step 2: a reserved word is ignored in `ERROR` and raises `E_ILLCMD` in `ACTIVE`. -/
theorem test_reserved_word :
    answer (step ((errorState 11 .misuse 1).withFetchWord 16 0x7000)) = some ⟨true, 0x0B2F⟩ ∧
      answer (step ((boundState 4 .active 0 0).withFetchWord 16 0x0000)) = some ⟨true, 0x0473⟩ := by decide

/-! ### The assembler (R79, R80) -/

theorem test_assemble :
    assemble ["INIT JH512 ; V4".toList, "UPDATE 0xcc".toList, "DIGEST".toList, "RDOUT 27".toList, "RESET".toList,
        "RDSTAT".toList, "INIT #12".toList] =
      .ok [0x1B00, 0x30CC, 0x4000, 0x501B, 0x2000, 0x6000, 0x1C00] := by decide +kernel

theorem test_assemble_hash :
    assembleLines none [.hash "BMW224" [0x61, 0x62]] =
      .ok ([0x1000, 0x3061, 0x3062, 0x4000] ++ (List.range 28).map fun i => BitVec.ofNat 16 (0x5000 + i)) := by
  decide +kernel

/-! ### Witnesses: the hypotheses of the statements can be met -/

theorem take_fitBytes (n : Nat) (bs : Bytes) (h : bs.length ≤ n) : (fitBytes n bs).take bs.length = bs := by
  induction bs generalizing n with
  | nil => simp
  | cons b bs ih =>
    cases n with
    | zero => simp at h
    | succ n => simp [fitBytes, ih n (by simpa using h)]

/-- Every valid descriptor has a block of 64 or 128 bytes. -/
theorem bs_cases {wide : Bool} {a : BitVec 4} {D : Descriptor} (h : descriptorOf wide a = some D) :
    D.bs = 64 ∨ D.bs = 128 := by
  have h := descriptorOf_mem h
  simp only [descriptorRom, List.mem_cons, Option.some.injEq, reduceCtorEq, List.not_mem_nil, or_false, false_or] at h
  rcases h with h | h | h | h | h | h | h | h | h | h | h | h | h <;> subst h <;> simp

theorem outByte_boundState (a : BitVec 4) (p : Phase) (cur : BitVec 8) (len : BitVec 64) (i : Nat) :
    outByte (boundState a p cur len) i = 0 := by
  have h : (boundState a p cur len).out.toList = List.replicate 64 0 := rfl
  rw [outByte, h, List.getD_eq_getElem?_getD, List.getElem?_replicate]
  split <;> rfl

/-- The invariant holds of a bound state with its counters in range. -/
theorem inv_boundState {a : BitVec 4} {p : Phase} {cur : BitVec 8} {len : BitVec 64} {D : Descriptor}
    (hD : descriptorOf true a = some D) (hp : p = .active ∨ p = .done) (hc : cur.toNat < D.bs)
    (hb : len.toNat % (8 * D.bs) = 0) (hm : len.toNat + 8 * cur.toNat < 2 ^ 64) : Inv (boundState a p cur len) where
  errPhase := by rcases hp with rfl | rfl <;> simp [boundState, State.reset]
  algUnbound := by simp [boundState]
  boundWhenOpen := fun _ => rfl
  unboundWhenUnconf := by rcases hp with rfl | rfl <;> simp [boundState]
  bound := fun _ => ⟨D, hD, hc, hb, hm, fun i _ => outByte_boundState a p cur len i⟩

/-- The state in which the engine has absorbed `m`. -/
def absorbedState (a : BitVec 4) (D : Descriptor) (m : Bytes) : State :=
  { boundState a .active (BitVec.ofNat 8 (m.length % D.bs)) (BitVec.ofNat 64 (8 * D.bs * fullBlocks D m)) with
    h := chainAfter D m (fullBlocks D m)
    buf := toRegister 128 (messageTail D m) }

theorem absorbed_absorbedState {a : BitVec 4} {D : Descriptor} {m : Bytes} (hD : descriptorOf true a = some D)
    (hm : 8 * m.length < 2 ^ 64) : Absorbed D m (absorbedState a D m) := by
  have hbs := bs_cases hD
  have hlt : m.length % D.bs < D.bs := Nat.mod_lt _ (by omega)
  have hdiv := Nat.div_add_mod m.length D.bs
  have hcur : (BitVec.ofNat 8 (m.length % D.bs)).toNat = m.length % D.bs := by
    rw [BitVec.toNat_ofNat]; exact Nat.mod_eq_of_lt (by omega)
  have hlen : (messageTail D m).length = m.length % D.bs := by
    simp only [messageTail, fullBlocks, List.length_drop]; omega
  constructor
  · rfl
  · rfl
  · rfl
  · exact hD
  · rfl
  · change (fitBytes 128 (messageTail D m)).take (BitVec.ofNat 8 (m.length % D.bs)).toNat = _
    rw [hcur, ← hlen, take_fitBytes _ _ (by omega)]
  · exact hcur
  · change (BitVec.ofNat 64 (8 * D.bs * fullBlocks D m)).toNat = _
    rw [BitVec.toNat_ofNat, Nat.mul_assoc]; exact Nat.mod_eq_of_lt (by simp only [fullBlocks]; omega)
  · exact hm
  · rfl

/-- Descriptors to state witnesses with. -/
theorem bound_code (a : BitVec 4) (h : (descriptorOf true a).isSome = true) : ∃ D, descriptorOf true a = some D :=
  Option.isSome_iff_exists.mp h

theorem witness_DecodeEncodeRoundTrip : (Instr.init 15).wellFormed = true ∧ (Instr.rdout 255).wellFormed = true := by
  decide
theorem witness_EncodeDecodeRoundTrip : decode 0x1F00 = .ok (.init 15) ∧ decode 0x30FF = .ok (.update 255) := by decide
theorem witness_OpcodeMapSelectsTheCommand : (⟨"INIT", 0x1000, 0xF0FF⟩ : OpcodeRow) ∈ opcodeMap := by decide

theorem witness_StepRunsTheDecodedCommand :
    ∃ (s : State) (w : CommandWord) (rest : List HostEvent) (i : Instr),
      s.port = .command w :: rest ∧ decode w = .ok i ∧ i.wellFormed = true :=
  ⟨{ State.reset with port := [.command 0x1B00, .command 0x4000] }, 0x1B00, [.command 0x4000], .init 11, rfl, rfl, rfl⟩

theorem witness_PowerOnEventLeavesResetValues :
    { boundState 11 .active 1 0 with port := [.powerOn (some 0x30CC)] }.port = .powerOn (some 0x30CC) :: [] ∧
      { boundState 11 .active 1 0 with port := [.powerOn none] }.port = .powerOn none :: [] := ⟨rfl, rfl⟩

theorem witness_EveryStepKeepsTheInvariant :
    ∃ s t : State, Inv s ∧ step s = .next t := by
  obtain ⟨D, hD⟩ := bound_code 8 (by decide)
  have hbs := bs_cases hD
  exact ⟨boundState 8 .active 63 0, boundState 8 .active 63 0,
    inv_boundState hD (.inl rfl) (by simp; omega) (by simp) (by simp), rfl⟩

theorem witness_NoStepStops : ∃ s : State, s.phase = .done ∧ Inv s := by
  obtain ⟨D, hD⟩ := bound_code 3 (by decide)
  have hbs := bs_cases hD
  exact ⟨boundState 3 .done 0 0, rfl, inv_boundState hD (.inr rfl) (by simp; omega) (by simp) (by simp)⟩

theorem witness_EveryCommandResponds :
    (∃ s t : State, exec (.rdout 27) s = .next t ∧ t.phase ≠ .error) ∧
      (∃ s t : State, exec .digest s = .next t) ∧
      ∃ (s t : State) (w : CommandWord) (rest : List HostEvent) (r : Reserved),
        s.port = .command w :: rest ∧ decode w = .error r ∧ step s = .next t :=
  ⟨⟨boundState 0 .done 0 0, _, rfl, by decide⟩, ⟨State.reset, _, rfl⟩,
    { State.reset with port := [.command 0] }, _, 0, [], .opcode 0, rfl, rfl, rfl⟩

theorem witness_InitBindsOrRaises :
    (∃ D, descriptorOf true 13 = some D) ∧ descriptorOf true 12 = none ∧ descriptorOf false 7 = none ∧
      ∃ (s : State) (D : Descriptor), s.cfgv = true ∧ boundDescriptor s = some D :=
  ⟨⟨_, rfl⟩, by decide, by decide, boundState 11 .active 1 0, _, rfl, rfl⟩

theorem witness_ResetRearmsOrRaises :
    (∃ (s : State) (D : Descriptor), s.phase = .error ∧ s.cfgv = true ∧ boundDescriptor s = some D) ∧
      (∃ s : State, s.phase = .error ∧ s.cfgv = false) ∧ State.reset.cfgv = false :=
  ⟨⟨errorState 11 .misuse 1, _, rfl, rfl, rfl⟩, ⟨{ State.reset with phase := .error, err := .misuse }, rfl, rfl⟩, rfl⟩

theorem witness_UpdateAppendsOrRaises :
    (∃ (s : State) (D : Descriptor), s.phase = .active ∧ boundDescriptor s = some D ∧ s.cur.toNat + 2 = D.bs ∧
      s.cur.toNat + 1 < D.bs ∧ s.len.toNat + 8 * (s.cur.toNat + 1) < 2 ^ 64) ∧
    (∃ (s : State) (D : Descriptor), s.phase = .active ∧ boundDescriptor s = some D ∧ s.cur.toNat + 1 = D.bs ∧
      s.len.toNat + 8 * (s.cur.toNat + 1) < 2 ^ 64) ∧
    (∃ s : State, s.phase = .active ∧ s.len.toNat + 8 * (s.cur.toNat + 1) = 2 ^ 64) ∧
    (∃ s : State, s.phase = .unconf) ∧ ∃ s : State, s.phase = .done :=
  ⟨⟨boundState 8 .active 62 (0 - 512), _, rfl, rfl, rfl, by decide, by decide⟩,
    ⟨boundState 7 .active 127 (0 - 2048), _, rfl, rfl, rfl, by decide⟩,
    ⟨boundState 8 .active 63 (0 - 512), rfl, by decide⟩, ⟨State.reset, rfl⟩, boundState 0 .done 0 0, rfl⟩

theorem witness_LengthLimit_state (a : BitVec 4) (cur : BitVec 8) (len : BitVec 64)
    (hs : (a, cur, len) = (8, 63, 0 - 512) ∨ (a, cur, len) = (7, 127, 0 - 1024)) :
    ∃ D, Inv (boundState a .active cur len) ∧ boundDescriptor (boundState a .active cur len) = some D ∧
      len.toNat + 8 * (cur.toNat + 1) ≥ 2 ^ 64 := by
  rcases hs with hs | hs <;> cases hs
  · exact ⟨_, inv_boundState (a := 8) rfl (.inl rfl) (by decide) (by decide) (by decide), rfl, by decide⟩
  · exact ⟨_, inv_boundState (a := 7) rfl (.inl rfl) (by decide) (by decide) (by decide), rfl, by decide⟩

/-- A state that has absorbed the longest message is at the length limit. -/
theorem lengthExhausted_longest {D : Descriptor} {m : Bytes} {s : State} (h : Absorbed D m s)
    (hm : m.length = 2 ^ 61 - 1) : lengthExhausted s = true := by
  have h1 := h.length
  have h2 := h.cursor
  have h3 := Nat.div_add_mod m.length D.bs
  rw [Nat.mul_assoc, fullBlocks] at h1
  exact decide_eq_true (show s.len.toNat + 8 * (s.cur.toNat + 1) ≥ 2 ^ 64 by omega)

theorem witness_LengthLimit_message :
    ∃ (D : Descriptor) (m : Bytes) (s t : State), m.length = 2 ^ 61 - 1 ∧ Absorbed D m s ∧
      exec (.update 0x55) s = .next t := by
  obtain ⟨D, hD⟩ := bound_code 8 (by decide)
  have hl : (List.replicate (2 ^ 61 - 1) (0 : Byte)).length = 2 ^ 61 - 1 := List.length_replicate
  have ha := absorbed_absorbedState hD (m := List.replicate (2 ^ 61 - 1) 0) (by rw [hl]; decide)
  have hx := lengthExhausted_longest ha hl
  refine ⟨D, _, _, raise .lenovf (absorbedState 8 D (List.replicate (2 ^ 61 - 1) 0)), hl, ha, ?_⟩
  simp only [exec, execUpdate, ha.active, updateActive, hx, if_true]

theorem witness_DigestStoresOrRaises :
    (∃ (s : State) (D : Descriptor), s.phase = .active ∧ boundDescriptor s = some D ∧ s.cur.toNat + 1 = D.bs ∧
      s.cur.toNat < D.bs) ∧
    (∃ s : State, s.phase = .unconf) ∧ ∃ s : State, s.phase = .done :=
  ⟨⟨boundState 6 .active 127 0, _, rfl, rfl, rfl, by decide⟩, ⟨State.reset, rfl⟩, boundState 0 .done 0 0, rfl⟩

theorem witness_RdoutAnswersOrRaises :
    (∃ (s : State) (D : Descriptor), s.phase = .done ∧ boundDescriptor s = some D ∧ (27 : BitVec 8).toNat < D.ob) ∧
    (∃ (s : State) (D : Descriptor), s.phase = .done ∧ boundDescriptor s = some D ∧ D.ob ≤ (28 : BitVec 8).toNat) ∧
    (∃ s : State, s.phase = .unconf) ∧ ∃ s : State, s.phase = .active :=
  ⟨⟨boundState 0 .done 0 0, _, rfl, rfl, by decide⟩, ⟨boundState 0 .done 0 0, _, rfl, rfl, by decide⟩,
    ⟨State.reset, rfl⟩, boundState 0 .active 0 0, rfl⟩

theorem witness_MisuseIsRaised :
    (∃ s : State, s.phase = .done) ∧ (∃ s : State, s.phase = .active) ∧
      (∃ s : State, s.cfgv = false ∧ s.phase ≠ .error) ∧ (∃ s : State, s.cfgv = false ∧ s.phase = .error) ∧
      (∃ s : State, s.cfgv = true ∧ s.phase = .error) ∧
      (∃ s t : State, exec .reset s = .next t ∧ t.err = .misuse ∧ s.err ≠ .misuse) ∧
      ∃ (s t : State) (w : CommandWord) (rest : List HostEvent) (r : Reserved),
        s.port = .command w :: rest ∧ decode w = .error r ∧ step s = .next t ∧ t.err = .misuse :=
  ⟨⟨boundState 0 .done 0 0, rfl⟩, ⟨boundState 0 .active 0 0, rfl⟩, ⟨State.reset, rfl, by decide⟩,
    ⟨{ State.reset with phase := .error, err := .config }, rfl, rfl⟩, ⟨errorState 0 .illcmd 0, rfl, rfl⟩,
    ⟨State.reset, _, rfl, rfl, by decide⟩,
    { errorState 11 .misuse 1 with port := [.command 0x7000] }, _, 0x7000, [], .opcode 7, rfl, rfl, rfl, rfl⟩

theorem witness_IllegalCommandIsRaised :
    (∃ (s : State) (w : CommandWord) (rest : List HostEvent) (r : Reserved),
      s.port = .command w :: rest ∧ decode w = .error r ∧ s.phase ≠ .error) ∧
    ∃ (s : State) (D : Descriptor), s.phase = .done ∧ boundDescriptor s = some D ∧ D.ob ≤ (64 : BitVec 8).toNat :=
  ⟨⟨{ State.reset with port := [.command 0x3100] }, 0x3100, [], .fieldA 3, rfl, rfl, by decide⟩,
    boundState 11 .done 0 0, _, rfl, rfl, by decide⟩

theorem witness_ErrorPhaseIgnoresCommands :
    ∃ (s : State) (w : CommandWord) (rest : List HostEvent) (r : Reserved),
      s.phase = .error ∧ s.port = .command w :: rest ∧ decode w = .error r :=
  ⟨{ errorState 11 .misuse 1 with port := [.command 0x7000] }, 0x7000, [], .opcode 7, rfl, rfl, rfl⟩

theorem witness_ErrorsArePrecise :
    (∃ t, exec (.init 12) (boundState 11 .active 1 0) = .next t ∧ t.phase = .error) ∧
      ∃ t, exec .digest (errorState 11 .misuse 1) = .next t ∧ t.phase = .error :=
  ⟨⟨_, rfl, rfl⟩, _, rfl, rfl⟩

theorem witness_LegalityTable :
    (∃ s : State, s.phase = .active ∧ Inv s) ∧ (∃ s : State, s.phase = .done ∧ Inv s) ∧
      ∃ (s : State) (w : CommandWord) (rest : List HostEvent) (r : Reserved),
        s.port = .command w :: rest ∧ decode w = .error r :=
  ⟨⟨boundState 8 .active 63 (0 - 512), rfl, inv_boundState rfl (.inl rfl) (by decide) (by decide) (by decide)⟩,
    witness_NoStepStops, { State.reset with port := [.command 0xFFFF] }, 0xFFFF, [], .opcode 15, rfl, rfl⟩

theorem witness_PhaseTransitions :
    ∃ s t : State, Inv s ∧ exec (.rdout 0) s = .next t ∧ t.phase ≠ s.phase :=
  ⟨boundState 8 .active 63 0, _, inv_boundState rfl (.inl rfl) (by decide) (by decide) (by decide), rfl, by decide⟩

theorem witness_UnconfOnlyByPowerOn :
    ∃ s t : State, s.phase = .active ∧ step s = .next t ∧ t.phase = .unconf :=
  ⟨{ boundState 8 .active 63 0 with port := [.powerOn none] }, _, rfl, rfl, rfl⟩

theorem witness_RegisterWriters :
    (∃ t, exec .rdstat (boundState 8 .active 63 0) = .next t) ∧
      ∃ t, exec (.update 0) (boundState 8 .active 0 0) = .next t := ⟨⟨_, rfl⟩, _, rfl⟩

theorem witness_ResponsesHideTheChainingState :
    ∃ t, exec (.rdout 0) (boundState 8 .done 0 0) = .next t := ⟨_, rfl⟩

theorem witness_InstancesAreIndependent :
    ∃ z, systemRun [0, 1, 0, 5] [{ State.reset with port := [.command 0x1B00] }, boundState 8 .active 0 0] = .next z :=
  ⟨_, rfl⟩

theorem witness_MessageInvariant :
    (∃ (s t : State) (D : Descriptor), descriptorOf s.wideVariants 13 = some D ∧ exec (.init 13) s = .next t) ∧
    (∃ (s t : State) (D : Descriptor), s.cfgv = true ∧ boundDescriptor s = some D ∧ exec .reset s = .next t) ∧
    (∃ (D : Descriptor) (m : Bytes) (s : State), m.length + 2 = 2 ^ 61 ∧ Absorbed D m s ∧ 8 * (m.length + 1) < 2 ^ 64) ∧
    ∃ (D : Descriptor) (m : Bytes) (s t : State), Absorbed D m s ∧ exec .rdstat s = .next t ∧ t.phase = .active := by
  obtain ⟨D, hD⟩ := bound_code 8 (by decide)
  have hl : (List.replicate (2 ^ 61 - 2) (0 : Byte)).length = 2 ^ 61 - 2 := List.length_replicate
  exact ⟨⟨State.reset, _, _, rfl, rfl⟩, ⟨errorState 8 .misuse 1, _, _, rfl, rfl, rfl⟩,
    ⟨D, _, _, by rw [hl]; decide, absorbed_absorbedState hD (by rw [hl]; decide), by rw [hl]; decide⟩,
    D, [0x61], _, _, absorbed_absorbedState hD (by decide), rfl, rfl⟩

theorem witness_DigestIsTheHashOfTheMessage : ∃ (D : Descriptor) (m : Bytes) (s : State),
    m.length + 1 = 2 ^ 61 ∧ Absorbed D m s := by
  obtain ⟨D, hD⟩ := bound_code 13 (by decide)
  have hl : (List.replicate (2 ^ 61 - 1) (0 : Byte)).length = 2 ^ 61 - 1 := List.length_replicate
  exact ⟨D, _, _, by rw [hl]; decide, absorbed_absorbedState hD (by rw [hl]; decide)⟩

theorem witness_HashCommandsAnswerTheHash : ∃ (D : Descriptor) (m : Bytes),
    descriptorOf State.reset.wideVariants 0 = some D ∧ m.length + 1 = 2 ^ 61 ∧ 8 * m.length < 2 ^ 64 := by
  have hl : (List.replicate (2 ^ 61 - 1) (0 : Byte)).length = 2 ^ 61 - 1 := List.length_replicate
  exact ⟨_, _, rfl, by rw [hl]; decide, by rw [hl]; decide⟩

theorem witness_PaddingFrame (n : Nat) (h : n = 55 ∨ n = 56 ∨ n = 63) :
    ∃ D, descriptorOf true 0 = some D ∧ (zeros n).length < D.bs := by
  rcases h with rfl | rfl | rfl <;> exact ⟨_, rfl, by decide⟩

theorem witness_DigestLength : ∃ D, descriptorOf false 13 = some D := ⟨_, rfl⟩

theorem witness_DigestIsASliceAfterThePadding :
    (∃ D, descriptorOf true 2 = some D ∧ (zeros 120).length < D.bs ∧ D.family = .bmw) ∧
    (∃ D, descriptorOf true 7 = some D ∧ (zeros 127).length < D.bs ∧ D.family = .groestl) ∧
    (∃ D, descriptorOf true 8 = some D ∧ (zeros 63).length < D.bs ∧ D.family = .jh) ∧
      ∃ D, descriptorOf true 13 = some D ∧ (zeros 54).length < D.bs ∧ D.family = .shavite :=
  ⟨⟨_, rfl, by decide, rfl⟩, ⟨_, rfl, by decide, rfl⟩, ⟨_, rfl, by decide, rfl⟩, _, rfl, by decide, rfl⟩

theorem witness_ValidCodes : ∃ D, descriptorOf false 0 = some D := ⟨_, rfl⟩
theorem witness_LittleEndianWordsRoundTrip : (zeros 4).length = 4 := by decide
theorem witness_WordsOfABlockRoundTrip :
    (zeros 64).length = 64 ∧ (zeros 128).length = 128 ∧ 15 < 16 ∧ 65535 < 2 ^ 16 ∧
      (List.replicate 16 (0 : BitVec 32)).length = 16 := by decide
theorem witness_BitAndNibbleViewsRoundTrip :
    1 < ([0x80, 0x01] : Bytes).length ∧ 7 < 8 ∧ (List.replicate 16 true).length = 8 * 2 ∧
      (List.replicate 4 (7 : Nibble)).length = 2 * 2 := by decide
theorem witness_BmwInitialValues : 15 < 16 := by decide
theorem witness_GroestlMatrixRoundTrip :
    (zeros 64).length = 8 * 8 ∧ 7 < 8 ∧ (groestlToMatrix 8 (zeros 64)).length = 8 ∧
      ∀ col, col ∈ groestlToMatrix 8 (zeros 64) → col.length = 8 := by decide
theorem witness_JhPermutationPlaces :
    2 ≤ 2 ∧ ([1, 2, 3, 4] : List Nibble).length = 2 ^ 2 ∧ 1 < 2 ^ 2 / 2 := by decide
theorem witness_JhGroupingRoundTrip : 127 < 128 ∧ 3 < 4 ∧ (List.replicate 256 (9 : Nibble)).length = 256 :=
  ⟨by decide, by decide, List.length_replicate⟩
theorem witness_ShaviteScheduleWords :
    124 ∈ [16, 20, 24, 28, 48, 52, 56, 60, 80, 84, 88, 92, 112, 116, 120, 124] ∧
      140 ∈ [32, 36, 40, 44, 64, 68, 72, 76, 96, 100, 104, 108, 128, 132, 136, 140] ∧ 3 < 4 := by decide
theorem witness_BmwFirstPipeHalf : (bmwIV 32 0x40).length = 16 ∧ (bmwCF 32).length = 16 ∧ 15 < 16 := by decide
theorem witness_BmwMixingFunctions : 15 < 16 := by decide
theorem witness_BmwExpandAppendsSixteenWords : (bmwIV 64 0x80).length = 16 ∧ 1 < 16 ∧ 15 < 16 := by decide
theorem witness_BmwFoldAndFinal : (bmwIV 32 0x00 ++ bmwCF 32).length = 32 := by decide
theorem witness_AesRoundOfColumns : 3 < 4 := by decide

theorem witness_GroestlPermutations : (zeros 64).length = 8 * 8 ∧ (zeros 128).length = 8 * 16 := by decide

theorem witness_JhRoundIsBijective :
    ((jhConstants.map jhSelectors).headD []).length = 2 ^ 8 ∧ (List.replicate (2 ^ 8) (9 : Nibble)).length = 2 ^ 8 ∧
      (List.replicate 4 true).length = 2 ^ 2 := by decide +kernel

theorem witness_ShaviteCipherIsAPermutation : shaviteIV.length = 8 := by decide

end Sys2Proof.Tests
end

section
/-! PROOFS. The descriptor ROM as a table over the codes (R9, R33, R92). -/

namespace Sys2Proof.Machine

/-- A valid code names its row of the ROM (R33, R92). -/
theorem descriptorOf_of_validAlg {wide : Bool} {a : BitVec 4} (h : validAlg wide a = true) :
    descriptorOf wide a = descriptorRom.getD a.toNat none := if_pos h

/-- A code that is not valid names no descriptor (R92). -/
theorem descriptorOf_of_not_validAlg {wide : Bool} {a : BitVec 4} (h : ¬ validAlg wide a = true) :
    descriptorOf wide a = none := if_neg h

/-- The codes that stay reserved with the wide variants (R9, R92). -/
theorem reserved_of_not_validAlg_true {a : BitVec 4} (h : ¬ validAlg true a = true) :
    a = 12 ∨ a = 14 ∨ a = 15 := by
  revert a
  decide

/-- With the wide variants `VALID_ALG` hides no row of the ROM: it leaves out the reserved rows only (R10, R92). -/
theorem descriptorOf_true (a : BitVec 4) : descriptorOf true a = descriptorRom.getD a.toNat none := by
  by_cases h : validAlg true a = true
  · exact descriptorOf_of_validAlg h
  · rw [descriptorOf_of_not_validAlg h]
    obtain rfl | rfl | rfl := reserved_of_not_validAlg_true h <;> rfl

theorem length_descriptorRom : descriptorRom.length = 16 := rfl

/-- The sixteen codes in order name the rows of the ROM in order, so a view of the descriptors by code is a view of the
ROM (R33). -/
theorem map_descriptorOf_true_eq_map_descriptorRom {β : Type} (view : Descriptor → β) :
    ((List.range 16).map fun a => (descriptorOf true (BitVec.ofNat 4 a)).map view) =
      descriptorRom.map (Option.map view) := by
  refine List.ext_getElem (by simp [length_descriptorRom]) fun a ha hrow => ?_
  have ha : a < 16 := by simpa using ha
  have hcode : (BitVec.ofNat 4 a).toNat = a := Nat.mod_eq_of_lt ha
  have hget : descriptorRom.getD a none = descriptorRom[a] := List.getD_eq_getElem _ _ ha
  simp only [List.getElem_map, List.getElem_range, descriptorOf_true, hcode]
  exact congrArg (Option.map view) hget

end Sys2Proof.Machine

namespace Sys2Proof.Proofs

open Sys2Proof.Machine

/-- Settles O18: the descriptors by code are the rows of the ROM, and the columns of each row are the cells of R9. -/
theorem descriptorTable : Obligations.DescriptorTable := by
  unfold Obligations.DescriptorTable
  rw [map_descriptorOf_true_eq_map_descriptorRom]
  simp only [descriptorRom, List.map_cons, List.map_nil, Option.map_some, Option.map_none]

end Sys2Proof.Proofs
end

section
/-! PROOFS. What each shared operation and each command does to the registers, for the statements on the state (R20 to R40):
the sizes of a descriptor, the length of a digest, the byte stores, and one relation that says what a command can do. -/

namespace Sys2Proof.Machine

/-! ### The sizes of a descriptor (R9) -/

/-- The bounds on the columns `BS`, `OB` and `SB` that the register rules need. -/
structure Descriptor.SizesOk (D : Descriptor) : Prop where
  block : D.bs = 64 ∨ D.bs = 128
  output : D.ob ≤ 64
  groestlState : D.family = .groestl → D.sb = D.bs

theorem sizesOk_of_mem_descriptorRom {D : Descriptor} (h : some D ∈ descriptorRom) : D.SizesOk := by
  have rows : ∀ r ∈ descriptorRom, ∀ D ∈ r,
      (D.bs = 64 ∨ D.bs = 128) ∧ D.ob ≤ 64 ∧ (D.family = .groestl → D.sb = D.bs) := by decide
  obtain ⟨hbs, hob, hsb⟩ := rows _ h D rfl
  exact ⟨hbs, hob, hsb⟩

theorem sizesOk_of_boundDescriptor {D : Descriptor} {s : State} (h : boundDescriptor s = some D) : D.SizesOk :=
  sizesOk_of_mem_descriptorRom (descriptorOf_mem h)

theorem Descriptor.SizesOk.bs_pos {D : Descriptor} (h : D.SizesOk) : 0 < D.bs := by
  rcases h.block with hbs | hbs <;> omega

theorem Descriptor.SizesOk.bs_le {D : Descriptor} (h : D.SizesOk) : D.bs ≤ 128 := by
  rcases h.block with hbs | hbs <;> omega

/-! ### A digest has at most `OB` bytes (R101, R145) -/

theorem length_bmwFinalize_le (w ob : Nat) (H : List (BitVec w)) (tail : Bytes) (n : Nat) :
    (bmwFinalize w ob H tail n).length ≤ ob := by
  have hwords : 16 - (16 - 8 * ob / w) ≤ 8 * ob / w := tsub_tsub_le
  have hbits : 8 * (8 * ob / w * (w / 8)) ≤ 8 * ob := calc
    8 * (8 * ob / w * (w / 8)) = 8 * ob / w * (w / 8 * 8) := by ring
    _ ≤ 8 * ob / w * w := Nat.mul_le_mul_left _ (Nat.div_mul_le_self w 8)
    _ ≤ 8 * ob := Nat.div_mul_le_self _ _
  simp only [bmwFinalize, length_unwords, List.length_drop, bmwFinished, length_bmwFinal]
  exact (Nat.mul_le_mul_right _ hwords).trans (by omega)

/-- Compression cannot lengthen the state, for it ends in an exclusive-or with the state (R199). -/
theorem length_foldl_groestlCompress_le (nc : Nat) (blocks : List Bytes) (h : Bytes) :
    (blocks.foldl (groestlCompress nc) h).length ≤ h.length := by
  induction blocks generalizing h with
  | nil => exact le_rfl
  | cons b blocks ih =>
    refine (ih (groestlCompress nc h b)).trans ?_
    rw [groestlCompress, length_xorList]
    exact Nat.min_le_right _ _

theorem length_groestlFinalize_le {nc ob : Nat} {h : Bytes} (tail : Bytes) (n : Nat) (hh : h.length ≤ 8 * nc) :
    (groestlFinalize nc ob h tail n).length ≤ ob := by
  have hfold := length_foldl_groestlCompress_le nc (groestlPad (8 * nc) tail n) h
  simp only [groestlFinalize, groestlOutput, List.length_drop, length_xorList]
  omega

theorem length_finalize_le {D : Descriptor} (hD : D.SizesOk) (h : BitVec 1024) (tail : Bytes) (n : Nat) :
    (finalize D h tail n).length ≤ D.ob := by
  unfold finalize
  cases hf : D.family with
  | bmw => exact length_bmwFinalize_le _ _ _ _ _
  | groestl =>
    refine length_groestlFinalize_le tail n ?_
    rw [length_hElems, hD.groestlState hf]
    rcases hD.block with hbs | hbs <;> omega
  | jh => simp [jhFinalize]
  | shavite => simp [shaviteFinalize]

theorem length_digestBytes_le {D : Descriptor} (hD : D.SizesOk) (s : State) : (digestBytes D s).length ≤ D.ob :=
  length_finalize_le hD _ _ _

/-! ### The counters -/

theorem toNat_cur_fifoPush (d : Byte) {s : State} (h : s.cur.toNat < 128) :
    (fifoPush d s).cur.toNat = s.cur.toNat + 1 := by
  rw [fifoPush_cur, BitVec.toNat_add]
  exact Nat.mod_eq_of_lt (by simp; omega)

theorem lengthExhausted_eq_false_iff (s : State) :
    lengthExhausted s = false ↔ s.len.toNat + 8 * (s.cur.toNat + 1) < Config.messageBitLimit := by
  rw [lengthExhausted, decide_eq_false_iff_not, Nat.not_le]

/-- With room for the bits of the block, `LEN` does not wrap at the dispatch (R29, R94). -/
theorem toNat_len_dispatchBlock {D : Descriptor} {s : State} (h : s.len.toNat + 8 * D.bs < Config.messageBitLimit) :
    (dispatchBlock D s).len.toNat = s.len.toNat + 8 * D.bs := by
  rw [Config.messageBitLimit] at h
  rw [dispatchBlock_len, BitVec.toNat_add, BitVec.toNat_ofNat]
  omega

/-! ### The byte stores -/

/-- A register of zeros reads zero at every index, in range or not. -/
theorem getD_toList_replicate_zero (n i : Nat) : (Vector.replicate n (0 : Byte)).toList.getD i 0 = 0 := by
  rw [Vector.toList_replicate, List.getD_eq_getElem?_getD, List.getElem?_replicate]
  split <;> rfl

/-- `DIGEST` leaves the bytes of `OUT` behind the digest (R95). -/
theorem outByte_storeDigest_of_ob_le {D : Descriptor} (hD : D.SizesOk) (s : State) {i : Nat} (hi : D.ob ≤ i) :
    outByte (storeDigest D s) i = outByte s i := by
  have hlen := length_digestBytes_le hD s
  have hob := hD.output
  rw [outByte, storeDigest_out, toList_writeOut _ (by omega), List.getD_append_right _ _ _ _ (by omega)]
  simp only [outByte, List.getD_eq_getElem?_getD, List.getElem?_drop]
  congr 3
  omega

/-- The push appends the byte to the tail of the message (R35, R141). -/
theorem tailBytes_fifoPush (d : Byte) {s : State} (h : s.cur.toNat < 128) :
    tailBytes (fifoPush d s) = tailBytes s ++ [d] := by
  have hlen : s.cur.toNat < s.buf.toList.length := by simpa using h
  rw [tailBytes, toNat_cur_fifoPush d h, fifoPush_buf, Vector.toList_setIfInBounds, tailBytes,
    List.set_eq_take_cons_drop _ hlen, List.take_append, List.length_take_of_le hlen.le]
  simp

/-- The block that a full buffer gives is the whole tail (R142, R143). -/
theorem fifoBlock_eq_tailBytes {D : Descriptor} {s : State} (h : fullFlag D s = true) :
    fifoBlock D s = tailBytes s := by
  rw [fifoBlock, tailBytes, eq_of_beq h]

/-! ### What an accepted byte leaves unchanged (R94) -/

/-- What neither the push nor the dispatch changes, `UPDATE` does not change. -/
theorem acceptByte_view {β : Type} (view : State → β) {D : Descriptor} {d : Byte} {s : State}
    (hpush : view (fifoPush d s) = view s) (hdispatch : view (dispatchBlock D (fifoPush d s)) = view s) :
    view (acceptByte D d s) = view s := by
  obtain ⟨-, h⟩ | ⟨-, h⟩ := acceptByte_cases D d s
  · rw [h, hpush]
  · rw [h, hdispatch]

variable (D : Descriptor) (d : Byte) (s : State)

@[simp] theorem acceptByte_cfgv : (acceptByte D d s).cfgv = s.cfgv := acceptByte_view State.cfgv rfl rfl
@[simp] theorem acceptByte_alg : (acceptByte D d s).alg = s.alg := acceptByte_view State.alg rfl rfl
@[simp] theorem acceptByte_phase : (acceptByte D d s).phase = s.phase := acceptByte_view State.phase rfl rfl
@[simp] theorem acceptByte_err : (acceptByte D d s).err = s.err := acceptByte_view State.err rfl rfl
@[simp] theorem acceptByte_out : (acceptByte D d s).out = s.out := acceptByte_view State.out rfl rfl
@[simp] theorem acceptByte_wideVariants : (acceptByte D d s).wideVariants = s.wideVariants :=
  acceptByte_view State.wideVariants rfl rfl
@[simp] theorem acceptByte_port : (acceptByte D d s).port = s.port := acceptByte_view State.port rfl rfl
@[simp] theorem boundDescriptor_acceptByte : boundDescriptor (acceptByte D d s) = boundDescriptor s :=
  acceptByte_view boundDescriptor rfl rfl

end Sys2Proof.Machine
end

section
/-! PROOFS. What a command can do, as one relation between the state before and the state after, and what that says of the
phases (R26) and of the writers of the registers (R21 to R36). -/

namespace Sys2Proof.Machine

/-- `Effect i s t`: the command `i` can take the machine from `s` to `t`, one constructor for each way it goes on
(`40_commands.md`). -/
inductive Effect : Instr → State → State → Prop where
  /-- `INIT` of a code that names no descriptor (R91, R281). -/
  | configError {a : BitVec 4} {s : State} (hD : operandDescriptor s a = none) : Effect (.init a) s (raiseConfig s)
  /-- `INIT` of a code that names one (R91). -/
  | bind {a : BitVec 4} {D : Descriptor} {s : State} (hD : operandDescriptor s a = some D) :
      Effect (.init a) s (respond (makeVirgin D (bindAlg a s)))
  /-- `RESET` with a descriptor bound (R93). -/
  | rearm {D : Descriptor} {s : State} (hc : s.cfgv = true) (hD : boundDescriptor s = some D) :
      Effect .reset s (respond (makeVirgin D s))
  /-- `UPDATE` that takes its byte (R94). -/
  | accept {d : BitVec 8} {D : Descriptor} {s : State} (hp : s.phase = .active) (hl : lengthExhausted s = false)
      (hD : boundDescriptor s = some D) (hcur : s.cur.toNat < D.bs) :
      Effect (.update d) s (respond (acceptByte D d s))
  /-- `DIGEST` that stores the digest (R95). -/
  | store {D : Descriptor} {s : State} (hp : s.phase = .active) (hD : boundDescriptor s = some D)
      (hcur : s.cur.toNat < D.bs) : Effect .digest s (respond (storeDigest D s))
  /-- `RDOUT` that answers a byte (R96). -/
  | read {d : BitVec 8} {D : Descriptor} {s : State} (hp : s.phase = .done) (hD : boundDescriptor s = some D)
      (hd : indexInDigest D d = true) : Effect (.rdout d) s (respondByte (outByte s d.toNat) s)
  /-- Error entry by a command other than `INIT` (R284). -/
  | raised {i : Instr} {e : ErrCause} {s : State} (hi : ∀ a, i ≠ .init a) (he : e ≠ .none) : Effect i s (raise e s)
  /-- `RDSTAT`, and a command that phase `ERROR` ignores (R97, R286). -/
  | answered {i : Instr} {s : State} (hi : ∀ a, i ≠ .init a) : Effect i s (respond s)

/-- What a command that goes on has done is one of the effects. -/
theorem effect_of_exec {i : Instr} {s t : State} (h : exec i s = .next t) : Effect i s t := by
  cases i with
  | init a =>
    obtain ⟨hD, ⟨⟩⟩ | ⟨D, hD, ⟨⟩⟩ := execInit_cases h
    · exact .configError hD
    · exact .bind hD
  | reset =>
    obtain ⟨-, ⟨⟩⟩ | ⟨-, -, ⟨⟩⟩ | ⟨D, hc, hD, ⟨⟩⟩ := execReset_cases h
    · exact .raised nofun nofun
    · exact .rearm hc hD
  | update d =>
    obtain ⟨-, ⟨⟩⟩ | ⟨-, ⟨⟩⟩ | ⟨-, -, ⟨⟩⟩ | ⟨-, -, -, ⟨⟩⟩ | ⟨-, -, -, -, -, ⟨⟩⟩ | ⟨D, hp, hl, hD, hcur, ⟨⟩⟩ :=
      execUpdate_cases h
    · exact .answered nofun
    · exact .raised nofun nofun
    · exact .raised nofun nofun
    · exact .accept hp hl hD hcur
  | digest =>
    obtain ⟨-, ⟨⟩⟩ | ⟨-, ⟨⟩⟩ | ⟨-, -, ⟨⟩⟩ | ⟨-, -, -, -, ⟨⟩⟩ | ⟨D, hp, hD, hcur, ⟨⟩⟩ := execDigest_cases h
    · exact .answered nofun
    · exact .raised nofun nofun
    · exact .store hp hD hcur
  | rdout d =>
    obtain ⟨-, ⟨⟩⟩ | ⟨-, ⟨⟩⟩ | ⟨-, -, ⟨⟩⟩ | ⟨-, -, -, -, ⟨⟩⟩ | ⟨D, hp, hD, hd, ⟨⟩⟩ := execRdout_cases h
    · exact .answered nofun
    · exact .raised nofun nofun
    · exact .raised nofun nofun
    · exact .read hp hD hd
  | rdstat =>
    obtain ⟨⟩ : execRdstat s = .next t := h
    exact .answered nofun

end Sys2Proof.Machine

namespace Sys2Proof.Proofs

open Sys2Proof.Machine

/-- Settles O29: the phase after each effect; error entry from another phase puts its cause into `ERR`. -/
theorem phaseTransitions : Obligations.PhaseTransitions := by
  intro i s t _ hexec hphase
  cases effect_of_exec hexec with
  | configError => exact .inr (.inr ⟨rfl, by simp⟩)
  | bind => exact .inl ⟨rfl, .inl ⟨_, rfl⟩⟩
  | rearm hc => exact .inl ⟨rfl, .inr ⟨rfl, hc⟩⟩
  | accept => exact absurd (by simp) hphase
  | store hp => exact .inr (.inl ⟨rfl, rfl, hp⟩)
  | read => exact absurd rfl hphase
  | raised _ he =>
    have hs : s.phase ≠ .error := fun hs => hphase (by simp [hs])
    exact .inr (.inr ⟨rfl, by simpa [hs] using he⟩)
  | answered => exact absurd rfl hphase

/-- Settles O31: what each effect leaves unchanged; an effect of a command that the rule names is excluded by its command. -/
theorem registerWriters : Obligations.RegisterWriters := by
  intro i s t hexec
  cases effect_of_exec hexec with
  | configError | bind =>
    exact ⟨fun hi => absurd rfl (hi _), fun hi => absurd rfl (hi _), fun hi => absurd rfl (hi _), rfl, rfl⟩
  | rearm => exact ⟨fun _ => ⟨rfl, rfl⟩, fun _ hi => absurd rfl hi, fun _ hi => absurd rfl hi, rfl, rfl⟩
  | accept =>
    exact ⟨fun _ => by simp, fun _ _ hi => absurd rfl (hi _), fun _ _ _ => by simp, by simp, by simp⟩
  | store =>
    exact ⟨fun _ => ⟨rfl, rfl⟩, fun _ _ _ => ⟨rfl, rfl, rfl, rfl⟩, fun _ _ hi => absurd rfl hi, rfl, rfl⟩
  | read | raised | answered =>
    exact ⟨fun _ => ⟨rfl, rfl⟩, fun _ _ _ => ⟨rfl, rfl, rfl, rfl⟩, fun _ _ _ => rfl, rfl, rfl⟩

end Sys2Proof.Proofs
end

section
/-! PROOFS. The register invariant `Inv` (R24 to R29, R36, R38): which states have it, and that every step keeps it. -/

namespace Sys2Proof.Safety

open Sys2Proof.Machine

/-! ### The invariant read from a state -/

theorem Inv.err_eq_none {s : State} (h : Inv s) (hp : s.phase ≠ .error) : s.err = .none :=
  not_not.mp fun he => hp (h.errPhase.mp he)

theorem Inv.countersOk {s : State} {D : Descriptor} (h : Inv s) (hc : s.cfgv = true)
    (hD : boundDescriptor s = some D) : CountersOk D s := by
  obtain ⟨D', hD', hk⟩ := h.bound hc
  obtain rfl : D' = D := Option.some.inj (hD'.symm.trans hD)
  exact hk

/-! ### States that have it -/

/-- The counters in range depend on `CUR`, `LEN` and `OUT` alone. -/
theorem CountersOk.of_eq {D : Descriptor} {s t : State} (h : CountersOk D s) (hcur : t.cur = s.cur)
    (hlen : t.len = s.len) (hout : t.out = s.out) : CountersOk D t where
  cursor := hcur ▸ h.cursor
  blocks := hlen ▸ h.blocks
  bits := by simpa only [msgbits, hcur, hlen] using h.bits
  outTail := by simpa only [outByte, hout] using h.outTail

/-- With no descriptor bound only `PHASE`, `ERR` and `ALG` matter. -/
theorem inv_of_unbound {s : State} (hc : s.cfgv = false) (ha : s.alg = 0) (he : s.err ≠ .none ↔ s.phase = .error)
    (hp : s.phase = .unconf ∨ s.phase = .error) : Inv s where
  errPhase := he
  algUnbound _ := ha
  boundWhenOpen := by rcases hp with hp | hp <;> simp [hp]
  unboundWhenUnconf _ := hc
  bound := by simp [hc]

/-- In phases `ACTIVE` and `DONE` the invariant is a bound descriptor with its counters in range. -/
theorem inv_of_open {s : State} {D : Descriptor} (hp : s.phase = .active ∨ s.phase = .done) (he : s.err = .none)
    (hc : s.cfgv = true) (hD : boundDescriptor s = some D) (hk : CountersOk D s) : Inv s where
  errPhase := by rcases hp with hp | hp <;> simp [hp, he]
  algUnbound := by simp [hc]
  boundWhenOpen _ := hc
  unboundWhenUnconf := by rcases hp with hp | hp <;> simp [hp]
  bound _ := ⟨D, hD, hk⟩

/-! ### The operations keep it -/

/-- The ports are not registers. -/
theorem inv_ports {s : State} (port : List HostEvent) (response : Option Response) (h : Inv s) :
    Inv { s with port := port, response := response } where
  errPhase := h.errPhase
  algUnbound := h.algUnbound
  boundWhenOpen := h.boundWhenOpen
  unboundWhenUnconf := h.unboundWhenUnconf
  bound hc :=
    let ⟨D, hD, hk⟩ := h.bound hc
    ⟨D, hD, hk.of_eq rfl rfl rfl⟩

theorem inv_withPort {s : State} (rest : List HostEvent) (h : Inv s) : Inv (withPort rest s) := inv_ports _ _ h

theorem inv_respond {s : State} (h : Inv s) : Inv (respond s) := inv_ports _ _ h

theorem inv_respondByte {s : State} (b : Byte) (h : Inv s) : Inv (respondByte b s) := inv_ports _ _ h

/-- Error entry sets `ERR` with `PHASE`, or finds both set (R284). -/
theorem inv_enterError {s : State} {e : ErrCause} (he : e ≠ .none) (h : Inv s) : Inv (enterError e s) where
  errPhase := by
    by_cases hp : s.phase = .error
    · simpa [hp] using h.errPhase.mpr hp
    · simpa [hp] using he
  algUnbound := h.algUnbound
  boundWhenOpen := by simp
  unboundWhenUnconf := by simp
  bound hc :=
    let ⟨D, hD, hk⟩ := h.bound hc
    ⟨D, hD, hk.of_eq rfl rfl rfl⟩

theorem inv_raise {s : State} {e : ErrCause} (he : e ≠ .none) (h : Inv s) : Inv (raise e s) :=
  inv_respond (inv_enterError he h)

theorem inv_raiseConfig (s : State) : Inv (raiseConfig s) := inv_of_unbound rfl rfl (by simp) (.inr rfl)

theorem inv_reservedWord {s : State} (h : Inv s) : Inv (reservedWord s) := by
  obtain ⟨-, hr⟩ | ⟨-, hr⟩ := reservedWord_cases s
  · exact hr ▸ inv_respond h
  · exact hr ▸ inv_raise nofun h

theorem inv_powerOnReset (s : State) : Inv (powerOnReset s) := inv_of_unbound rfl rfl (by simp) (.inl rfl)

/-- The virgin state of the bound descriptor has the invariant, whatever state it comes from (R40). -/
theorem inv_makeVirgin {D : Descriptor} {s : State} (hc : s.cfgv = true) (hD : boundDescriptor s = some D) :
    Inv (makeVirgin D s) :=
  inv_of_open (.inl rfl) rfl hc hD
    { cursor := (sizesOk_of_boundDescriptor hD).bs_pos
      blocks := Nat.zero_mod _
      bits := by simp [msgbits, Config.messageBitLimit]
      outTail := fun i _ => getD_toList_replicate_zero 64 i }

/-- A byte accepted below the length limit leaves the counters in range (R28, R29, R38). -/
theorem countersOk_acceptByte {D : Descriptor} {s : State} (d : Byte) (hs : D.SizesOk) (hk : CountersOk D s)
    (hl : lengthExhausted s = false) : CountersOk D (acceptByte D d s) := by
  have hpush : (fifoPush d s).cur.toNat = s.cur.toNat + 1 := toNat_cur_fifoPush d (hk.cursor.trans_le hs.bs_le)
  have hroom := (lengthExhausted_eq_false_iff s).mp hl
  have hblocks := hk.blocks
  obtain ⟨hfull, heq⟩ | ⟨hfull, heq⟩ := acceptByte_cases D d s
  · have hne : s.cur.toNat + 1 ≠ D.bs := hpush ▸ ne_of_beq_false hfull
    exact heq ▸
      { cursor := by have hcur := hk.cursor; omega
        blocks := hblocks
        bits := by rwa [msgbits, hpush]
        outTail := hk.outTail }
  · have hbs : s.cur.toNat + 1 = D.bs := hpush ▸ eq_of_beq hfull
    have hlen := toNat_len_dispatchBlock (D := D) (s := fifoPush d s) (hbs ▸ hroom)
    rw [fifoPush_len] at hlen
    exact heq ▸
      { cursor := hs.bs_pos
        blocks := by rw [hlen, Nat.add_mod_right, hblocks]
        bits := by rw [msgbits, hlen]; exact hbs ▸ hroom
        outTail := hk.outTail }

/-- The digest leaves the counters alone and `OUT` zero behind its `OB` bytes (R36, R95). -/
theorem countersOk_storeDigest {D : Descriptor} {s : State} (hs : D.SizesOk) (hk : CountersOk D s) :
    CountersOk D (storeDigest D s) where
  cursor := hk.cursor
  blocks := hk.blocks
  bits := hk.bits
  outTail i hi := (outByte_storeDigest_of_ob_le hs s hi).trans (hk.outTail i hi)

/-! ### Commands and steps keep it -/

theorem inv_of_effect {i : Instr} {s t : State} (h : Inv s) (he : Effect i s t) : Inv t := by
  cases he with
  | configError => exact inv_raiseConfig s
  | bind hD => exact inv_respond (inv_makeVirgin rfl hD)
  | rearm hc hD => exact inv_respond (inv_makeVirgin hc hD)
  | @accept d D _ hp hl hD =>
    have hc : s.cfgv = true := h.boundWhenOpen (.inl hp)
    have hk := countersOk_acceptByte d (sizesOk_of_boundDescriptor hD) (h.countersOk hc hD) hl
    exact inv_respond (inv_of_open (.inl (by simpa using hp)) (by simpa using h.err_eq_none (by simp [hp]))
      (by simpa using hc) (by simpa using hD) hk)
  | store hp hD =>
    have hc : s.cfgv = true := h.boundWhenOpen (.inl hp)
    have hk := countersOk_storeDigest (sizesOk_of_boundDescriptor hD) (h.countersOk hc hD)
    exact inv_respond (inv_of_open (.inr rfl) (h.err_eq_none (by simp [hp])) hc hD hk)
  | read => exact inv_respondByte _ h
  | raised _ he => exact inv_raise he h
  | answered => exact inv_respond h

theorem inv_of_exec {i : Instr} {s t : State} (h : Inv s) (hexec : exec i s = .next t) : Inv t :=
  inv_of_effect h (effect_of_exec hexec)

end Sys2Proof.Safety

namespace Sys2Proof.Proofs

open Sys2Proof.Machine Sys2Proof.Safety

/-- Settles O9: after power-on reset no descriptor is bound and no error is set. -/
theorem invariantHoldsAtReset : Obligations.InvariantHoldsAtReset :=
  inv_of_unbound rfl rfl (by simp [State.reset]) (.inl rfl)

/-- Settles O10, by the four forms of a step: idle, a command, a reserved word, power-on reset. -/
theorem everyStepKeepsTheInvariant : Obligations.EveryStepKeepsTheInvariant := by
  intro s t h hstep
  obtain ⟨-, ht⟩ | ⟨w, rest, i, -, -, ht⟩ | ⟨w, rest, r, -, -, ht⟩ | ⟨c, rest, -, ht⟩ := step_cases hstep
  · cases ht
    exact h
  · exact inv_of_exec (inv_withPort rest h) ht.symm
  · cases ht
    exact inv_reservedWord (inv_withPort rest h)
  · cases ht
    exact inv_powerOnReset _

end Sys2Proof.Proofs
end

section
/-! PROOFS. `STATUS` as a number (R31), and the registers after power-on reset (R39). -/

namespace Sys2Proof.Machine

/-- Concatenation as arithmetic: the left part counts in units of the right part's range. -/
theorem toNat_append_eq_add {m n : Nat} (x : BitVec m) (y : BitVec n) :
    (x ++ y).toNat = x.toNat * 2 ^ n + y.toNat := by
  rw [BitVec.toNat_append, ← Nat.shiftLeft_add_eq_or_of_lt y.isLt, Nat.shiftLeft_eq]

/-- The fields of `STATUS` at their places, bits 7 and 15..12 zero (R31). -/
theorem toNat_statusWord (s : State) :
    (statusWord s).toNat =
      s.phase.code.toNat + 4 * s.err.code.toNat + 32 * s.cfgv.toNat + 64 * (emptyFlag s).toNat + 256 * s.alg.toNat := by
  simp only [statusWord, toNat_append_eq_add, BitVec.toNat_ofBool, BitVec.toNat_ofNat]
  omega

theorem emptyFlag_toNat (s : State) : (emptyFlag s).toNat = if s.cur = 0 then 1 else 0 := by
  rw [emptyFlag, beq_eq_decide, Bool.toNat, Bool.cond_decide]

end Sys2Proof.Machine

namespace Sys2Proof.Proofs

open Sys2Proof.Machine

/-- Settles O13: the sum of the fields, with each flag's value written as a condition. -/
theorem statusFields : Obligations.StatusFields := by
  refine ⟨fun s => ?_, by decide, by decide⟩
  have hcfgv : 32 * s.cfgv.toNat = if s.cfgv then 32 else 0 := by cases s.cfgv <;> rfl
  have hempty : 64 * (emptyFlag s).toNat = if s.cur = 0 then 64 else 0 := by rw [emptyFlag_toNat, mul_ite]
  rw [toNat_statusWord, hcfgv, hempty]

/-- Settles O7: the byte stores read zero at every index, and the other registers by evaluation. -/
theorem resetRegisters : Obligations.ResetRegisters :=
  ⟨rfl, rfl, rfl, rfl, rfl, getD_toList_replicate_zero 128, rfl, rfl, getD_toList_replicate_zero 64, by decide⟩

end Sys2Proof.Proofs
end

section
/-! PROOFS. The message invariant (R38): how the parts of a message change when a byte is appended, and which commands
establish, carry and keep `Absorbed`. -/

namespace Sys2Proof.Safety

open Sys2Proof.Machine

/-! ### The parts of a message -/

section Message

variable {D : Descriptor} {m : Bytes}

theorem bs_mul_fullBlocks_le : D.bs * fullBlocks D m ≤ m.length := Nat.mul_div_le _ _

/-- A full block of a message is a block of every longer message. -/
theorem messageBlock_append {i : Nat} (x : Bytes) (h : D.bs * (i + 1) ≤ m.length) :
    messageBlock D (m ++ x) i = messageBlock D m i := by
  rw [Nat.mul_succ] at h
  rw [messageBlock, messageBlock, List.drop_append_of_le_length (by omega),
    List.take_append_of_le_length (by rw [List.length_drop]; omega)]

/-- The chaining value after full blocks does not depend on what follows them (R38 a). -/
theorem chainAfter_append {n : Nat} (x : Bytes) (h : D.bs * n ≤ m.length) :
    chainAfter D (m ++ x) n = chainAfter D m n := by
  induction n with
  | zero => rfl
  | succ n ih => rw [chainAfter, chainAfter, messageBlock_append x h, ih (by rw [Nat.mul_succ] at h; omega)]

/-- What follows the full blocks of the shorter message: its tail, then the byte. -/
theorem drop_fullBlocks_snoc (d : Byte) :
    (m ++ [d]).drop (D.bs * fullBlocks D m) = messageTail D m ++ [d] :=
  List.drop_append_of_le_length bs_mul_fullBlocks_le

/-- A byte that does not fill the block adds no full block. -/
theorem length_snoc_of_lt (d : Byte) (h : m.length % D.bs + 1 < D.bs) :
    fullBlocks D (m ++ [d]) = fullBlocks D m ∧ (m ++ [d]).length % D.bs = m.length % D.bs + 1 := by
  have hlen : (m ++ [d]).length = D.bs * fullBlocks D m + (m.length % D.bs + 1) := by
    have hdiv := Nat.div_add_mod m.length D.bs
    simp only [List.length_append, List.length_singleton, fullBlocks]
    omega
  constructor
  · rw [fullBlocks, hlen, Nat.mul_add_div (by omega), Nat.div_eq_of_lt h, Nat.add_zero]
  · rw [hlen, Nat.mul_add_mod, Nat.mod_eq_of_lt h]

/-- A byte that fills the block adds one full block and leaves no tail. -/
theorem length_snoc_of_eq (d : Byte) (h : m.length % D.bs + 1 = D.bs) :
    (m ++ [d]).length = D.bs * (fullBlocks D m + 1) ∧ fullBlocks D (m ++ [d]) = fullBlocks D m + 1 := by
  have hlen : (m ++ [d]).length = D.bs * (fullBlocks D m + 1) := by
    have hdiv := Nat.div_add_mod m.length D.bs
    simp only [List.length_append, List.length_singleton, fullBlocks, Nat.mul_succ]
    omega
  refine ⟨hlen, ?_⟩
  rw [fullBlocks, hlen, Nat.mul_div_cancel_left _ (by omega)]

/-- The block that the byte fills is the tail and the byte (R94, R142). -/
theorem messageBlock_snoc_of_eq (d : Byte) (h : m.length % D.bs + 1 = D.bs) :
    messageBlock D (m ++ [d]) (fullBlocks D m) = messageTail D m ++ [d] := by
  rw [messageBlock, drop_fullBlocks_snoc, List.take_of_length_le]
  have hdiv := Nat.div_add_mod m.length D.bs
  simp only [messageTail, List.length_append, List.length_drop, List.length_singleton, fullBlocks]
  omega

end Message

/-! ### States that have absorbed a message -/

/-- The ports do not count. -/
theorem absorbed_ports {D : Descriptor} {m : Bytes} {s : State} (port : List HostEvent) (response : Option Response)
    (h : Absorbed D m s) : Absorbed D m { s with port := port, response := response } where
  active := h.active
  noError := h.noError
  isBound := h.isBound
  descriptor := h.descriptor
  chain := h.chain
  tail := h.tail
  cursor := h.cursor
  length := h.length
  bits := h.bits
  noDigest := h.noDigest

theorem absorbed_respond {D : Descriptor} {m : Bytes} {s : State} (h : Absorbed D m s) : Absorbed D m (respond s) :=
  absorbed_ports _ _ h

/-- The virgin state has absorbed the empty message (R40). -/
theorem absorbed_makeVirgin {D : Descriptor} {s : State} (hc : s.cfgv = true) (hD : boundDescriptor s = some D) :
    Absorbed D [] (makeVirgin D s) where
  active := rfl
  noError := rfl
  isBound := hc
  descriptor := hD
  chain := by simp [fullBlocks, chainAfter]
  tail := by simp [tailBytes, messageTail]
  cursor := by simp
  length := by simp [fullBlocks]
  bits := by simp [Config.messageBitLimit]
  noDigest := rfl

section Update

variable {D : Descriptor} {m : Bytes} {s : State}

theorem Absorbed.sizesOk (h : Absorbed D m s) : D.SizesOk := sizesOk_of_boundDescriptor h.descriptor

theorem Absorbed.cur_lt (h : Absorbed D m s) : s.cur.toNat < D.bs :=
  h.cursor ▸ Nat.mod_lt _ h.sizesOk.bs_pos

/-- `msgbits` counts the bits of the message (R30, R38). -/
theorem Absorbed.len_add_cur (h : Absorbed D m s) : s.len.toNat + 8 * s.cur.toNat = 8 * m.length := by
  rw [h.length, h.cursor, fullBlocks, Nat.mul_assoc, ← Nat.mul_add, Nat.div_add_mod]

/-- `LEN` is the counter of the last full block (R29, R252). -/
theorem Absorbed.len_eq (h : Absorbed D m s) : s.len = BitVec.ofNat 64 (8 * D.bs * fullBlocks D m) := by
  rw [← h.length, BitVec.ofNat_toNat, BitVec.setWidth_eq]

/-- The byte goes to the tail while the block is not full. -/
theorem Absorbed.push (h : Absorbed D m s) (d : Byte) (hroom : 8 * (m.length + 1) < Config.messageBitLimit)
    (hlt : m.length % D.bs + 1 < D.bs) : Absorbed D (m ++ [d]) (fifoPush d s) := by
  obtain ⟨hblocks, hmod⟩ := length_snoc_of_lt d hlt
  have hcur : s.cur.toNat < 128 := h.cur_lt.trans_le h.sizesOk.bs_le
  constructor
  case active => exact h.active
  case noError => exact h.noError
  case isBound => exact h.isBound
  case descriptor => exact h.descriptor
  case chain => rw [hblocks, chainAfter_append _ bs_mul_fullBlocks_le]; exact h.chain
  case tail => rw [tailBytes_fifoPush d hcur, h.tail, ← drop_fullBlocks_snoc, messageTail, hblocks]
  case cursor => rw [toNat_cur_fifoPush d hcur, h.cursor, hmod]
  case length => rw [hblocks]; exact h.length
  case bits => simpa using hroom
  case noDigest => exact h.noDigest

/-- The byte that fills the block goes into `H` with the tail, under the counter of the new block. -/
theorem Absorbed.dispatch (h : Absorbed D m s) (d : Byte) (hroom : 8 * (m.length + 1) < Config.messageBitLimit)
    (heq : m.length % D.bs + 1 = D.bs) : Absorbed D (m ++ [d]) (dispatchBlock D (fifoPush d s)) := by
  obtain ⟨hlen, hblocks⟩ := length_snoc_of_eq d heq
  have hcur : s.cur.toNat < 128 := h.cur_lt.trans_le h.sizesOk.bs_le
  have hfull : fullFlag D (fifoPush d s) = true := by
    rw [fullFlag, toNat_cur_fifoPush d hcur, h.cursor, heq, beq_self_eq_true]
  have hcount : s.len + BitVec.ofNat 64 (8 * D.bs) = BitVec.ofNat 64 (8 * D.bs * (fullBlocks D m + 1)) := by
    rw [h.len_eq, ← BitVec.ofNat_add, Nat.mul_succ]
  constructor
  case active => exact h.active
  case noError => exact h.noError
  case isBound => exact h.isBound
  case descriptor => exact h.descriptor
  case chain =>
    rw [hblocks, chainAfter, chainAfter_append _ bs_mul_fullBlocks_le, messageBlock_snoc_of_eq d heq, ← hcount,
      ← h.chain, ← h.tail, ← tailBytes_fifoPush d hcur, ← fifoBlock_eq_tailBytes hfull]
    rfl
  case tail =>
    rw [messageTail, hblocks, List.drop_eq_nil_of_le hlen.le]
    rfl
  case cursor => rw [hlen, Nat.mul_mod_right]; rfl
  case length =>
    have hbits : s.len.toNat + 8 * D.bs < Config.messageBitLimit := by
      have hsum := h.len_add_cur
      have hc := h.cursor
      omega
    rw [toNat_len_dispatchBlock (s := fifoPush d s) hbits, hblocks, Nat.mul_succ, ← h.length]
    rfl
  case bits => simpa using hroom
  case noDigest => exact h.noDigest

/-- `UPDATE`'s writes carry the invariant to the message with one more byte. -/
theorem Absorbed.accept (h : Absorbed D m s) (d : Byte) (hroom : 8 * (m.length + 1) < Config.messageBitLimit) :
    Absorbed D (m ++ [d]) (acceptByte D d s) := by
  have hpush : (fifoPush d s).cur.toNat = m.length % D.bs + 1 := by
    rw [toNat_cur_fifoPush d (h.cur_lt.trans_le h.sizesOk.bs_le), h.cursor]
  have hlt : m.length % D.bs < D.bs := Nat.mod_lt _ h.sizesOk.bs_pos
  obtain ⟨hfull, heq⟩ | ⟨hfull, heq⟩ := acceptByte_cases D d s
  · have hne : m.length % D.bs + 1 ≠ D.bs := hpush ▸ ne_of_beq_false hfull
    exact heq ▸ h.push d hroom (by omega)
  · exact heq ▸ h.dispatch d hroom (hpush ▸ eq_of_beq hfull)

/-- Below the length limit `UPDATE` takes its byte (R94). -/
theorem Absorbed.exec_update (h : Absorbed D m s) (d : BitVec 8) (hroom : 8 * (m.length + 1) < Config.messageBitLimit) :
    exec (.update d) s = .next (respond (acceptByte D d s)) := by
  have hl : lengthExhausted s = false := by
    rw [lengthExhausted_eq_false_iff, Nat.mul_succ, ← Nat.add_assoc, h.len_add_cur]
    exact hroom
  simp [exec, execUpdate, updateActive, h.active, hl, h.descriptor, h.cur_lt]

/-- A command that takes nothing in and stays in `ACTIVE` only answers. -/
theorem Absorbed.of_effect {i : Instr} {t : State} (h : Absorbed D m s) (he : Effect i s t) (hinit : ∀ a, i ≠ .init a)
    (hreset : i ≠ .reset) (hupdate : ∀ d, i ≠ .update d) (ht : t.phase = .active) : Absorbed D m t := by
  cases he with
  | configError | bind => exact absurd rfl (hinit _)
  | rearm => exact absurd rfl hreset
  | accept => exact absurd rfl (hupdate _)
  | store | raised => cases ht
  | read hp => cases h.active.symm.trans hp
  | answered => exact absorbed_respond h

end Update

end Sys2Proof.Safety

namespace Sys2Proof.Proofs

open Sys2Proof.Machine Sys2Proof.Safety

/-- Settles O34: the virgin state for `INIT` and `RESET`, the accepted byte for `UPDATE`, the other effects for the rest. -/
theorem messageInvariant : Obligations.MessageInvariant := by
  refine ⟨fun a s t D hD hexec => ?init, fun s t D hc hD hexec => ?reset, fun D m d s h hroom => ?update,
    fun D m i s t h hinit hreset hupdate hexec ht => ?other⟩
  case init =>
    obtain ⟨hnone, -⟩ | ⟨D', hD', ⟨⟩⟩ := execInit_cases hexec
    · cases hnone.symm.trans hD
    · obtain rfl : D' = D := Option.some.inj (hD'.symm.trans hD)
      exact absorbed_respond (absorbed_makeVirgin rfl hD')
  case reset =>
    obtain ⟨hunbound, -⟩ | ⟨-, hnone, -⟩ | ⟨D', -, hD', ⟨⟩⟩ := execReset_cases hexec
    · cases hunbound.symm.trans hc
    · cases hnone.symm.trans hD
    · obtain rfl : D' = D := Option.some.inj (hD'.symm.trans hD)
      exact absorbed_respond (absorbed_makeVirgin hc hD')
  case update => exact ⟨_, h.exec_update d hroom, absorbed_respond (h.accept d hroom)⟩
  case other => exact h.of_effect (effect_of_exec hexec) hinit hreset hupdate ht

end Sys2Proof.Proofs
end

section
/-! PROOFS. A system of instances (R10, R62, R294; log 6): a system step moves the one member it names, so a schedule brings
each member as far as its own steps do. -/

namespace Sys2Proof.Machine

/-- A first step that answers a next state leaves the rest of the run to that state, in every machine. -/
theorem core_run_succ {M : Host.Core} {s t : M.State} (h : M.step s = .next t) (n : Nat) :
    M.run (n + 1) s = M.run n t := by
  rw [Host.Core.run, h]

/-- A system step either names no member and does nothing, or replaces the named member by its own next state. -/
theorem systemStep_cases {i : Nat} {y u : System} (h : systemStep i y = .next u) :
    (y[i]? = none ∧ u = y) ∨ ∃ s t, y[i]? = some s ∧ step s = .next t ∧ u = y.set i t := by
  unfold systemStep at h
  split at h
  next hi => exact .inl ⟨hi, (Host.Outcome.next.inj h).symm⟩
  next s hi =>
    split at h
    next t hs => exact .inr ⟨s, t, hi, hs, (Host.Outcome.next.inj h).symm⟩
    all_goals cases h

/-- A system run starts with a step of the member scheduled first. -/
theorem systemRun_cons_eq_next {i : Nat} {schedule : List Nat} {y z : System}
    (h : systemRun (i :: schedule) y = .next z) : ∃ u, systemStep i y = .next u ∧ systemRun schedule u = .next z := by
  unfold systemRun at h
  split at h
  next u hu => exact ⟨u, hu, h⟩
  all_goals cases h

theorem length_systemStep {i : Nat} {y u : System} (h : systemStep i y = .next u) : u.length = y.length := by
  obtain ⟨-, rfl⟩ | ⟨s, t, -, -, rfl⟩ := systemStep_cases h
  · rfl
  · exact List.length_set

/-- The frame of a system step: the members it does not name keep their states (R62, R294). -/
theorem getElem?_systemStep_of_ne {i k : Nat} {y u : System} (h : systemStep i y = .next u) (hne : i ≠ k) :
    u[k]? = y[k]? := by
  obtain ⟨-, rfl⟩ | ⟨s, t, -, -, rfl⟩ := systemStep_cases h
  · rfl
  · exact List.getElem?_set_ne hne

/-- The member a system step names takes its own step. -/
theorem getElem?_systemStep_self {k : Nat} {y u : System} {s : State} (h : systemStep k y = .next u)
    (hk : y[k]? = some s) : ∃ t, step s = .next t ∧ u[k]? = some t := by
  obtain ⟨hnone, -⟩ | ⟨s', t, hsome, hstep, rfl⟩ := systemStep_cases h
  · cases hnone.symm.trans hk
  · obtain rfl : s' = s := Option.some.inj (hsome.symm.trans hk)
    obtain ⟨hlt, -⟩ := List.getElem?_eq_some_iff.mp hk
    exact ⟨t, hstep, List.getElem?_set_self hlt⟩

theorem length_systemRun {schedule : List Nat} {y z : System} (h : systemRun schedule y = .next z) :
    z.length = y.length := by
  induction schedule generalizing y with
  | nil => cases h; rfl
  | cons i schedule ih =>
    obtain ⟨u, hstep, hrun⟩ := systemRun_cons_eq_next h
    exact (ih hrun).trans (length_systemStep hstep)

/-- A schedule brings member `k` where as many steps of its own as the schedule gives it do. -/
theorem getElem?_systemRun {schedule : List Nat} {y z : System} {k : Nat} {s : State}
    (h : systemRun schedule y = .next z) (hk : y[k]? = some s) :
    ∃ t, z[k]? = some t ∧ Host.Core.run Sys2Proof.core (schedule.count k) s = .next t := by
  induction schedule generalizing y s with
  | nil => cases h; exact ⟨s, hk, rfl⟩
  | cons i schedule ih =>
    obtain ⟨u, hstep, hrun⟩ := systemRun_cons_eq_next h
    by_cases hik : i = k
    · subst hik
      obtain ⟨s', hs, hu⟩ := getElem?_systemStep_self hstep hk
      rw [List.count_cons_self, core_run_succ (M := Sys2Proof.core) hs]
      exact ih hrun hu
    · rw [List.count_cons_of_ne hik]
      exact ih hrun ((getElem?_systemStep_of_ne hstep hik).trans hk)

end Sys2Proof.Machine

namespace Sys2Proof.Proofs

open Sys2Proof.Machine

/-- Settles O33, by induction on the schedule: the named member takes its own step, the others keep their states. -/
theorem instancesAreIndependent : Obligations.InstancesAreIndependent :=
  fun _ _ _ hrun => ⟨length_systemRun hrun, fun _ _ hk => getElem?_systemRun hrun hk⟩

end Sys2Proof.Proofs
end

section
/-! PROOFS. Decoding and encoding (`30_encoding.md`): the word and its fields are inverse to each other, the decoder accepts
exactly the fields of the command it answers, and a row of the opcode map compares fields under the fields of its mask. -/

namespace Sys2Proof

/-! ### A word and its fields (R71) -/

@[simp] theorem fieldsOf_wordOf (f : Fields) : fieldsOf (wordOf f) = f := by
  have hop : (wordOf f).extractLsb' 12 4 = f.op := by
    rw [wordOf, BitVec.extractLsb'_append_eq_of_le (by decide), BitVec.extractLsb'_append_eq_left]
  have ha : (wordOf f).extractLsb' 8 4 = f.a := by
    rw [wordOf, BitVec.extractLsb'_append_eq_of_le (by decide), BitVec.extractLsb'_append_eq_right]
  have hd : (wordOf f).extractLsb' 0 8 = f.d := BitVec.extractLsb'_append_eq_right
  rw [fieldsOf, hop, ha, hd]

@[simp] theorem wordOf_fieldsOf (w : CommandWord) : wordOf (fieldsOf w) = w := by
  have hhigh : w.extractLsb' 12 4 ++ w.extractLsb' 8 4 = w.extractLsb' 8 8 :=
    BitVec.extractLsb'_append_extractLsb'_eq_extractLsb' rfl
  rw [wordOf, fieldsOf, hhigh]
  exact BitVec.extractLsb'_append_extractLsb'

theorem Fields.eq_iff {f g : Fields} : f = g ↔ f.op = g.op ∧ f.a = g.a ∧ f.d = g.d := by
  cases f
  cases g
  exact Fields.mk.injEq .. |>.to_iff

theorem wordOf_inj {f g : Fields} : wordOf f = wordOf g ↔ f = g :=
  Function.LeftInverse.injective fieldsOf_wordOf |>.eq_iff

/-- The fields as quotient and remainder of the number `w` (R81). -/
theorem toNat_fieldsOf (w : CommandWord) :
    (fieldsOf w).op.toNat = w.toNat / 4096 ∧ (fieldsOf w).a.toNat = w.toNat / 256 % 16 ∧
      (fieldsOf w).d.toNat = w.toNat % 256 := by
  have hlt := w.isLt
  simp only [fieldsOf, BitVec.extractLsb'_toNat, Nat.shiftRight_eq_div_pow, pow_zero, Nat.div_one, and_true]
  omega

/-! ### The must-be-zero checks (R72) -/

section Checks

variable {f : Fields} {i j : Instr}

theorem needZeroA_eq_ok_iff : needZeroA f j = .ok i ↔ f.a = 0 ∧ j = i := by
  by_cases h : f.a = 0#4 <;> simp [needZeroA, h]

theorem needZeroD_eq_ok_iff : needZeroD f j = .ok i ↔ f.d = 0 ∧ j = i := by
  by_cases h : f.d = 0#8 <;> simp [needZeroD, h]

theorem needZeroAD_eq_ok_iff : needZeroAD f j = .ok i ↔ f.a = 0 ∧ f.d = 0 ∧ j = i := by
  by_cases h : f.a = 0#4 <;> simp [needZeroAD, h, needZeroD_eq_ok_iff]

theorem toOption_needZeroA : (needZeroA f j).toOption = if f.a = 0 then some j else none :=
  apply_ite Except.toOption _ _ _

theorem toOption_needZeroD : (needZeroD f j).toOption = if f.d = 0 then some j else none :=
  apply_ite Except.toOption _ _ _

theorem toOption_needZeroAD : (needZeroAD f j).toOption = if f.a = 0 ∧ f.d = 0 then some j else none := by
  rw [ite_and, ← toOption_needZeroD]
  exact apply_ite Except.toOption _ _ _

end Checks

/-! ### The decoder -/

/-- The decoder accepts the fields of every command. -/
theorem decodeFields_fields (i : Instr) : decodeFields i.fields = .ok i := by
  cases i <;> rfl

/-- The decoder answers a command on no other fields than the command's own: no field is dropped (R76). -/
theorem fields_of_decodeFields {f : Fields} {i : Instr} (h : decodeFields f = .ok i) : i.fields = f := by
  unfold decodeFields at h
  split at h
  case h_1 hop =>
    obtain ⟨hd, rfl⟩ := needZeroD_eq_ok_iff.mp h
    exact Fields.eq_iff.mpr ⟨(BitVec.eq_of_toNat_eq hop).symm, rfl, hd.symm⟩
  case h_3 hop | h_5 hop =>
    obtain ⟨ha, rfl⟩ := needZeroA_eq_ok_iff.mp h
    exact Fields.eq_iff.mpr ⟨(BitVec.eq_of_toNat_eq hop).symm, ha.symm, rfl⟩
  case h_2 hop | h_4 hop | h_6 hop =>
    obtain ⟨ha, hd, rfl⟩ := needZeroAD_eq_ok_iff.mp h
    exact Fields.eq_iff.mpr ⟨(BitVec.eq_of_toNat_eq hop).symm, ha.symm, hd.symm⟩
  case h_7 => cases h

theorem decode_encode (i : Instr) : decode (encode i) = .ok i := by
  rw [decode, encode, fieldsOf_wordOf, decodeFields_fields]

/-- A word decodes to a command exactly when its fields are the command's. -/
theorem decode_eq_ok_iff {w : CommandWord} {i : Instr} : decode w = .ok i ↔ fieldsOf w = i.fields :=
  ⟨fun h => (fields_of_decodeFields h).symm, fun h => by rw [decode, h, decodeFields_fields]⟩

/-! ### The opcode map (R74) -/

/-- The mask of a format: ones where the word must agree with the match bits, zeros at the operand (R72, R74). -/
def Format.maskFields : Format → Fields
  | .I => ⟨.allOnes 4, 0, .allOnes 8⟩
  | .B => ⟨.allOnes 4, .allOnes 4, 0⟩
  | .Z => ⟨.allOnes 4, .allOnes 4, .allOnes 8⟩

/-- The row of the opcode map for an opcode of the given format. -/
def Format.row (fmt : Format) (name : String) (op : BitVec 4) : OpcodeRow :=
  ⟨name, wordOf ⟨op, 0, 0⟩, wordOf fmt.maskFields⟩

@[simp] theorem mnemonic_row (fmt : Format) (name : String) (op : BitVec 4) : (fmt.row name op).mnemonic = name := rfl

/-- The match bits and masks of R74 are those of the opcodes and formats of R72. -/
theorem opcodeMap_eq_rows : opcodeMap =
    [Format.I.row "INIT" 1, Format.Z.row "RESET" 2, Format.B.row "UPDATE" 3, Format.Z.row "DIGEST" 4,
      Format.B.row "RDOUT" 5, Format.Z.row "RDSTAT" 6] := by
  decide

theorem and_wordOf (w : CommandWord) (m : Fields) :
    w &&& wordOf m = wordOf ⟨(fieldsOf w).op &&& m.op, (fieldsOf w).a &&& m.a, (fieldsOf w).d &&& m.d⟩ := by
  conv_lhs => rw [← wordOf_fieldsOf w]
  exact BitVec.and_append.trans (congrArg (· ++ _) BitVec.and_append)

/-- A row selects the words with its opcode that its format accepts. -/
theorem row_selects_iff (fmt : Format) (name : String) (op : BitVec 4) (w : CommandWord) :
    (fmt.row name op).selects w = true ↔
      (fieldsOf w).op = op ∧ fmt.accepts (fieldsOf w).a (fieldsOf w).d = true := by
  rw [OpcodeRow.selects, beq_iff_eq, Format.row, and_wordOf, wordOf_inj, Fields.eq_iff]
  cases fmt <;> simp only [Format.maskFields, Format.accepts, BitVec.and_allOnes, beq_iff_eq, Bool.and_eq_true] <;> simp

/-- A command with a property, one disjunct for each row of the opcode map. -/
theorem exists_instr_iff {p : Instr → Prop} :
    (∃ i, p i) ↔ (∃ a, p (.init a)) ∨ p .reset ∨ (∃ d, p (.update d)) ∨ p .digest ∨ (∃ d, p (.rdout d)) ∨ p .rdstat := by
  constructor
  · rintro ⟨i, h⟩
    cases i with
    | init a => exact .inl ⟨a, h⟩
    | reset => exact .inr (.inl h)
    | update d => exact .inr (.inr (.inl ⟨d, h⟩))
    | digest => exact .inr (.inr (.inr (.inl h)))
    | rdout d => exact .inr (.inr (.inr (.inr (.inl ⟨d, h⟩))))
    | rdstat => exact .inr (.inr (.inr (.inr (.inr h))))
  · rintro (⟨a, h⟩ | h | ⟨d, h⟩ | h | ⟨d, h⟩ | h) <;> exact ⟨_, h⟩

end Sys2Proof

namespace Sys2Proof.Proofs

/-- Settles O1: the fields of the word are the command's, and the decoder accepts them. -/
theorem decodeEncodeRoundTrip : Obligations.DecodeEncodeRoundTrip := fun i _ => decode_encode i

/-- Settles O2: the command has the word's fields, and the fields are the whole word. -/
theorem encodeDecodeRoundTrip : Obligations.EncodeDecodeRoundTrip := by
  intro w i h
  rw [encode, ← decode_eq_ok_iff.mp h, wordOf_fieldsOf]

/-- Settles O3: `op`, `a`, `d` are the fields of `w`; then one case for each row of the procedure. -/
theorem decodingProcedure : Obligations.DecodingProcedure := by
  intro w
  obtain ⟨hop, ha, hd⟩ := toNat_fieldsOf w
  rw [decode, ← hop, ← ha, ← hd]
  generalize fieldsOf w = f
  have hacheck : f.a.toNat = 0 ↔ f.a = 0 := BitVec.toNat_inj (y := 0)
  have hdcheck : f.d.toNat = 0 ↔ f.d = 0 := BitVec.toNat_inj (y := 0)
  simp only [hacheck, hdcheck, BitVec.ofNat_toNat, BitVec.setWidth_eq]
  unfold decodeFields
  split
  case h_7 _ h1 h2 h3 h4 h5 h6 =>
    rw [if_neg (h1 ·.1), if_neg (h2 ·.1), if_neg (h3 ·.1), if_neg (h4 ·.1), if_neg (h5 ·.1), if_neg (h6 ·.1)]
    rfl
  all_goals next hrow => simp [hrow, toOption_needZeroA, toOption_needZeroD, toOption_needZeroAD]

/-- Settles O4: the masks and bits as fields; a row selects the words whose fields are those of a command with its mnemonic. -/
theorem opcodeMapSelectsTheCommand : Obligations.OpcodeMapSelectsTheCommand := by
  refine ⟨by decide, fun w r hr => ?_⟩
  simp only [opcodeMap_eq_rows, List.mem_cons, List.not_mem_nil, or_false] at hr
  simp only [decode_eq_ok_iff, exists_instr_iff]
  rcases hr with rfl | rfl | rfl | rfl | rfl | rfl <;>
    simp [row_selects_iff, Fields.eq_iff, Format.accepts, mnemonicOf, Instr.fields]

/-- Settles O5: the decoder evaluated on the words. -/
theorem sampleWordsDecode : Obligations.SampleWordsDecode := by
  refine ⟨?_, ?_, ?_, ?_, ?_, ?_, ?_, ?_⟩ <;> decide

end Sys2Proof.Proofs
end

section
/-! PROOFS. A command word on the port, and the response that each command and each reserved word gives (R70, R78). -/

namespace Sys2Proof.Machine

/-! ### A command word on the port -/

/-- A word on the port is taken from it and run (R70). -/
theorem step_of_port_command {s : State} {w : CommandWord} {rest : List HostEvent} (h : s.port = .command w :: rest) :
    step s = runWord w (withPort rest s) := by
  rw [step, nextEvent_cons h]

theorem runWord_of_decode_ok {w : CommandWord} {i : Instr} (h : decode w = .ok i) (s : State) :
    runWord w s = exec i s := by
  rw [runWord, h]

theorem runWord_of_decode_error {w : CommandWord} {r : Reserved} (h : decode w = .error r) (s : State) :
    runWord w s = .next (reservedWord s) := by
  rw [runWord, h]

/-! ### Responses -/

/-- The response reports the status after the command, with `err` set exactly in phase `ERROR` (R78). -/
def AnswersStatus (t : State) : Prop := t.response = some ⟨decide (t.phase = .error), statusWord t⟩

theorem answersStatus_respond (s : State) : AnswersStatus (respond s) := rfl

theorem answersStatus_raise (e : ErrCause) (s : State) : AnswersStatus (raise e s) := rfl

theorem answersStatus_reservedWord (s : State) : AnswersStatus (reservedWord s) := by
  obtain ⟨-, h⟩ | ⟨-, h⟩ := reservedWord_cases s
  · exact h ▸ answersStatus_respond s
  · exact h ▸ answersStatus_raise .illcmd s

/-- Only `RDOUT` answers anything but the status. -/
theorem answersStatus_of_effect {i : Instr} {s t : State} (h : Effect i s t) (hi : ∀ d, i ≠ .rdout d) :
    AnswersStatus t := by
  cases h with
  | read => exact absurd rfl (hi _)
  | configError | bind | rearm | accept | store | raised | answered => exact answersStatus_respond _

/-- `RDOUT` either answers the byte and leaves the phase `DONE`, or answers the status in phase `ERROR` (R96). -/
theorem rdout_answers {d : BitVec 8} {s t : State} (h : exec (.rdout d) s = .next t) :
    (s.phase = .done ∧ t = respondByte (outByte s d.toNat) s) ∨ (t.phase = .error ∧ AnswersStatus t) := by
  obtain ⟨hp, ⟨⟩⟩ | ⟨-, ⟨⟩⟩ | ⟨-, -, ⟨⟩⟩ | ⟨-, -, -, -, ⟨⟩⟩ | ⟨-, hp, -, -, ⟨⟩⟩ := execRdout_cases h
  · exact .inr ⟨hp, answersStatus_respond s⟩
  · exact .inr ⟨rfl, answersStatus_raise .misuse s⟩
  · exact .inr ⟨rfl, answersStatus_raise .illcmd s⟩
  · exact .inl ⟨hp, rfl⟩

end Sys2Proof.Machine

namespace Sys2Proof.Proofs

open Sys2Proof.Machine

/-- Settles O6: the step takes the word from the port and runs it, and running it is the command it decodes to. -/
theorem stepRunsTheDecodedCommand : Obligations.StepRunsTheDecodedCommand := by
  intro s w rest i hport hdecode _
  rw [step_of_port_command hport, runWord_of_decode_ok hdecode]
  rfl

/-- Settles O14: every effect answers the status, but for the byte that a successful `RDOUT` answers. -/
theorem everyCommandResponds : Obligations.EveryCommandResponds := by
  refine ⟨fun i s t hexec => ?command, fun s t w rest r hport hdecode hstep => ?reserved⟩
  case command =>
    by_cases hi : ∃ d, i = .rdout d
    · obtain ⟨d, rfl⟩ := hi
      obtain ⟨hp, rfl⟩ | ⟨hp, hanswer⟩ := rdout_answers hexec
      · have hopen : (respondByte (outByte s d.toNat) s).phase ≠ .error := by simp [hp]
        refine ⟨zext16 (outByte s d.toNat), by simp [hp], ?_, fun herror => absurd (herror d rfl) hopen⟩
        rintro _ ⟨⟩ -
        rfl
      · exact ⟨_, hanswer, fun _ _ hne => absurd hp hne, fun _ => rfl⟩
    · have hne : ∀ d, i ≠ .rdout d := fun d hd => hi ⟨d, hd⟩
      exact ⟨_, answersStatus_of_effect (effect_of_exec hexec) hne, fun d hd => absurd hd (hne d), fun _ => rfl⟩
  case reserved =>
    rw [step_of_port_command hport, runWord_of_decode_error hdecode] at hstep
    cases hstep
    exact answersStatus_reservedWord _

end Sys2Proof.Proofs
end

section
/-! PROOFS. The digest has exactly `OB` bytes (R101, R145): the length of what each family's `FINALIZE` answers. -/

namespace Sys2Proof.Machine

/-- A fold whose step keeps the length of the state keeps it. -/
theorem length_foldl_of_step {α β : Type} {n : Nat} {f : List α → β → List α}
    (hf : ∀ s x, s.length = n → (f s x).length = n) (xs : List β) {s : List α} (hs : s.length = n) :
    (xs.foldl f s).length = n :=
  List.foldlRecOn xs f (motive := fun s => s.length = n) hs fun s hs x _ => hf s x hs

/-! ### Groestl -/

/-- A matrix of `nc` columns of eight bytes (R190). -/
def IsMatrix (nc : Nat) (A : Columns) : Prop := A.length = nc ∧ ∀ col ∈ A, col.length = 8

theorem isMatrix_groestlToMatrix (nc : Nat) (x : Bytes) : IsMatrix nc (groestlToMatrix nc x) := by
  simp [IsMatrix, groestlToMatrix]

/-- A round rebuilds the whole matrix, whatever it is given. -/
theorem isMatrix_groestlRound (nc : Nat) (kind : GroestlKind) (A : Columns) (r : Nat) :
    IsMatrix nc (groestlRound nc kind A r) := by
  simp [IsMatrix, groestlRound, groestlMix, groestlShift]

theorem length_groestlFromMatrix {nc : Nat} {A : Columns} (h : IsMatrix nc A) :
    (groestlFromMatrix A).length = 8 * nc := by
  obtain ⟨hcols, hrows⟩ := h
  rw [groestlFromMatrix, List.length_flatten, List.map_congr_left hrows, List.map_const', List.sum_replicate, hcols,
    smul_eq_mul, Nat.mul_comm]

@[simp] theorem length_groestlPerm (nc : Nat) (kind : GroestlKind) (x : Bytes) :
    (groestlPerm nc kind x).length = 8 * nc :=
  length_groestlFromMatrix <| List.foldlRecOn _ _ (motive := IsMatrix nc) (isMatrix_groestlToMatrix nc x)
    fun A _ r _ => isMatrix_groestlRound nc kind A r

theorem length_groestlCompress {nc : Nat} {h : Bytes} (hh : h.length = 8 * nc) (m : Bytes) :
    (groestlCompress nc h m).length = 8 * nc := by
  simp [groestlCompress, hh]

theorem length_groestlFinalize {nc ob : Nat} {h : Bytes} (hh : h.length = 8 * nc) (hob : ob ≤ 8 * nc) (tail : Bytes)
    (n : Nat) : (groestlFinalize nc ob h tail n).length = ob := by
  have hfold : ((groestlPad (8 * nc) tail n).foldl (groestlCompress nc) h).length = 8 * nc :=
    length_foldl_of_step (fun _ m h => length_groestlCompress h m) _ hh
  rw [groestlFinalize, groestlOutput, List.length_drop, length_xorList, length_groestlPerm, hfold, Nat.min_self,
    Nat.sub_sub_self hob]

/-! ### SHAvite-3 -/

/-- A Feistel round keeps the eight words of the state (R257). -/
theorem length_shaviteRound (rk : List (BitVec 32)) {p : List (BitVec 32)} (hp : p.length = 8) (t : Nat) :
    (shaviteRound rk p t).length = 8 := by
  unfold shaviteRound
  split <;> simp [shaviteF3, hp]

theorem length_shaviteC256 {h : List (BitVec 32)} (hh : h.length = 8) (block : Bytes) (cnt : BitVec 64) :
    (shaviteC256 h block cnt).length = 8 := by
  have hcipher (rk : List (BitVec 32)) : (shaviteE256 h rk).length = 8 :=
    length_foldl_of_step (fun _ t hp => length_shaviteRound rk hp t) _ hh
  rw [shaviteC256, length_xorList, hh, hcipher, Nat.min_self]

theorem length_shaviteFinalize {ob : Nat} {h : List (BitVec 32)} (hh : h.length = 8) (hob : ob ≤ 32) (tail : Bytes)
    (n : Nat) : (shaviteFinalize ob h tail n).length = ob := by
  have hfold (blocks : List (Bytes × BitVec 64)) :
      (blocks.foldl (fun h b => shaviteC256 h b.1 b.2) h).length = 8 :=
    length_foldl_of_step (by exact fun _ b hs => length_shaviteC256 hs b.1 b.2) blocks hh
  rw [shaviteFinalize, List.length_take, length_unwords, hfold]
  exact Nat.min_eq_left hob

/-! ### BMW -/

/-- The words of the digest, each of `w / 8` bytes (R179). -/
theorem length_bmwFinalize (w ob : Nat) (H : List (BitVec w)) (tail : Bytes) (n : Nat) :
    (bmwFinalize w ob H tail n).length = (16 - (16 - 8 * ob / w)) * (w / 8) := by
  rw [bmwFinalize, length_unwords, List.length_drop, bmwFinished, length_bmwFinal]

/-! ### Every valid descriptor -/

/-- The columns of R9 that fix the length of the digest, by family. -/
structure Descriptor.DigestSizesOk (D : Descriptor) : Prop where
  bmw : D.family = .bmw → (16 - (16 - 8 * D.ob / D.w)) * (D.w / 8) = D.ob
  groestl : D.family = .groestl → D.sb = 8 * (D.bs / 8) ∧ D.ob ≤ 8 * (D.bs / 8)
  shavite : D.family = .shavite → D.ob ≤ 32

theorem digestSizesOk_of_mem_descriptorRom {D : Descriptor} (h : some D ∈ descriptorRom) : D.DigestSizesOk := by
  have rows : ∀ r ∈ descriptorRom, ∀ D ∈ r,
      (D.family = .bmw → (16 - (16 - 8 * D.ob / D.w)) * (D.w / 8) = D.ob) ∧
        (D.family = .groestl → D.sb = 8 * (D.bs / 8) ∧ D.ob ≤ 8 * (D.bs / 8)) ∧
          (D.family = .shavite → D.ob ≤ 32) := by decide
  obtain ⟨hbmw, hgroestl, hshavite⟩ := rows _ h D rfl
  exact ⟨hbmw, hgroestl, hshavite⟩

/-- The digest has exactly `OB` bytes, whatever the state, the tail and the length. -/
theorem length_finalize {D : Descriptor} (hD : D.DigestSizesOk) (h : BitVec 1024) (tail : Bytes) (n : Nat) :
    (finalize D h tail n).length = D.ob := by
  unfold finalize
  cases hf : D.family with
  | bmw => exact (length_bmwFinalize ..).trans (hD.bmw hf)
  | groestl =>
    obtain ⟨hsb, hob⟩ := hD.groestl hf
    exact length_groestlFinalize ((length_hElems ..).trans hsb) hob tail n
  | jh => simp [jhFinalize]
  | shavite => exact length_shaviteFinalize (length_hElems ..) (hD.shavite hf) tail n

end Sys2Proof.Machine
end

section
/-! PROOFS. Sequences of commands as a host issues them (R80, R99): the responses to a sequence are those of its parts, and
what the parts of `HASH` answer. -/

namespace Sys2Proof.Machine

theorem updateAll_append (m x : Bytes) : updateAll (m ++ x) = updateAll m ++ updateAll x := List.map_append

/-- Bytes cut into chunks expand to the same commands (R100). -/
theorem updateAll_flatten (chunks : List Bytes) : updateAll chunks.flatten = chunks.flatMap updateAll := by
  induction chunks with
  | nil => rfl
  | cons c chunks ih => rw [List.flatten_cons, updateAll_append, ih, List.flatMap_cons]

/-! ### The responses to a sequence -/

theorem hostRun_cons {i : Instr} {is : List Instr} {s t u : State} {rs : List Response} (hexec : exec i s = .next t)
    (hrest : hostRun is t = .next (rs, u)) : hostRun (i :: is) s = .next (t.response.toList ++ rs, u) := by
  simp only [hostRun, hexec, hrest]

/-- A sequence that is answered starts with a command that goes on to the rest. -/
theorem hostRun_cons_eq_next {i : Instr} {is : List Instr} {s u : State} {rs : List Response}
    (h : hostRun (i :: is) s = .next (rs, u)) :
    ∃ t qs, exec i s = .next t ∧ hostRun is t = .next (qs, u) ∧ rs = t.response.toList ++ qs := by
  unfold hostRun at h
  split at h
  next t hexec =>
    split at h
    next qs v hrest =>
      cases h
      exact ⟨t, qs, hexec, hrest, rfl⟩
    all_goals cases h
  all_goals cases h

/-- A sequence is answered by the answers to its first part, then those to the second. -/
theorem hostRun_append {is js : List Instr} {s t u : State} {rs qs : List Response}
    (hfirst : hostRun is s = .next (rs, t)) (hsecond : hostRun js t = .next (qs, u)) :
    hostRun (is ++ js) s = .next (rs ++ qs, u) := by
  induction is generalizing s rs with
  | nil => cases hfirst; exact hsecond
  | cons i is ih =>
    obtain ⟨v, ps, hexec, hrest, rfl⟩ := hostRun_cons_eq_next hfirst
    rw [List.append_assoc]
    exact hostRun_cons hexec (ih hrest)

/-- A command that answers its status outside phase `ERROR` answers with no error (R78). -/
theorem response_respond_of_ne_error {s : State} (hp : s.phase ≠ .error) :
    (respond s).response = some ⟨false, statusWord s⟩ := by
  simp [hp]

/-! ### Reading the digest -/

/-- In phase `DONE` an index below `OB` is answered with the digest byte (R96). -/
theorem exec_rdout_of_done {s : State} {D : Descriptor} {d : BitVec 8} (hp : s.phase = .done)
    (hD : boundDescriptor s = some D) (hd : d.toNat < D.ob) :
    exec (.rdout d) s = .next (respondByte (outByte s d.toNat) s) := by
  simp [exec, execRdout, rdoutDone, hp, hD, indexInDigest, hd]

/-- Reads of `OUT` at indices below `OB` answer its bytes in order (R80, R96). -/
theorem hostRun_rdout {D : Descriptor} (hob : D.ob ≤ 64) {s : State} (hp : s.phase = .done)
    (hD : boundDescriptor s = some D) {is : List Nat} (his : ∀ i ∈ is, i < D.ob) :
    ∃ u, hostRun (is.map fun i => .rdout (BitVec.ofNat 8 i)) s =
      .next (is.map fun i => ⟨false, zext16 (outByte s i)⟩, u) := by
  induction is generalizing s with
  | nil => exact ⟨s, rfl⟩
  | cons i is ih =>
    obtain ⟨hi, his⟩ := List.forall_mem_cons.mp his
    have hindex : (BitVec.ofNat 8 i).toNat = i := Nat.mod_eq_of_lt (by omega)
    have hexec := exec_rdout_of_done hp hD (d := BitVec.ofNat 8 i) (by omega)
    rw [hindex] at hexec
    obtain ⟨u, hrest⟩ := ih (s := respondByte (outByte s i) s) hp hD his
    exact ⟨u, hostRun_cons hexec hrest⟩

end Sys2Proof.Machine

namespace Sys2Proof.Safety

open Sys2Proof.Machine

section Absorbing

variable {D : Descriptor} {m : Bytes} {s : State}

/-- The digest taken from a state is the hash of the message it has absorbed (R95, R101). -/
theorem Absorbed.digestBytes_eq (h : Absorbed D m s) : digestBytes D s = hashOf D m := by
  rw [digestBytes, hashOf, h.chain, h.tail, msgbits, h.len_add_cur]

theorem Absorbed.exec_digest (h : Absorbed D m s) : exec .digest s = .next (respond (storeDigest D s)) := by
  simp [exec, execDigest, digestActive, h.active, h.descriptor, h.cur_lt]

theorem Absorbed.length_hashOf (h : Absorbed D m s) : (hashOf D m).length = D.ob :=
  length_finalize (digestSizesOk_of_mem_descriptorRom (descriptorOf_mem h.descriptor)) ..

/-- After `DIGEST` the first `OB` bytes of `OUT` are the hash of the message (R36, R95). -/
theorem Absorbed.map_outByte_storeDigest (h : Absorbed D m s) :
    (List.range D.ob).map (outByte (storeDigest D s)) = hashOf D m := by
  have hlen := h.length_hashOf
  refine List.ext_getElem (by simp [hlen]) fun i hi hi' => ?_
  have hob := h.sizesOk.output
  rw [List.getElem_map, List.getElem_range, outByte, storeDigest_out, h.digestBytes_eq, toList_writeOut _ (by omega),
    List.getD_append _ _ _ _ hi', List.getD_eq_getElem _ _ hi']

/-- The bytes of a message are taken one after another, each with no error (R80, R94). -/
theorem Absorbed.hostRun_updateAll (h : Absorbed D m s) {x : Bytes}
    (hroom : 8 * (m ++ x).length < Config.messageBitLimit) :
    ∃ rs t, hostRun (updateAll x) s = .next (rs, t) ∧ Absorbed D (m ++ x) t ∧ rs.length = x.length ∧
      ∀ r ∈ rs, r.err = false := by
  induction x generalizing m s with
  | nil => exact ⟨[], s, rfl, (List.append_nil m).symm ▸ h, rfl, nofun⟩
  | cons d x ih =>
    have hbyte : 8 * (m.length + 1) < Config.messageBitLimit := by
      rw [List.length_append, List.length_cons] at hroom
      omega
    have haccept := h.accept d hbyte
    rw [List.append_cons] at hroom ⊢
    obtain ⟨rs, t, hrun, habsorbed, hlen, herr⟩ := ih (absorbed_respond haccept) hroom
    have hresponse := response_respond_of_ne_error (s := acceptByte D d s) (by rw [haccept.active]; decide)
    refine ⟨_, t, hostRun_cons (h.exec_update d hbyte) hrun, habsorbed, ?_, ?_⟩
    · rw [hresponse]
      simp [hlen]
    · rw [hresponse]
      simpa using herr

/-- `DIGEST` and the reads of all digest bytes: the status, then the bytes of the hash (R80, R95, R96). -/
theorem Absorbed.hostRun_digest (h : Absorbed D m s) :
    ∃ r u, r.err = false ∧
      hostRun (.digest :: rdoutAll D.ob) s = .next (r :: (hashOf D m).map (fun b => ⟨false, zext16 b⟩), u) := by
  have hD : boundDescriptor (respond (storeDigest D s)) = some D := h.descriptor
  obtain ⟨u, hreads⟩ := hostRun_rdout h.sizesOk.output rfl hD (is := List.range D.ob) fun _ => List.mem_range.mp
  have hbytes : (List.range D.ob).map (fun i => (⟨false, zext16 (outByte (storeDigest D s) i)⟩ : Response)) =
      (hashOf D m).map fun b => ⟨false, zext16 b⟩ := by
    rw [← h.map_outByte_storeDigest, List.map_map]
    rfl
  exact ⟨_, u, rfl, hbytes ▸ hostRun_cons h.exec_digest hreads⟩

end Absorbing

end Sys2Proof.Safety

namespace Sys2Proof.Proofs

open Sys2Proof.Machine Sys2Proof.Safety

/-- Settles O37: each call by definition, and `UPDATE.S` of the joined chunks. -/
theorem chunkSizeIndependence : Obligations.ChunkSizeIndependence :=
  ⟨fun _ _ => ⟨rfl, rfl, rfl, rfl, fun _ => rfl⟩, fun _ chunks => (updateAll_flatten chunks).symm⟩

/-- Settles O36: `INIT` leaves the state that has absorbed nothing, the `UPDATE`s carry it to the message, and `DIGEST` and
the reads answer the hash. -/
theorem hashCommandsAnswerTheHash : Obligations.HashCommandsAnswerTheHash := by
  intro a D m s hD hm
  have hinit : exec (.init a) s = .next (respond (makeVirgin D (bindAlg a s))) := by
    simp only [exec, execInit, operandDescriptor, hD]
  have hvirgin : Absorbed D [] (respond (makeVirgin D (bindAlg a s))) := absorbed_respond (absorbed_makeVirgin rfl hD)
  obtain ⟨rs, t, hupdates, habsorbed, hlen, herr⟩ := hvirgin.hostRun_updateAll (x := m) hm
  obtain ⟨r, u, hr, hdigest⟩ := habsorbed.hostRun_digest
  rw [List.nil_append] at hdigest
  have hrun := hostRun_cons hinit (hostRun_append hupdates hdigest)
  rw [response_respond_of_ne_error (s := makeVirgin D (bindAlg a s)) nofun] at hrun
  refine ⟨_, u, hrun, ?noError, ?data⟩
  case noError =>
    intro q hq
    simp only [Option.toList_some, List.singleton_append, List.mem_cons, List.mem_append, List.mem_map] at hq
    obtain rfl | hq | rfl | ⟨b, -, rfl⟩ := hq
    · rfl
    · exact herr q hq
    · exact hr
    · rfl
  case data =>
    have hbefore (q q' : Response) (qs : List Response) : (q :: (rs ++ q' :: qs)).drop (m.length + 2) = qs := by
      simp [← hlen, List.drop_append]
    rw [Option.toList_some, List.singleton_append, hbefore, List.map_map]
    rfl

end Sys2Proof.Proofs
end

section
/-! PROOFS. The word of a command (R71 to R74). -/

namespace Sys2Proof

/-- The three fields at their places in the word (R71). -/
theorem wordOf_eq_or (f : Fields) :
    wordOf f = f.op.setWidth 16 <<< 12 ||| f.a.setWidth 16 <<< 8 ||| f.d.setWidth 16 := by
  rw [← BitVec.setWidth_eq (wordOf f), wordOf, BitVec.setWidth_append_eq_shiftLeft_setWidth_or,
    BitVec.setWidth_append_eq_shiftLeft_setWidth_or, BitVec.shiftLeft_or_distrib, ← BitVec.shiftLeft_add]

/-- The word of format B, whose operand is the field `D` (R72). -/
theorem wordOf_operandD (op : BitVec 4) (d : BitVec 8) :
    wordOf ⟨op, 0, d⟩ = op.setWidth 16 <<< 12 ||| d.setWidth 16 :=
  (wordOf_eq_or _).trans (congrArg (· ||| d.setWidth 16) BitVec.or_zero)

theorem encode_init (a : BitVec 4) : encode (.init a) = 0x1000#16 ||| a.setWidth 16 <<< 8 :=
  (wordOf_eq_or _).trans BitVec.or_zero

theorem encode_update (d : BitVec 8) : encode (.update d) = 0x3000#16 ||| d.setWidth 16 := wordOf_operandD 3 d

theorem encode_rdout (d : BitVec 8) : encode (.rdout d) = 0x5000#16 ||| d.setWidth 16 := wordOf_operandD 5 d

end Sys2Proof
end

section
/-! PROOFS. The valid codes (R92): a code is valid exactly when it names a row of the ROM. -/

namespace Sys2Proof.Machine

/-- Every code that the narrow parameter value allows, the wide one allows (R92). -/
theorem validAlg_true_of_validAlg {wide : Bool} {a : BitVec 4} (h : validAlg wide a = true) : validAlg true a = true := by
  revert wide a
  decide

/-- A valid code names a row that is not reserved (R33, R92). -/
theorem exists_row_of_validAlg {wide : Bool} {a : BitVec 4} (h : validAlg wide a = true) :
    ∃ D, descriptorOf wide a = some D := by
  have rows : ∀ a, validAlg true a = true → (descriptorRom.getD a.toNat none).isSome = true := by decide
  rw [descriptorOf_of_validAlg h, ← Option.isSome_iff_exists]
  exact rows a (validAlg_true_of_validAlg h)

theorem isSome_descriptorOf_iff {wide : Bool} {a : BitVec 4} :
    (descriptorOf wide a).isSome = true ↔ a.toNat ∈ validAlgs wide := by
  rw [← List.contains_iff_mem, ← validAlg]
  by_cases h : validAlg wide a = true
  · obtain ⟨D, hD⟩ := exists_row_of_validAlg h
    simp [hD, h]
  · simp [descriptorOf_of_not_validAlg h, h]

/-- The row of the ROM at a code that names a descriptor (R33). -/
theorem getElem?_descriptorRom_of_descriptorOf {wide : Bool} {a : BitVec 4} {D : Descriptor}
    (h : descriptorOf wide a = some D) : descriptorRom[a.toNat]? = some (some D) := by
  have hvalid : validAlg wide a = true := by
    by_contra hne
    cases (descriptorOf_of_not_validAlg hne).symm.trans h
  have ha : a.toNat < descriptorRom.length := a.isLt
  rw [descriptorOf_of_validAlg hvalid, List.getD_eq_getElem _ _ ha] at h
  rw [List.getElem?_eq_getElem ha, h]

end Sys2Proof.Machine

namespace Sys2Proof.Proofs

open Sys2Proof.Machine

/-- Settles O17: a code names a descriptor exactly when `VALID_ALG` lists it, and then it is the code's row of the ROM. -/
theorem validCodes : Obligations.ValidCodes :=
  ⟨fun _ => ⟨isSome_descriptorOf_iff, isSome_descriptorOf_iff⟩, fun _ _ _ => getElem?_descriptorRom_of_descriptorOf⟩

/-- Settles O39: a valid code names a row of the ROM, whose sizes fix the length of the digest. -/
theorem digestLength : Obligations.DigestLength :=
  fun _ _ _ h tail n hD => length_finalize (digestSizesOk_of_mem_descriptorRom (descriptorOf_mem hD)) h tail n

end Sys2Proof.Proofs
end

section
/-! PROOFS. `INIT` and `RESET` (R91, R93): the next state of each, in full. -/

namespace Sys2Proof.Machine

/-- Outside phase `ERROR` the answer is the status, with no error (R78). -/
theorem respond_of_ne_error {s : State} (hp : s.phase ≠ .error) :
    respond s = { s with response := some ⟨false, statusWord s⟩ } := by
  rw [respond, decide_eq_false hp]

/-- In phase `ERROR` the answer is the status, with `err` set (R78, R286). -/
theorem respond_of_error {s : State} (hp : s.phase = .error) :
    respond s = { s with response := some ⟨true, statusWord s⟩ } := by
  rw [respond, decide_eq_true hp]

/-- Error entry from another phase writes the cause (R284). -/
theorem raise_of_ne_error {s : State} (e : ErrCause) (hp : s.phase ≠ .error) :
    raise e s = { s with
      phase := .error
      err := e
      response := some ⟨true, statusWord { s with phase := .error, err := e }⟩ } := by
  have hentry : enterError e s = { s with phase := .error, err := e } := by rw [enterError, if_neg hp]
  rw [raise, hentry]
  rfl

/-- `STATUS` in the virgin state of a bound descriptor: `ACTIVE`, bound, empty, no error (R31, R40). -/
theorem statusWord_makeVirgin (D : Descriptor) {s : State} (hc : s.cfgv = true) :
    statusWord (makeVirgin D s) = 0x0061#16 ||| s.alg.setWidth 16 <<< 8 := by
  have fields : ∀ a : BitVec 4,
      0#4 ++ a ++ 0#1 ++ BitVec.ofBool true ++ BitVec.ofBool true ++ ErrCause.none.code ++ Phase.active.code =
        0x0061#16 ||| a.setWidth 16 <<< 8 := by decide
  rw [← fields, statusWord, makeVirgin_cfgv, hc]
  rfl

/-- The virgin state of a bound descriptor with its answer (R40, R78). -/
theorem respond_makeVirgin (D : Descriptor) {s : State} (hc : s.cfgv = true) :
    respond (makeVirgin D s) =
      { makeVirgin D s with response := some ⟨false, 0x0061#16 ||| s.alg.setWidth 16 <<< 8⟩ } := by
  rw [respond_of_ne_error (s := makeVirgin D s) nofun, statusWord_makeVirgin D hc]

/-- `INIT` of a code that names a descriptor (R91). -/
theorem exec_init_of_some {a : BitVec 4} {s : State} {D : Descriptor} (hD : descriptorOf s.wideVariants a = some D) :
    exec (.init a) s = .next (respond (makeVirgin D (bindAlg a s))) := by
  simp only [exec, execInit, operandDescriptor, hD]

/-- `INIT` of a code that names none (R91, R281). -/
theorem exec_init_of_none {a : BitVec 4} {s : State} (hD : descriptorOf s.wideVariants a = none) :
    exec (.init a) s = .next (raiseConfig s) := by
  simp only [exec, execInit, operandDescriptor, hD]

/-- `RESET` with a descriptor bound (R93). -/
theorem exec_reset_of_bound {s : State} {D : Descriptor} (hc : s.cfgv = true) (hD : boundDescriptor s = some D) :
    exec .reset s = .next (respond (makeVirgin D s)) := by
  simp only [exec, execReset, hc, if_true, hD]

/-- `RESET` with none bound (R93, R283). -/
theorem exec_reset_of_unbound {s : State} (hc : s.cfgv = false) : exec .reset s = .next (raise .misuse s) := by
  simp [exec, execReset, hc]

/-- Binding the code that is bound changes nothing. -/
theorem bindAlg_alg_self {s : State} (hc : s.cfgv = true) : bindAlg s.alg s = s := by
  rw [bindAlg, ← hc]

end Sys2Proof.Machine

namespace Sys2Proof.Proofs

open Sys2Proof.Machine

/-- Settles O15: the two forms of `INIT`, and binding the bound code as no change. -/
theorem initBindsOrRaises : Obligations.InitBindsOrRaises := by
  refine ⟨encode_init, fun a s D hD => ?valid, fun a s hD => ?reserved, fun s D hc hD => ?rebind⟩
  case valid =>
    rw [exec_init_of_some hD, respond_makeVirgin D rfl]
    rfl
  case reserved => exact exec_init_of_none hD
  case rebind => rw [exec_init_of_some hD, bindAlg_alg_self hc, exec_reset_of_bound hc hD]

/-- Settles O16: the two forms of `RESET`. -/
theorem resetRearmsOrRaises : Obligations.ResetRearmsOrRaises := by
  refine ⟨rfl, fun s D hc hD => ?bound, fun s hc => ?unbound⟩
  case bound =>
    rw [exec_reset_of_bound hc hD, respond_makeVirgin D hc]
    rfl
  case unbound => exact exec_reset_of_unbound hc

end Sys2Proof.Proofs
end

section
/-! PROOFS. `UPDATE`, `DIGEST`, `RDOUT` and `RDSTAT` (R94 to R97): the next state of each, in full. -/

namespace Sys2Proof.Machine

/-! ### What each form of the commands does -/

/-- No message is being taken in `UNCONF` and `DONE` (R94, R283). -/
theorem exec_update_of_closed {s : State} (d : BitVec 8) (hp : s.phase = .unconf ∨ s.phase = .done) :
    exec (.update d) s = .next (raise .misuse s) := by
  rcases hp with hp | hp <;> simp only [exec, execUpdate, hp]

/-- At the length limit `UPDATE` takes no byte (R94, R282). -/
theorem exec_update_of_lengthExhausted {s : State} (d : BitVec 8) (hp : s.phase = .active)
    (hl : lengthExhausted s = true) : exec (.update d) s = .next (raise .lenovf s) := by
  simp only [exec, execUpdate, hp, updateActive, hl, if_true]

/-- Below the length limit `UPDATE` takes the byte (R94). -/
theorem exec_update_of_room {s : State} {D : Descriptor} (d : BitVec 8) (hp : s.phase = .active)
    (hD : boundDescriptor s = some D) (hcur : s.cur.toNat < D.bs) (hl : lengthExhausted s = false) :
    exec (.update d) s = .next (respond (acceptByte D d s)) := by
  simp [exec, execUpdate, updateActive, hp, hl, hD, hcur]

theorem exec_digest_of_closed {s : State} (hp : s.phase = .unconf ∨ s.phase = .done) :
    exec .digest s = .next (raise .misuse s) := by
  rcases hp with hp | hp <;> simp only [exec, execDigest, hp]

theorem exec_digest_of_active {s : State} {D : Descriptor} (hp : s.phase = .active)
    (hD : boundDescriptor s = some D) (hcur : s.cur.toNat < D.bs) :
    exec .digest s = .next (respond (storeDigest D s)) := by
  simp only [exec, execDigest, digestActive, hp, hD, hcur, if_true]

/-- There is no digest to read in `UNCONF` and `ACTIVE` (R96, R283). -/
theorem exec_rdout_of_noDigest {s : State} (d : BitVec 8) (hp : s.phase = .unconf ∨ s.phase = .active) :
    exec (.rdout d) s = .next (raise .misuse s) := by
  rcases hp with hp | hp <;> simp only [exec, execRdout, hp]

/-- An index past the digest (R96, R285). -/
theorem exec_rdout_of_ob_le {s : State} {D : Descriptor} {d : BitVec 8} (hp : s.phase = .done)
    (hD : boundDescriptor s = some D) (hd : D.ob ≤ d.toNat) : exec (.rdout d) s = .next (raise .illcmd s) := by
  simp [exec, execRdout, rdoutDone, hp, hD, indexInDigest, hd]

/-- Phase `ERROR` ignores the commands on messages and digests (R286). -/
theorem exec_update_of_error {s : State} (d : BitVec 8) (hp : s.phase = .error) :
    exec (.update d) s = .next (ignoreCommand s) := by
  simp only [exec, execUpdate, hp]

theorem exec_digest_of_error {s : State} (hp : s.phase = .error) : exec .digest s = .next (ignoreCommand s) := by
  simp only [exec, execDigest, hp]

theorem exec_rdout_of_error {s : State} (d : BitVec 8) (hp : s.phase = .error) :
    exec (.rdout d) s = .next (ignoreCommand s) := by
  simp only [exec, execRdout, hp]

/-! ### The byte stores as lists of bytes -/

/-- The start of a list, read byte by byte. -/
theorem take_eq_map_getD {α : Type} (x : α) {xs : List α} {n : Nat} (h : n ≤ xs.length) :
    xs.take n = (List.range n).map fun i => xs.getD i x := by
  refine List.ext_getElem (by simp [h]) fun i hi _ => ?_
  have hi : i < xs.length := by simp at hi; omega
  simp [hi]

/-- The tail, byte by byte (R35). -/
theorem tailBytes_eq_map_bufByte {s : State} (h : s.cur.toNat ≤ 128) :
    tailBytes s = (List.range s.cur.toNat).map (bufByte s) :=
  take_eq_map_getD 0 (by simpa using h)

/-- The block to dispatch, byte by byte (R142). -/
theorem fifoBlock_eq_map_bufByte {D : Descriptor} (s : State) (h : D.bs ≤ 128) :
    fifoBlock D s = (List.range D.bs).map (bufByte s) :=
  take_eq_map_getD 0 (by simpa using h)

/-- The digest takes the first `OB` bytes of `OUT` (R95). -/
theorem outByte_storeDigest_of_lt {D : Descriptor} (hD : D.SizesOk) (s : State) (hlen : (digestBytes D s).length = D.ob)
    {i : Nat} (hi : i < D.ob) : outByte (storeDigest D s) i = (digestBytes D s).getD i 0 := by
  have hob := hD.output
  rw [outByte, storeDigest_out, toList_writeOut _ (by omega), List.getD_append _ _ _ _ (by omega)]

theorem length_digestBytes {D : Descriptor} {s : State} (hD : boundDescriptor s = some D) :
    (digestBytes D s).length = D.ob :=
  length_finalize (digestSizesOk_of_mem_descriptorRom (descriptorOf_mem hD)) ..

/-! ### The byte that is taken -/

theorem fullFlag_fifoPush_iff {D : Descriptor} {d : Byte} {s : State} (h : s.cur.toNat < 128) :
    fullFlag D (fifoPush d s) = true ↔ s.cur.toNat + 1 = D.bs := by
  rw [fullFlag, toNat_cur_fifoPush d h, beq_iff_eq]

/-- A byte that does not fill the block is stored (R94). -/
theorem acceptByte_of_ne {D : Descriptor} (d : Byte) {s : State} (h : s.cur.toNat < 128)
    (hne : s.cur.toNat + 1 ≠ D.bs) : acceptByte D d s = fifoPush d s :=
  if_neg (mt (fullFlag_fifoPush_iff h).mp hne)

/-- A byte that fills the block is stored and the block dispatched (R94). -/
theorem acceptByte_of_eq {D : Descriptor} (d : Byte) {s : State} (h : s.cur.toNat < 128)
    (heq : s.cur.toNat + 1 = D.bs) : acceptByte D d s = dispatchBlock D (fifoPush d s) :=
  if_pos ((fullFlag_fifoPush_iff h).mpr heq)

end Sys2Proof.Machine

namespace Sys2Proof.Proofs

open Sys2Proof.Machine Sys2Proof.Safety

/-- Settles O19: the byte stored, the block dispatched, the length limit, and the closed phases. -/
theorem updateAppendsOrRaises : Obligations.UpdateAppendsOrRaises := by
  refine ⟨encode_update, fun d s D hp hD hcur hroom => ?store, fun d s D hp hD hcur hroom => ?dispatch,
    fun d s hp hlimit => ?limit, fun d s hp => ?closed⟩
  case store =>
    have hcur128 : s.cur.toNat < 128 := by have hbs := (sizesOk_of_boundDescriptor hD).bs_le; omega
    have hexec := exec_update_of_room d hp hD (by omega) ((lengthExhausted_eq_false_iff s).mpr hroom)
    rw [acceptByte_of_ne d hcur128 hcur.ne, respond_of_ne_error (by simp [hp])] at hexec
    exact ⟨_, hexec, fun i => bufByte_fifoPush d s i hcur128, toNat_cur_fifoPush d hcur128, rfl, rfl⟩
  case dispatch =>
    have hbs := (sizesOk_of_boundDescriptor hD).bs_le
    have hcur128 : s.cur.toNat < 128 := by omega
    have hexec := exec_update_of_room d hp hD (by omega) ((lengthExhausted_eq_false_iff s).mpr hroom)
    rw [acceptByte_of_eq d hcur128 hcur, respond_of_ne_error (by simp [hp])] at hexec
    have hchain := congrArg (compress D s.h · (s.len + BitVec.ofNat 64 (8 * D.bs)))
      (fifoBlock_eq_map_bufByte (fifoPush d s) hbs)
    exact ⟨_, hexec, fun i => bufByte_fifoPush d s i hcur128, rfl,
      toNat_len_dispatchBlock (s := fifoPush d s) (hcur ▸ hroom), hchain, rfl, rfl⟩
  case limit =>
    rw [exec_update_of_lengthExhausted d hp (decide_eq_true hlimit), raise_of_ne_error _ (by simp [hp])]
  case closed => rw [exec_update_of_closed d hp, raise_of_ne_error _ (fun herror => by simp [herror] at hp)]

/-- Settles O21: the digest of the snapshot in `OUT`, and the closed phases. -/
theorem digestStoresOrRaises : Obligations.DigestStoresOrRaises := by
  refine ⟨rfl, fun s D hp hD hcur => ?store, fun s hp => ?closed⟩
  case store =>
    have hsizes := sizesOk_of_boundDescriptor hD
    have hlen := length_digestBytes hD
    have hdigest : digestBytes D s = finalize D s.h ((List.range s.cur.toNat).map (bufByte s))
        (s.len.toNat + 8 * s.cur.toNat) := by
      rw [digestBytes, tailBytes_eq_map_bufByte (hcur.le.trans hsizes.bs_le), msgbits]
    rw [← hdigest]
    exact ⟨_, exec_digest_of_active hp hD hcur, hlen, fun i => outByte_storeDigest_of_lt hsizes s hlen,
      fun i => outByte_storeDigest_of_ob_le hsizes s, rfl, rfl⟩
  case closed => rw [exec_digest_of_closed hp, raise_of_ne_error _ (fun herror => by simp [herror] at hp)]

/-- Settles O22: the byte, the index past the digest, and the phases without a digest. -/
theorem rdoutAnswersOrRaises : Obligations.RdoutAnswersOrRaises := by
  refine ⟨encode_rdout, fun d s D hp hD hd => ?read, fun d s D hp hD hd => ?past, fun d s hp => ?noDigest⟩
  case read => exact exec_rdout_of_done hp hD hd
  case past => rw [exec_rdout_of_ob_le hp hD hd, raise_of_ne_error _ (by simp [hp])]
  case noDigest => rw [exec_rdout_of_noDigest d hp, raise_of_ne_error _ (fun herror => by simp [herror] at hp)]

/-- Settles O23: `RDSTAT` is the answer alone. -/
theorem rdstatAnswersTheStatus : Obligations.RdstatAnswersTheStatus := ⟨rfl, fun _ => rfl⟩

/-- Settles O35: below `OB` the digest of an absorbed message is its hash, behind it `OUT` is still zero. -/
theorem digestIsTheHashOfTheMessage : Obligations.DigestIsTheHashOfTheMessage := by
  intro D m s h
  refine ⟨_, h.exec_digest, rfl, h.length_hashOf, fun i => ?_⟩
  rcases lt_or_ge i D.ob with hi | hi
  · rw [← h.digestBytes_eq]
    exact outByte_storeDigest_of_lt h.sizesOk s (length_digestBytes h.descriptor) hi
  · have hout : outByte s i = 0 := by rw [outByte, h.noDigest, getD_toList_replicate_zero]
    rw [List.getD_eq_default _ _ (h.length_hashOf.trans_le hi), ← hout]
    exact outByte_storeDigest_of_ob_le h.sizesOk s hi

end Sys2Proof.Proofs
end

section
/-! PROOFS. The legality table (R102): what an entry of the table asks of the next state, and that every command in every
phase meets its entry. -/

namespace Sys2Proof.Safety

open Sys2Proof.Machine

/-! ### The entries of the table -/

/-- The state `t` after the command `i` in state `s` is as an entry of the table says (R102, R284, R286). -/
def Legality.Meets (i : Instr) (s t : State) : Legality → Prop
  | .ok p => t.phase = p ∧ (i ≠ .rdstat → t.err = .none) ∧ (i = .rdstat → t.err = s.err)
  | .raises e => t.phase = .error ∧ t.err = if s.phase = .error ∧ (∀ a, i ≠ .init a) then s.err else e
  | .ignored => t = { s with response := some ⟨true, statusWord s⟩ }

/-- A command goes on as its entry of the table says. -/
def FollowsTable (i : Instr) (s : State) : Prop := ∃ t, exec i s = .next t ∧ (legality i s).Meets i s t

variable {i : Instr} {s t : State}

theorem followsTable_of_executes (hi : i ≠ .rdstat) (hexec : exec i s = .next t)
    (hl : legality i s = .ok t.phase) (he : t.err = .none) : FollowsTable i s :=
  ⟨t, hexec, hl ▸ ⟨rfl, fun _ => he, fun heq => absurd heq hi⟩⟩

/-- Error entry keeps the first error (R284). -/
theorem followsTable_of_raises {e : ErrCause} (hi : ∀ a, i ≠ .init a) (hexec : exec i s = .next (raise e s))
    (hl : legality i s = .raises e) : FollowsTable i s :=
  ⟨_, hexec, hl ▸ ⟨rfl, by simp [hi]⟩⟩

theorem followsTable_of_ignored (hp : s.phase = .error) (hexec : exec i s = .next (ignoreCommand s))
    (hl : legality i s = .ignored) : FollowsTable i s :=
  ⟨_, hexec, hl ▸ respond_of_error hp⟩

/-! ### Every command, by the phase it is issued in -/

/-- In phases `ACTIVE` and `DONE` a descriptor is bound and its counters are in range. -/
theorem Inv.exists_descriptor (h : Inv s) (hp : s.phase = .active ∨ s.phase = .done) :
    ∃ D, boundDescriptor s = some D ∧ CountersOk D s :=
  h.bound (h.boundWhenOpen hp)

/-- With the invariant the row of `RESET` is one question: is a descriptor bound (R24, R93). -/
theorem legality_reset (h : Inv s) : legality .reset s = if s.cfgv then .ok .active else .raises .misuse := by
  cases hp : s.phase with
  | unconf => simp [legality, hp, h.unboundWhenUnconf hp]
  | active => simp [legality, hp, h.boundWhenOpen (.inl hp)]
  | done => simp [legality, hp, h.boundWhenOpen (.inr hp)]
  | error => simp only [legality, hp]

/-- `INIT` is legal in every phase, and overwrites `ERR` when it fails (R91, R281). -/
theorem followsTable_init (a : BitVec 4) (s : State) : FollowsTable (.init a) s := by
  by_cases ha : validAlg s.wideVariants a = true
  · obtain ⟨D, hD⟩ := exists_row_of_validAlg ha
    exact followsTable_of_executes nofun (exec_init_of_some hD) (if_pos ha) rfl
  · have hl : legality (.init a) s = .raises .config := if_neg ha
    exact ⟨_, exec_init_of_none (descriptorOf_of_not_validAlg ha), hl ▸ ⟨rfl, by simp⟩⟩

theorem followsTable_reset (h : Inv s) : FollowsTable .reset s := by
  cases hc : s.cfgv with
  | false => exact followsTable_of_raises nofun (exec_reset_of_unbound hc) (by simp [legality_reset h, hc])
  | true =>
    obtain ⟨D, hD, -⟩ := h.bound hc
    exact followsTable_of_executes nofun (exec_reset_of_bound hc hD) (by simp [legality_reset h, hc]) rfl

theorem followsTable_update (h : Inv s) (d : BitVec 8) : FollowsTable (.update d) s := by
  cases hp : s.phase with
  | unconf => exact followsTable_of_raises nofun (exec_update_of_closed d (.inl hp)) (by simp only [legality, hp])
  | active =>
    cases hl : lengthExhausted s with
    | true =>
      exact followsTable_of_raises nofun (exec_update_of_lengthExhausted d hp hl) (by simp [legality, hp, hl])
    | false =>
      obtain ⟨D, hD, hk⟩ := h.exists_descriptor (.inl hp)
      exact followsTable_of_executes nofun (exec_update_of_room d hp hD hk.cursor hl) (by simp [legality, hp, hl])
        (by simpa using h.err_eq_none (by simp [hp]))
  | done => exact followsTable_of_raises nofun (exec_update_of_closed d (.inr hp)) (by simp only [legality, hp])
  | error => exact followsTable_of_ignored hp (exec_update_of_error d hp) (by simp only [legality, hp])

theorem followsTable_digest (h : Inv s) : FollowsTable .digest s := by
  cases hp : s.phase with
  | unconf => exact followsTable_of_raises nofun (exec_digest_of_closed (.inl hp)) (by simp only [legality, hp])
  | active =>
    obtain ⟨D, hD, hk⟩ := h.exists_descriptor (.inl hp)
    exact followsTable_of_executes nofun (exec_digest_of_active hp hD hk.cursor) (by simp [legality, hp])
      (h.err_eq_none (by simp [hp]))
  | done => exact followsTable_of_raises nofun (exec_digest_of_closed (.inr hp)) (by simp only [legality, hp])
  | error => exact followsTable_of_ignored hp (exec_digest_of_error hp) (by simp only [legality, hp])

theorem followsTable_rdout (h : Inv s) (d : BitVec 8) : FollowsTable (.rdout d) s := by
  cases hp : s.phase with
  | unconf => exact followsTable_of_raises nofun (exec_rdout_of_noDigest d (.inl hp)) (by simp only [legality, hp])
  | active => exact followsTable_of_raises nofun (exec_rdout_of_noDigest d (.inr hp)) (by simp only [legality, hp])
  | done =>
    obtain ⟨D, hD, -⟩ := h.exists_descriptor (.inr hp)
    rcases lt_or_ge d.toNat D.ob with hd | hd
    · exact followsTable_of_executes nofun (exec_rdout_of_done hp hD hd) (by simp [legality, hp, hD, hd])
        (h.err_eq_none (by simp [hp]))
    · exact followsTable_of_raises nofun (exec_rdout_of_ob_le hp hD hd) (by simp [legality, hp, hD, hd])
  | error => exact followsTable_of_ignored hp (exec_rdout_of_error d hp) (by simp only [legality, hp])

/-- `RDSTAT` is legal everywhere and keeps `PHASE` and `ERR` (R97). -/
theorem followsTable_rdstat (s : State) : FollowsTable .rdstat s :=
  ⟨respond s, rfl, rfl, fun hne => absurd rfl hne, fun _ => rfl⟩

theorem Inv.followsTable (h : Inv s) (i : Instr) : FollowsTable i s :=
  match i with
  | .init a => followsTable_init a s
  | .reset => followsTable_reset h
  | .update d => followsTable_update h d
  | .digest => followsTable_digest h
  | .rdout d => followsTable_rdout h d
  | .rdstat => followsTable_rdstat s

end Sys2Proof.Safety

namespace Sys2Proof.Proofs

open Sys2Proof.Machine Sys2Proof.Safety

/-- Settles O28: each command meets its entry of the table, and a reserved word is ignored in `ERROR` and raises
`E_ILLCMD` elsewhere. -/
theorem legalityTable : Obligations.LegalityTable := by
  refine ⟨fun i s h => ?command, fun s w rest r hport hdecode => ?reserved⟩
  case command =>
    obtain ⟨t, hexec, hmeets⟩ := h.followsTable i
    exact ⟨t, hexec, fun p hl => by rwa [hl] at hmeets, fun e hl => by rwa [hl] at hmeets,
      fun hl => by rwa [hl] at hmeets⟩
  case reserved =>
    have hstep := (step_of_port_command hport).trans (runWord_of_decode_error hdecode _)
    obtain ⟨hp, hword⟩ | ⟨hp, hword⟩ := reservedWord_cases (withPort rest s)
    all_goals rw [hword] at hstep
    · exact ⟨_, hstep, hp, fun hne => absurd hp hne, fun _ => respond_of_error (s := withPort rest s) hp⟩
    · exact ⟨_, hstep, rfl, fun _ => if_neg hp, fun herror => absurd herror hp⟩

end Sys2Proof.Proofs
end

section
/-! PROOFS. Lists cut into pieces of one length: a byte string into the bytes of its words, a bit string into the bits of its
bytes. -/

namespace Sys2Proof.Machine

section Pieces

variable {α β : Type} {f : α → List β} {n : Nat}

/-- Piece `i` of a list of pieces of length `n` is what starts at place `n * i`. -/
theorem take_drop_flatMap (hf : ∀ x, (f x).length = n) {xs : List α} {i : Nat} (hi : i < xs.length) :
    ((xs.flatMap f).drop (n * i)).take n = f xs[i] := by
  induction xs generalizing i with
  | nil => simp at hi
  | cons x xs ih =>
    rw [List.flatMap_cons]
    cases i with
    | zero => exact List.take_left' (hf x)
    | succ i =>
      have hsplit : n * (i + 1) = (f x).length + n * i := by rw [hf, Nat.mul_succ, Nat.add_comm]
      rw [hsplit, List.drop_length_add_append]
      exact ih (by simpa using hi)

/-- Place `n * i + k` of a list of pieces of length `n` is place `k` of piece `i`. -/
theorem getD_flatMap (hf : ∀ x, (f x).length = n) {xs : List α} {i k : Nat} (hi : i < xs.length) (hk : k < n) (d : β) :
    (xs.flatMap f).getD (n * i + k) d = (f xs[i]).getD k d := by
  rw [← take_drop_flatMap hf hi]
  simp only [List.getD_eq_getElem?_getD, List.getElem?_take_of_lt hk, List.getElem?_drop]

/-- The first `k` pieces of length `n` of a list, joined, are its start. -/
theorem flatMap_range_take_drop (xs : List β) (n k : Nat) :
    ((List.range k).flatMap fun i => (xs.drop (n * i)).take n) = xs.take (n * k) := by
  induction k with
  | zero => simp
  | succ k ih => rw [List.range_succ, List.flatMap_append, ih, List.flatMap_singleton, ← List.take_add, Nat.mul_succ]

end Pieces

@[simp] theorem nth_nil {w : Nat} (i : Nat) : nth ([] : List (BitVec w)) i = 0 := rfl

@[simp] theorem nth_cons_zero {w : Nat} (x : BitVec w) (xs : List (BitVec w)) : nth (x :: xs) 0 = x := rfl

@[simp] theorem nth_cons_succ {w : Nat} (x : BitVec w) (xs : List (BitVec w)) (i : Nat) :
    nth (x :: xs) (i + 1) = nth xs i := rfl

theorem nth_eq_getElem {w : Nat} {xs : List (BitVec w)} {i : Nat} (hi : i < xs.length) : nth xs i = xs[i] :=
  List.getD_eq_getElem _ _ hi

/-- Element `i` of a list given by its places. -/
theorem nth_map_range {w : Nat} (f : Nat → BitVec w) {n i : Nat} (hi : i < n) : nth ((List.range n).map f) i = f i := by
  rw [nth_eq_getElem (by simpa using hi), List.getElem_map, List.getElem_range]

end Sys2Proof.Machine
end

section
/-! PROOFS. Little-endian words and the words of a block (R110 to R114). -/

namespace Sys2Proof.Machine

/-! ### The bits of a word and of its bytes -/

/-- Bit `i` of the little-endian word is bit `i % 8` of byte `i / 8` (R110, R112). -/
theorem getLsbD_decLE {w i : Nat} (bs : Bytes) (hi : i < w) :
    (decLE w bs).getLsbD i = (nth bs (i / 8)).getLsbD (i % 8) := by
  induction bs generalizing i with
  | nil => simp [decLE]
  | cons b bs ih =>
    simp only [decLE, BitVec.getLsbD_or, BitVec.getLsbD_setWidth, BitVec.getLsbD_shiftLeft, hi, decide_true, Bool.true_and]
    by_cases hlow : i < 8
    · simp [hlow, Nat.div_eq_of_lt hlow, Nat.mod_eq_of_lt hlow]
    · obtain ⟨j, rfl⟩ := Nat.exists_eq_add_of_le' (Nat.le_of_not_lt hlow)
      simp [ih (Nat.lt_of_le_of_lt (Nat.le_add_right j 8) hi)]

/-- The first byte is the low byte of the word. -/
theorem decLE_cons (w : Nat) (b : Byte) (bs : Bytes) : decLE (w + 8) (b :: bs) = decLE w bs ++ b := by
  refine BitVec.eq_of_getLsbD_eq fun i hi => ?_
  rw [getLsbD_decLE _ hi, BitVec.getLsbD_append]
  split
  case isTrue hlow => rw [Nat.div_eq_of_lt hlow, Nat.mod_eq_of_lt hlow, nth_cons_zero]
  case isFalse hhigh =>
    obtain ⟨j, rfl⟩ := Nat.exists_eq_add_of_le' (Nat.le_of_not_lt hhigh)
    rw [Nat.add_sub_cancel, getLsbD_decLE _ (Nat.lt_of_add_lt_add_right hi), Nat.add_div_right _ (by decide),
      Nat.add_mod_right, nth_cons_succ]

theorem nth_encLE {w i : Nat} (x : BitVec w) (hi : i < w / 8) : nth (encLE x) i = x.extractLsb' (8 * i) 8 :=
  nth_map_range _ hi

/-- A word of whole bytes is decoded from its bytes (R111, R112). -/
theorem decLE_encLE {w : Nat} (hw : 8 ∣ w) (x : BitVec w) : decLE w (encLE x) = x := by
  refine BitVec.eq_of_getLsbD_eq fun i hi => ?_
  rw [getLsbD_decLE _ hi, nth_encLE x (Nat.div_lt_div_of_lt_of_dvd hw hi), BitVec.getLsbD_extractLsb', Nat.div_add_mod]
  simp [Nat.mod_lt]

/-- As many bytes as a word has are encoded from the word they hold (R111, R112). -/
theorem encLE_decLE {w : Nat} {bs : Bytes} (hlen : bs.length = w / 8) : encLE (decLE w bs) = bs := by
  refine List.ext_getElem (by simp [hlen]) fun i hi hbs => ?_
  have hiw : i < w / 8 := hlen ▸ hbs
  rw [← nth_eq_getElem hi, ← nth_eq_getElem hbs, nth_encLE _ hiw]
  refine BitVec.eq_of_getLsbD_eq fun k hk => ?_
  have hdiv : (8 * i + k) / 8 = i := by omega
  have hmod : (8 * i + k) % 8 = k := by omega
  rw [BitVec.getLsbD_extractLsb', getLsbD_decLE _ (by omega), hdiv, hmod]
  simp [hk]

/-- `ENC32LE`, byte by byte (R111). -/
theorem enc32LE_eq (x : BitVec 32) :
    enc32LE x = [x.extractLsb' 0 8, x.extractLsb' 8 8, x.extractLsb' 16 8, x.extractLsb' 24 8] := rfl

theorem dec32LE_enc32LE (x : BitVec 32) : dec32LE (enc32LE x) = x := by
  rw [dec32LE, enc32LE, List.take_of_length_le (by simp), decLE_encLE (by decide)]

theorem enc32LE_dec32LE {b : Bytes} (hb : b.length = 4) : enc32LE (dec32LE b) = b := by
  rw [dec32LE, List.take_of_length_le hb.le, enc32LE, encLE_decLE hb]

/-- `ENC16LE`, byte by byte (R114). -/
theorem enc16LE_eq (x : Nat) : enc16LE x = [BitVec.ofNat 8 x, BitVec.ofNat 8 (x / 256)] := by
  have hlow : (BitVec.ofNat 16 x).extractLsb' 0 8 = BitVec.ofNat 8 x := BitVec.eq_of_toNat_eq (by simp)
  have hhigh : (BitVec.ofNat 16 x).extractLsb' 8 8 = BitVec.ofNat 8 (x / 256) :=
    BitVec.eq_of_toNat_eq (by simp [Nat.shiftRight_eq_div_pow]; omega)
  calc enc16LE x = [(BitVec.ofNat 16 x).extractLsb' 0 8, (BitVec.ofNat 16 x).extractLsb' 8 8] := rfl
    _ = _ := by rw [hlow, hhigh]

/-! ### The words of a block (R114) -/

theorem nth_words (w : Nat) (block : Bytes) {i : Nat} (hi : i < 16) :
    nth (words w block) i = decLE w ((block.drop (w / 8 * i)).take (w / 8)) :=
  nth_map_range _ hi

theorem unwords_words {w : Nat} {block : Bytes} (hlen : block.length = w / 8 * 16) : unwords (words w block) = block := by
  have hbytes : ∀ i ∈ List.range 16, encLE (decLE w ((block.drop (w / 8 * i)).take (w / 8))) =
      (block.drop (w / 8 * i)).take (w / 8) := by
    intro i hi
    have hi : i < 16 := List.mem_range.mp hi
    have hroom : w / 8 * (i + 1) ≤ w / 8 * 16 := Nat.mul_le_mul_left _ hi
    rw [Nat.mul_succ] at hroom
    exact encLE_decLE (by rw [List.length_take, List.length_drop, hlen]; omega)
  calc unwords (words w block)
      = (List.range 16).flatMap fun i => encLE (decLE w ((block.drop (w / 8 * i)).take (w / 8))) := List.flatMap_map ..
    _ = (List.range 16).flatMap fun i => (block.drop (w / 8 * i)).take (w / 8) := List.flatMap_congr hbytes
    _ = block := by rw [flatMap_range_take_drop, ← hlen, List.take_length]

theorem words_unwords {w : Nat} (hw : 8 ∣ w) {ws : List (BitVec w)} (hlen : ws.length = 16) : words w (unwords ws) = ws := by
  refine List.ext_getElem (by simp [hlen]) fun i hi hws => ?_
  rw [← nth_eq_getElem hi, nth_words w _ (by simpa using hi), unwords, take_drop_flatMap length_encLE hws, decLE_encLE hw]

end Sys2Proof.Machine

namespace Sys2Proof.Proofs

open Sys2Proof.Machine

/-- Settles O41: the bytes are the encoder's own, and the two directions are those of any word of whole bytes. -/
theorem littleEndianWordsRoundTrip : Obligations.LittleEndianWordsRoundTrip :=
  ⟨enc32LE_eq, dec32LE_enc32LE, fun _ => enc32LE_dec32LE, by decide⟩

/-- Settles O42: the sixteen pieces of a block are encoded from the words they hold, and each word decoded from its bytes. -/
theorem wordsOfABlockRoundTrip : Obligations.WordsOfABlockRoundTrip := by
  refine ⟨fun block h => ⟨length_words .., unwords_words h, fun i hi => ?_⟩,
    fun block h => ⟨length_words .., unwords_words h, fun i hi => ?_⟩, fun w ws hw hlen => ?_, fun x _ => ?_⟩
  · rw [nth_words 32 block hi, dec32LE, List.take_take, Nat.min_self]
  · rw [nth_words 64 block hi, dec64LE, List.take_take, Nat.min_self]
  · exact words_unwords (by rcases hw with rfl | rfl <;> decide) hlen
  · exact enc16LE_eq x

end Sys2Proof.Proofs
end

section
/-! PROOFS. The bit and nibble views of a byte string (R126, R127): each byte is the piece of its own eight bits, or of its two
nibbles. -/

namespace Sys2Proof.Machine

/-! ### Bits -/

/-- The bits of a byte, most significant first (R126). -/
def byteBits (b : Byte) : List Bool := (List.range 8).map fun k => b.getLsbD (7 - k)

/-- The byte that eight bits make, most significant first (R126). -/
def byteOfBits (f : Nat → Bool) : Byte := BitVec.ofBoolListBE [f 0, f 1, f 2, f 3, f 4, f 5, f 6, f 7]

theorem bits_eq_flatMap (s : Bytes) : bits s = s.flatMap byteBits := rfl

theorem bits_cons (b : Byte) (s : Bytes) : bits (b :: s) = byteBits b ++ bits s := rfl

theorem unbits_map_range_append (f : Nat → Bool) (l : List Bool) :
    unbits ((List.range 8).map f ++ l) = byteOfBits f :: unbits l := rfl

@[simp] theorem length_byteBits (b : Byte) : (byteBits b).length = 8 := rfl

theorem getD_byteBits (b : Byte) {k : Nat} (hk : k < 8) : (byteBits b).getD k false = b.getLsbD (7 - k) := by
  simp [byteBits, hk]

theorem getLsbD_byteOfBits (f : Nat → Bool) {k : Nat} (hk : k < 8) : (byteOfBits f).getLsbD (7 - k) = f k := by
  calc (byteOfBits f).getLsbD (7 - k)
      = (byteOfBits f).getMsbD k := by simp [BitVec.getMsbD_eq_getLsbD, hk]
    _ = ((List.range 8).map f).getD k false := BitVec.getMsbD_ofBoolListBE
    _ = f k := by simp [hk]

theorem byteOfBits_getLsbD (b : Byte) : byteOfBits (fun k => b.getLsbD (7 - k)) = b := by
  refine BitVec.eq_of_getLsbD_eq fun i hi => ?_
  have hplace := getLsbD_byteOfBits (fun k => b.getLsbD (7 - k)) (k := 7 - i) (by omega)
  rwa [Nat.sub_sub_self (Nat.le_of_lt_succ hi)] at hplace

theorem byteBits_byteOfBits (f : Nat → Bool) : byteBits (byteOfBits f) = (List.range 8).map f :=
  List.map_congr_left fun _ hk => getLsbD_byteOfBits f (List.mem_range.mp hk)

theorem unbits_bits (s : Bytes) : unbits (bits s) = s := by
  induction s with
  | nil => rfl
  | cons b s ih => rw [bits_cons, byteBits, unbits_map_range_append, byteOfBits_getLsbD, ih]

/-- A list of at least eight bits starts with the bits of a byte. -/
theorem eq_map_range_append_drop {l : List Bool} (hl : 8 ≤ l.length) :
    l = (List.range 8).map (fun k => l.getD k false) ++ l.drop 8 := by
  rw [← take_eq_map_getD false hl, List.take_append_drop]

theorem bits_unbits {n : Nat} {l : List Bool} (hl : l.length = 8 * n) : bits (unbits l) = l := by
  induction n generalizing l with
  | zero => rw [List.length_eq_zero_iff.mp hl]; rfl
  | succ n ih =>
    have hrest : (l.drop 8).length = 8 * n := by rw [List.length_drop]; omega
    rw [eq_map_range_append_drop (l := l) (by omega), unbits_map_range_append, bits_cons, byteBits_byteOfBits, ih hrest]

/-! ### Nibbles -/

/-- The nibbles of a byte, high nibble first (R127). -/
def byteNibbles (b : Byte) : List Nibble := [b.extractLsb' 4 4, b.extractLsb' 0 4]

theorem nibbles_eq_flatMap (s : Bytes) : nibbles s = s.flatMap byteNibbles := rfl

@[simp] theorem length_byteNibbles (b : Byte) : (byteNibbles b).length = 2 := rfl

theorem nibbles_cons (b : Byte) (s : Bytes) :
    nibbles (b :: s) = b.extractLsb' 4 4 :: b.extractLsb' 0 4 :: nibbles s := rfl

theorem unnibbles_cons_cons (hi lo : Nibble) (l : List Nibble) :
    unnibbles (hi :: lo :: l) = (hi ++ lo) :: unnibbles l := rfl

theorem unnibbles_nibbles (s : Bytes) : unnibbles (nibbles s) = s := by
  induction s with
  | nil => rfl
  | cons b s ih =>
    have hbyte : b.extractLsb' 4 4 ++ b.extractLsb' 0 4 = b := BitVec.extractLsb'_append_extractLsb'
    rw [nibbles_cons, unnibbles_cons_cons, hbyte, ih]

theorem nibbles_unnibbles {n : Nat} {l : List Nibble} (hl : l.length = 2 * n) : nibbles (unnibbles l) = l := by
  induction l using unnibbles.induct generalizing n with
  | case1 hi lo l ih =>
    obtain _ | n := n
    · cases hl
    have hrest : l.length = 2 * n := by simp only [List.length_cons] at hl; omega
    rw [unnibbles_cons_cons, nibbles_cons, BitVec.extractLsb'_append_eq_left, BitVec.extractLsb'_append_eq_right, ih hrest]
  | case2 l hshort =>
    match l with
    | [] => rfl
    | [_] => simp only [List.length_singleton] at hl; omega
    | hi :: lo :: l => exact absurd rfl (hshort hi lo l)

end Sys2Proof.Machine

namespace Sys2Proof.Proofs

open Sys2Proof.Machine

/-- Settles O43: the places are those of the pieces, and each inverse joins and cuts piece by piece. -/
theorem bitAndNibbleViewsRoundTrip : Obligations.BitAndNibbleViewsRoundTrip := by
  refine ⟨fun s => ⟨?bitLength, ?nibbleLength, unbits_bits s, unnibbles_nibbles s, fun i k hi hk => ?bitPlace,
    fun i hi => ?nibblePlace⟩, fun _ _ => bits_unbits, fun _ _ => nibbles_unnibbles⟩
  case bitLength => simp [bits_eq_flatMap, Nat.mul_comm]
  case nibbleLength => simp [nibbles_eq_flatMap, Nat.mul_comm]
  case bitPlace =>
    rw [bits_eq_flatMap, getD_flatMap length_byteBits hi hk, getD_byteBits _ hk, nth_eq_getElem hi]
  case nibblePlace =>
    have hplace := fun k (hk : k < 2) => getD_flatMap length_byteNibbles hi hk 0
    rw [nth_eq_getElem hi]
    exact ⟨hplace 0 (by decide), hplace 1 (by decide)⟩

end Sys2Proof.Proofs
end

section
/-! PROOFS. The field of R120, the S-box as inverse and affine map (R121), and the AES round (R122). -/

namespace Sys2Proof.Machine

/-! ### The field product (R120) -/

theorem xtime_eq (a : Byte) : xtime a = BitVec.ofNat 8 (2 * a.toNat) ^^^ (if a.getLsbD 7 then 0x1B else 0) := by
  have hdouble : BitVec.ofNat 8 (2 * a.toNat) = a <<< 1 :=
    BitVec.eq_of_toNat_eq (by simp [Nat.shiftLeft_eq, Nat.mul_comm])
  rw [xtime, hdouble]
  cases a.getLsbD 7 <;> simp

theorem gmulSteps_succ (n : Nat) (a b : Byte) :
    gmulSteps (n + 1) a b = (if b.getLsbD 0 then a else 0) ^^^ gmulSteps n (xtime a) (b >>> 1) := by
  rw [gmulSteps]
  cases b.getLsbD 0 <;> simp

theorem gmulSteps_zero_right (n : Nat) (a : Byte) : gmulSteps n a 0 = 0 := by
  induction n generalizing a with
  | zero => rfl
  | succ n ih => rw [gmulSteps_succ]; simpa using ih (xtime a)

/-- A factor of `n` bits is used up after `n` steps: one step more adds nothing. -/
theorem gmulSteps_succ_of_lt {n : Nat} (a : Byte) {b : Byte} (hb : b.toNat < 2 ^ n) :
    gmulSteps (n + 1) a b = gmulSteps n a b := by
  induction n generalizing a b with
  | zero =>
    obtain rfl : b = 0 := BitVec.eq_of_toNat_eq (Nat.lt_one_iff.mp hb)
    rw [gmulSteps_zero_right, gmulSteps_zero_right]
  | succ n ih =>
    have hhalf : (b >>> 1).toNat < 2 ^ n := by
      rw [BitVec.toNat_ushiftRight, Nat.shiftRight_eq_div_pow]; omega
    rw [gmulSteps_succ, ih _ hhalf, ← gmulSteps_succ]

theorem gmul_zero (a : Byte) : gmul a 0 = 0 := gmulSteps_zero_right 8 a

/-- The recursion of R120: the seven bits left of `b` take seven of the eight steps of the product. -/
theorem gmul_eq (a b : Byte) : gmul a b = (if b.getLsbD 0 then a else 0) ^^^ gmul (xtime a) (b >>> 1) := by
  have hhalf : (b >>> 1).toNat < 2 ^ 7 := by
    rw [BitVec.toNat_ushiftRight, Nat.shiftRight_eq_div_pow]; omega
  rw [gmul, gmulSteps_succ, gmul, gmulSteps_succ_of_lt _ hhalf]

/-! ### The S-box (R121) -/

/-- The affine map of R121. -/
def affineMap (x : Byte) : Byte := x ^^^ rotl x 1 ^^^ rotl x 2 ^^^ rotl x 3 ^^^ rotl x 4 ^^^ 0x63

/-- The inverse of the affine map. -/
def affineInverse (y : Byte) : Byte := rotl y 1 ^^^ rotl y 3 ^^^ rotl y 6 ^^^ 0x05

theorem affineMap_affineInverse : ∀ y : Byte, affineMap (affineInverse y) = y := by decide +kernel

theorem affineInverse_sbox_zero : affineInverse (sbox 0) = 0 := by decide

/-- Behind the affine map the ROM of R121 holds, entry by entry, the field inverse of the byte it is read at. -/
theorem gmul_affineInverse_sbox : ∀ a : Byte, a ≠ 0 → gmul a (affineInverse (sbox a)) = 1 := by decide +kernel

/-! ### The AES round (R122) -/

/-- Four bytes as a little-endian word (R110). -/
theorem dec32LE_eq_append (b0 b1 b2 b3 : Byte) : dec32LE [b0, b1, b2, b3] = b3 ++ b2 ++ b1 ++ b0 := by
  have htop : decLE 8 [b3] = b3 := by simp [decLE]
  calc dec32LE [b0, b1, b2, b3]
      = decLE (24 + 8) [b0, b1, b2, b3] := rfl
    _ = decLE (16 + 8) [b1, b2, b3] ++ b0 := decLE_cons ..
    _ = decLE (8 + 8) [b2, b3] ++ b1 ++ b0 := by rw [decLE_cons]
    _ = b3 ++ b2 ++ b1 ++ b0 := by rw [decLE_cons, htop]

theorem nth_aesShifted (x : List (BitVec 32)) (c : Nat) {r : Nat} (hr : r < 4) :
    nth (aesShifted x c) r = sbox ((nth x ((c + r) % 4)).extractLsb' (8 * r) 8) :=
  nth_map_range _ hr

theorem nth_aesRound (x : List (BitVec 32)) {c : Nat} (hc : c < 4) :
    nth (aesRound x) c = aesMixColumn (aesShifted x c) :=
  nth_map_range _ hc

end Sys2Proof.Machine

namespace Sys2Proof.Proofs

open Sys2Proof.Machine

/-- Settles O44: `XTIME` doubles and reduces, and the product unrolls by one step. -/
theorem fieldProductRecursion : Obligations.FieldProductRecursion :=
  ⟨xtime_eq, fun a b => ⟨gmul_zero a, gmul_eq a b⟩⟩

/-- Settles O45: the affine map is undone, and what the ROM holds behind it is the field inverse. -/
theorem sboxIsInverseThenAffine : Obligations.SboxIsInverseThenAffine := by
  intro a
  refine ⟨affineInverse (sbox a), ?_, (affineMap_affineInverse (sbox a)).symm⟩
  split
  case isTrue hzero => rw [hzero, affineInverse_sbox_zero]
  case isFalse hne => exact gmul_affineInverse_sbox a hne

/-- Settles O60: a column is mixed from the four shifted bytes, and its word has the mixed bytes in order. -/
theorem aesRoundOfColumns : Obligations.AesRoundOfColumns := by
  refine ⟨fun x => ⟨length_aesRound x, fun c hc => ?_⟩, by decide⟩
  rw [nth_aesRound x hc, aesMixColumn, dec32LE_eq_append]
  rfl

end Sys2Proof.Proofs
end

section
/-! PROOFS. The padding frame (R146, R147): one shape for the families whose padding spills by the room for the marker and
the length field, and JH's two blocks for every tail that is not empty. -/

namespace Sys2Proof.Machine

/-! ### What the families read in the padding frame -/

/-- The length field of R9 and R147 for a message of `n` bits whose padded tail is `k` blocks. -/
def Descriptor.lengthField (D : Descriptor) (n k : Nat) : Bytes :=
  match D.lf with
  | .bits64LE => enc64LE n
  | .blocks64BE => encBE 64 (n / (8 * D.bs) + k)
  | .bits128BE => encBE 128 n
  | .bits64LEsize16LE => enc64LE n ++ enc16LE (8 * D.ob)

theorem Descriptor.length_lengthField (D : Descriptor) (n k : Nat) : (D.lengthField n k).length = D.lf.bytes := by
  unfold Descriptor.lengthField
  cases D.lf <;> simp [LengthField.bytes]

/-- The columns of R9 that fix the padding, by family. -/
structure Descriptor.PaddingOk (D : Descriptor) : Prop where
  bmw : D.family = .bmw → D.lf = .bits64LE ∧ D.bs = 2 * D.w
  groestl : D.family = .groestl → D.lf = .blocks64BE
  jh : D.family = .jh → D.lf = .bits128BE ∧ D.bs = 64
  shavite : D.family = .shavite → D.lf = .bits64LEsize16LE ∧ D.bs = 64

theorem paddingOk_of_mem_descriptorRom {D : Descriptor} (h : some D ∈ descriptorRom) : D.PaddingOk := by
  have rows : ∀ r ∈ descriptorRom, ∀ D ∈ r,
      (D.family = .bmw → D.lf = .bits64LE ∧ D.bs = 2 * D.w) ∧ (D.family = .groestl → D.lf = .blocks64BE) ∧
        (D.family = .jh → D.lf = .bits128BE ∧ D.bs = 64) ∧
          (D.family = .shavite → D.lf = .bits64LEsize16LE ∧ D.bs = 64) := by decide
  obtain ⟨hbmw, hgroestl, hjh, hshavite⟩ := rows _ h D rfl
  exact ⟨hbmw, hgroestl, hjh, hshavite⟩

section Dispatch

variable {D : Descriptor} (tail : Bytes) (n : Nat)

theorem padBlocks_of_bmw (hf : D.family = .bmw) : padBlocks D tail n = bmwPad D.bs tail n := by
  simp only [padBlocks, hf]

theorem padBlocks_of_groestl (hf : D.family = .groestl) : padBlocks D tail n = groestlPad D.bs tail n := by
  simp only [padBlocks, hf]

theorem padBlocks_of_jh (hf : D.family = .jh) : padBlocks D tail n = jhPad tail n := by
  simp only [padBlocks, hf]

theorem padBlocks_of_shavite (hf : D.family = .shavite) : padBlocks D tail n = shavitePad D.ob tail n := by
  simp only [padBlocks, hf]

end Dispatch

/-! ### Whole blocks of tail, marker, zeros and length field -/

/-- `blocks` are whole blocks, and together the tail, the marker, zeros and the length field (R146). -/
structure IsPadded (bs : Nat) (tail field : Bytes) (blocks : List Bytes) : Prop where
  whole : ∀ b ∈ blocks, b.length = bs
  layout : ∃ z, blocks.flatten = tail ++ [0x80#8] ++ zeros z ++ field

theorem zeros_append_zeros (a b : Nat) : zeros a ++ zeros b = zeros (a + b) := List.replicate_append_replicate

/-- The tail, the marker, zeros and the length field in one block. -/
theorem isPadded_single {bs z : Nat} {tail field : Bytes} (hlen : tail.length + 1 + z + field.length = bs) :
    IsPadded bs tail field [tail ++ [0x80#8] ++ zeros z ++ field] where
  whole := by simp; omega
  layout := ⟨z, List.flatten_singleton⟩

/-- The spill of R147: zeros to the end of the first block, and zeros before the length field of the second. -/
theorem isPadded_pair {bs y z : Nat} {tail field : Bytes} (hfirst : tail.length + 1 + y = bs)
    (hsecond : z + field.length = bs) :
    IsPadded bs tail field [tail ++ [0x80#8] ++ zeros y, zeros z ++ field] where
  whole := by simp; omega
  layout := ⟨y + z, by simp [← zeros_append_zeros]⟩

/-! ### The families that spill by the room for marker and field -/

/-- The padding of R147 in blocks of `bs` bytes with a length field of `fl` bytes, where `field k` is the field when the
blocks are `k`. -/
def framePad (bs fl : Nat) (tail : Bytes) (field : Nat → Bytes) : List Bytes :=
  if tail.length + 1 + fl ≤ bs then [tail ++ [0x80#8] ++ zeros (bs - (tail.length + 1 + fl)) ++ field 1]
  else [tail ++ [0x80#8] ++ zeros (bs - (tail.length + 1)), zeros (bs - fl) ++ field 2]

theorem framePad_of_room {bs fl : Nat} {tail : Bytes} (field : Nat → Bytes) (h : tail.length + 1 + fl ≤ bs) :
    framePad bs fl tail field = [tail ++ [0x80#8] ++ zeros (bs - (tail.length + 1 + fl)) ++ field 1] := if_pos h

theorem framePad_of_spill {bs fl : Nat} {tail : Bytes} (field : Nat → Bytes) (h : ¬ tail.length + 1 + fl ≤ bs) :
    framePad bs fl tail field = [tail ++ [0x80#8] ++ zeros (bs - (tail.length + 1)), zeros (bs - fl) ++ field 2] :=
  if_neg h

theorem length_framePad (bs fl : Nat) (tail : Bytes) (field : Nat → Bytes) :
    (framePad bs fl tail field).length = if tail.length + 1 + fl ≤ bs then 1 else 2 := by
  unfold framePad
  split <;> rfl

theorem isPadded_framePad {bs fl : Nat} {tail : Bytes} {field : Nat → Bytes} (hfield : ∀ k, (field k).length = fl)
    (hfl : fl ≤ bs) (htail : tail.length < bs) :
    IsPadded bs tail (field (framePad bs fl tail field).length) (framePad bs fl tail field) := by
  by_cases hroom : tail.length + 1 + fl ≤ bs
  · rw [framePad_of_room _ hroom]
    exact isPadded_single (by rw [hfield]; omega)
  · rw [framePad_of_spill _ hroom]
    exact isPadded_pair (by omega) (by rw [hfield]; omega)

/-- The case split of `BMW.PAD` (R178) and `GROESTL.PAD` (R201), which share the length of the field. -/
theorem framePad_eight (bs : Nat) (tail : Bytes) (field : Nat → Bytes) :
    framePad bs 8 tail field =
      if tail.length + 1 > bs - 8 then
        [tail ++ [0x80#8] ++ zeros (bs - tail.length - 1), zeros (bs - 8) ++ field 2]
      else [tail ++ [0x80#8] ++ zeros (bs - 9 - tail.length) ++ field 1] := by
  by_cases hroom : tail.length + 1 + 8 ≤ bs
  · have hzeros : bs - (tail.length + 1 + 8) = bs - 9 - tail.length := by omega
    rw [framePad_of_room _ hroom, if_neg (by omega), hzeros]
  · rw [framePad_of_spill _ hroom, if_pos (by omega), Nat.sub_sub]

theorem bmwPad_eq_framePad (bs : Nat) (tail : Bytes) (n : Nat) :
    bmwPad bs tail n = framePad bs 8 tail fun _ => enc64LE n :=
  (framePad_eight bs tail fun _ => enc64LE n).symm

theorem groestlPad_eq_framePad (bs : Nat) (tail : Bytes) (n : Nat) :
    groestlPad bs tail n = framePad bs 8 tail fun k => encBE 64 (n / (8 * bs) + k) :=
  (framePad_eight bs tail fun k => encBE 64 (n / (8 * bs) + k)).symm

theorem shavitePad_eq_framePad (ob : Nat) (tail : Bytes) (n : Nat) :
    shavitePad ob tail n = framePad 64 10 tail fun _ => enc64LE n ++ enc16LE (8 * ob) := by
  by_cases hroom : tail.length + 1 + 10 ≤ 64
  · have hzeros : 64 - (tail.length + 1 + 10) = 53 - tail.length := by omega
    rw [framePad_of_room _ hroom, shavitePad, if_pos (by omega), hzeros]
  · have hzeros : 64 - (tail.length + 1) = 63 - tail.length := by omega
    rw [framePad_of_spill _ hroom, shavitePad, if_neg (by omega), hzeros]

/-- Outside JH the padded blocks are those of the frame with the family's length field. -/
theorem Descriptor.PaddingOk.padBlocks_eq_framePad {D : Descriptor} (hD : D.PaddingOk) (hf : D.family ≠ .jh)
    (tail : Bytes) (n : Nat) : padBlocks D tail n = framePad D.bs D.lf.bytes tail (D.lengthField n) := by
  unfold Descriptor.lengthField
  cases h : D.family with
  | bmw =>
    obtain ⟨hlf, -⟩ := hD.bmw h
    rw [padBlocks_of_bmw tail n h, bmwPad_eq_framePad, hlf]
    rfl
  | groestl =>
    rw [padBlocks_of_groestl tail n h, groestlPad_eq_framePad, hD.groestl h]
    rfl
  | jh => exact absurd h hf
  | shavite =>
    obtain ⟨hlf, hbs⟩ := hD.shavite h
    rw [padBlocks_of_shavite tail n h, shavitePad_eq_framePad, hlf, hbs]
    rfl

/-! ### JH (R235) -/

theorem length_jhPad (tail : Bytes) (n : Nat) : (jhPad tail n).length = if tail.length = 0 then 1 else 2 := by
  unfold jhPad
  split <;> rfl

/-- A tail of JH goes with the marker and zeros into the first block, whatever room it leaves. -/
theorem jhPad_of_ne_zero {tail : Bytes} (n : Nat) (hne : tail.length ≠ 0) (htail : tail.length < 64) :
    jhPad tail n = [tail ++ [0x80#8] ++ zeros (63 - tail.length), zeros 48 ++ encBE 128 n] := by
  have hzeros : zeros (111 - tail.length) = zeros (63 - tail.length) ++ zeros 48 := by
    rw [zeros_append_zeros]; congr 1; omega
  have hfirst : (tail ++ [0x80#8] ++ zeros (63 - tail.length)).length = 64 := by simp; omega
  have hwhole : tail ++ [0x80#8] ++ zeros (111 - tail.length) ++ encBE 128 n =
      tail ++ [0x80#8] ++ zeros (63 - tail.length) ++ (zeros 48 ++ encBE 128 n) := by
    rw [hzeros]; simp only [List.append_assoc]
  simp only [jhPad, if_neg hne, hwhole]
  rw [List.take_left' hfirst, List.drop_left' hfirst]

theorem isPadded_jhPad {tail : Bytes} (n : Nat) (htail : tail.length < 64) :
    IsPadded 64 tail (encBE 128 n) (jhPad tail n) := by
  by_cases hempty : tail.length = 0
  · obtain rfl := List.length_eq_zero_iff.mp hempty
    exact isPadded_single (z := 47) (by simp)
  · rw [jhPad_of_ne_zero n hempty htail]
    exact isPadded_pair (by omega) (by simp)

/-! ### Every valid descriptor -/

theorem Descriptor.PaddingOk.length_padBlocks {D : Descriptor} (hD : D.PaddingOk) (tail : Bytes) (n : Nat) :
    (padBlocks D tail n).length =
      if D.family = .jh then (if tail.length = 0 then 1 else 2)
      else if tail.length + 1 + D.lf.bytes ≤ D.bs then 1 else 2 := by
  by_cases hf : D.family = .jh
  · rw [if_pos hf, padBlocks_of_jh tail n hf, length_jhPad]
  · rw [if_neg hf, hD.padBlocks_eq_framePad hf, length_framePad]

theorem LengthField.bytes_le (lf : LengthField) : lf.bytes ≤ 16 := by
  cases lf <;> decide

theorem isPadded_padBlocks {D : Descriptor} (hD : D.PaddingOk) (hsizes : D.SizesOk) {tail : Bytes} (n : Nat)
    (htail : tail.length < D.bs) :
    IsPadded D.bs tail (D.lengthField n (padBlocks D tail n).length) (padBlocks D tail n) := by
  by_cases hf : D.family = .jh
  · obtain ⟨hlf, hbs⟩ := hD.jh hf
    have hfield (k : Nat) : D.lengthField n k = encBE 128 n := by rw [Descriptor.lengthField, hlf]
    rw [hbs] at htail
    rw [hfield, padBlocks_of_jh tail n hf, hbs]
    exact isPadded_jhPad n htail
  · have hroom : D.lf.bytes ≤ D.bs := D.lf.bytes_le.trans (by rcases hsizes.block with hbs | hbs <;> omega)
    rw [hD.padBlocks_eq_framePad hf]
    exact isPadded_framePad (D.length_lengthField n) hroom htail

end Sys2Proof.Machine

namespace Sys2Proof.Proofs

open Sys2Proof.Machine

/-- Settles O38: the padded blocks of JH, and the frame that the other three families share. -/
theorem paddingFrame : Obligations.PaddingFrame := by
  intro wide a D tail n hD htail
  have hrow : D.PaddingOk := paddingOk_of_mem_descriptorRom (descriptorOf_mem hD)
  obtain ⟨hwhole, hlayout⟩ := isPadded_padBlocks hrow (sizesOk_of_mem_descriptorRom (descriptorOf_mem hD)) n htail
  exact ⟨hwhole, hlayout, hrow.length_padBlocks tail n⟩

end Sys2Proof.Proofs
end

section
/-! PROOFS. The elements packed into `H` are the elements read from it (R22; log 8). -/

namespace Sys2Proof.Machine

/-- The elements of `hPack` before they are moved to the most significant end: the last one in the low bits. -/
def packLow {w : Nat} (xs : List (BitVec w)) : BitVec 1024 :=
  xs.foldl (fun (acc : BitVec 1024) x => (acc <<< w) ||| x.setWidth 1024) 0

theorem hPack_eq {w : Nat} (xs : List (BitVec w)) : hPack xs = packLow xs <<< (1024 - w * xs.length) := rfl

theorem packLow_concat {w : Nat} (xs : List (BitVec w)) (x : BitVec w) :
    packLow (xs ++ [x]) = (packLow xs <<< w) ||| x.setWidth 1024 := by
  simp [packLow]

/-- A piece of a word is found as many places higher as the word was shifted. -/
theorem extractLsb'_shiftLeft_add {n w : Nat} (x : BitVec n) {s k : Nat} (h : s + k + w ≤ n) :
    (x <<< s).extractLsb' (s + k) w = x.extractLsb' k w := by
  refine BitVec.eq_of_getLsbD_eq fun i hi => ?_
  have hin : s + k + i < n := by omega
  have hlow : ¬ s + k + i < s := by omega
  have hsub : s + k + i - s = k + i := by omega
  rw [BitVec.getLsbD_extractLsb', BitVec.getLsbD_shiftLeft, BitVec.getLsbD_extractLsb', hsub]
  simp [hin, hlow]

/-- The low piece of a word shifted by the length of the piece is zero. -/
theorem extractLsb'_zero_shiftLeft {n : Nat} (x : BitVec n) (w : Nat) : (x <<< w).extractLsb' 0 w = 0 := by
  refine BitVec.eq_of_getLsbD_eq fun i hi => ?_
  simp [hi]

/-- A value of `w` bits has no bits from place `w` on. -/
theorem extractLsb'_setWidth_of_ge {w n : Nat} (x : BitVec w) {k : Nat} (h : w ≤ k) :
    (x.setWidth n).extractLsb' k w = 0 := by
  refine BitVec.eq_of_getLsbD_eq fun i _ => ?_
  have hhigh : w ≤ k + i := by omega
  simp [BitVec.getLsbD_of_ge x _ hhigh]

/-- Counted from the low end, piece `k` of the packed elements is the element `k` places before the last. -/
theorem extractLsb'_packLow {w : Nat} (xs : List (BitVec w)) {k : Nat} (h : w * (k + 1) ≤ 1024) :
    (packLow xs).extractLsb' (w * k) w = nth xs.reverse k := by
  induction xs using List.reverseRecOn generalizing k with
  | nil => simp [packLow]
  | append_singleton xs x ih =>
    rw [packLow_concat, List.reverse_concat, BitVec.extractLsb'_or]
    cases k with
    | zero =>
      rw [Nat.mul_zero, extractLsb'_zero_shiftLeft, BitVec.extractLsb'_setWidth_of_le (by omega), nth_cons_zero]
      simp
    | succ k =>
      have hroom : w * (k + 1) + w ≤ 1024 := by rwa [Nat.mul_succ] at h
      have hstart : w * (k + 1) = w + w * k := by rw [Nat.mul_succ, Nat.add_comm]
      rw [extractLsb'_setWidth_of_ge x (by omega), hstart, extractLsb'_shiftLeft_add _ (by omega), ih (by omega),
        nth_cons_succ]
      simp

/-- Element `i` of the register is the element packed at place `i`. -/
theorem hElem_hPack {w : Nat} {xs : List (BitVec w)} (hw : w * xs.length ≤ 1024) {i : Nat} (hi : i < xs.length) :
    hElem w (hPack xs) i = xs[i] := by
  obtain ⟨k, hk⟩ := Nat.exists_eq_add_of_le (Nat.succ_le_of_lt hi)
  have htotal : w * xs.length = w * (i + 1) + w * k := by rw [hk, Nat.succ_eq_add_one, Nat.mul_add]
  have hpiece : w * (k + 1) ≤ w * xs.length := Nat.mul_le_mul_left _ (by omega)
  have hstart : 1024 - w * (i + 1) = 1024 - w * xs.length + w * k := by omega
  have hplace : xs.reverse[k]? = xs[i]? := List.getElem?_reverse' (by omega)
  rw [hElem, hPack_eq, hstart, extractLsb'_shiftLeft_add _ (by rw [Nat.mul_succ] at hpiece; omega),
    extractLsb'_packLow xs (by omega), nth, List.getD_eq_getElem?_getD, hplace, List.getElem?_eq_getElem hi,
    Option.getD_some]

/-- Packing and reading back (log 8): a state that fits into `H` is kept by it. -/
theorem hElems_hPack {w n : Nat} {xs : List (BitVec w)} (hlen : xs.length = n) (hw : w * n ≤ 1024) :
    hElems w n (hPack xs) = xs := by
  subst hlen
  refine List.ext_getElem (length_hElems ..) fun i _ hi => ?_
  rw [← hElem_hPack hw hi]
  simp [hElems]

end Sys2Proof.Machine
end

section
/-! PROOFS. The digest after the padding (R146, R148): the blocks that `FINALIZE` compresses on the family's own state,
`COMPRESS` compresses on `H`, and the digest is a slice of what is read from `H` then. -/

namespace Sys2Proof.Machine

/-! ### Compression on `H` and on the elements read from it (R144) -/

section Compression

variable {D : Descriptor} (h : BitVec 1024)

theorem hElems_compress_of_bmw (hf : D.family = .bmw) (hw : D.w * 16 ≤ 1024) (block : Bytes) (cnt : BitVec 64) :
    hElems D.w 16 (compress D h block cnt) = bmwCompress (hElems D.w 16 h) (words D.w block) := by
  simp only [compress, hf]
  exact hElems_hPack (length_bmwCompress ..) hw

theorem hElems_compress_of_groestl (hf : D.family = .groestl) (hsb : D.sb = 8 * (D.bs / 8)) (hfit : 8 * D.sb ≤ 1024)
    (block : Bytes) (cnt : BitVec 64) :
    hElems 8 D.sb (compress D h block cnt) = groestlCompress (D.bs / 8) (hElems 8 D.sb h) block := by
  simp only [compress, hf]
  exact hElems_hPack ((length_groestlCompress ((length_hElems ..).trans hsb) block).trans hsb.symm) hfit

theorem compress_of_jh (hf : D.family = .jh) (block : Bytes) (cnt : BitVec 64) :
    compress D h block cnt = jhF8 h (jhBlock block) := by
  simp only [compress, hf]

theorem hElems_compress_of_shavite (hf : D.family = .shavite) (block : Bytes) (cnt : BitVec 64) :
    hElems 32 8 (compress D h block cnt) = shaviteC256 (hElems 32 8 h) block cnt := by
  simp only [compress, hf]
  exact hElems_hPack (length_shaviteC256 (length_hElems ..) block cnt) (by decide)

end Compression

/-! ### The digest of each family -/

section Slices

variable {D : Descriptor} (h : BitVec 1024) (tail : Bytes) (n : Nat)

/-- BMW (R179): the final stage of the elements of `H`, from the first word of the digest on. -/
theorem finalize_of_bmw (hf : D.family = .bmw) (hbs : D.bs = 2 * D.w) (hw : D.w * 16 ≤ 1024) :
    finalize D h tail n =
      unwords ((bmwFinal (hElems D.w 16 ((padBlocks D tail n).foldl (fun h b => compress D h b 0) h))).drop
        (16 - 8 * D.ob / D.w)) := by
  have hfold (blocks : List Bytes) : hElems D.w 16 (blocks.foldl (fun h b => compress D h b 0) h) =
      blocks.foldl (fun H b => bmwCompress H (words D.w b)) (hElems D.w 16 h) :=
    (List.foldl_hom _ fun h b => (hElems_compress_of_bmw h hf hw b 0).symm).symm
  rw [hfold, padBlocks_of_bmw tail n hf, hbs]
  simp only [finalize, hf]
  rfl

/-- Groestl (R202, R203): the output transformation of the bytes of `H`. -/
theorem finalize_of_groestl (hf : D.family = .groestl) (hsb : D.sb = D.bs) (hbs : D.bs = 8 * (D.bs / 8))
    (hfit : 8 * D.sb ≤ 1024) :
    finalize D h tail n =
      groestlOutput (D.bs / 8) D.ob
        (hElems 8 D.sb ((padBlocks D tail n).foldl (fun h b => compress D h b 0) h)) := by
  have hfold (blocks : List Bytes) : hElems 8 D.sb (blocks.foldl (fun h b => compress D h b 0) h) =
      blocks.foldl (groestlCompress (D.bs / 8)) (hElems 8 D.sb h) :=
    (List.foldl_hom _ fun h b => (hElems_compress_of_groestl h hf (hsb.trans hbs) hfit b 0).symm).symm
  rw [hfold, padBlocks_of_groestl tail n hf]
  simp only [finalize, hf, groestlFinalize, ← hbs]

/-- JH (R236): the bytes of `H`, from the first byte of the digest on. -/
theorem finalize_of_jh (hf : D.family = .jh) (hob : D.ob ≤ 128) :
    finalize D h tail n =
      (hElems 8 128 ((padBlocks D tail n).foldl (fun h b => compress D h b 0) h)).drop (128 - D.ob) := by
  simp only [compress_of_jh _ hf, padBlocks_of_jh tail n hf]
  simp only [finalize, hf, jhFinalize, jhFinished]
  refine List.ext_getElem (by simp; omega) fun i hi _ => ?_
  have hi : i < D.ob := by simpa using hi
  have hstart : 1024 - 8 * (128 - D.ob + i + 1) = 8 * (D.ob - 1 - i) := by omega
  simp [hElems, hElem, hstart]

/-- SHAvite-3 (R148, R259): the first bytes of the words of `H`, each block compressed with its own counter. -/
theorem finalize_of_shavite (hf : D.family = .shavite) :
    finalize D h tail n =
      (unwords (hElems 32 8 (((padBlocks D tail n).zip (shavitePadCounters tail.length n)).foldl
        (fun h b => compress D h b.1 b.2) h))).take D.ob := by
  have hfold (blocks : List (Bytes × BitVec 64)) : hElems 32 8 (blocks.foldl (fun h b => compress D h b.1 b.2) h) =
      blocks.foldl (fun h b => shaviteC256 h b.1 b.2) (hElems 32 8 h) :=
    (List.foldl_hom (hElems 32 8) (by exact fun h b => (hElems_compress_of_shavite h hf b.1 b.2).symm)).symm
  rw [hfold, padBlocks_of_shavite tail n hf]
  simp only [finalize, hf, shaviteFinalize]

end Slices

end Sys2Proof.Machine

namespace Sys2Proof.Proofs

open Sys2Proof.Machine

/-- Settles O40: in every family the compressions of the padded blocks on `H` are those of `FINALIZE` on its elements. -/
theorem digestIsASliceAfterThePadding : Obligations.DigestIsASliceAfterThePadding := by
  intro wide a D h tail n hD _
  have hrow : D.PaddingOk := paddingOk_of_mem_descriptorRom (descriptorOf_mem hD)
  have hsizes : D.SizesOk := sizesOk_of_mem_descriptorRom (descriptorOf_mem hD)
  have hmax : D.bs ≤ 128 := hsizes.bs_le
  refine ⟨fun hf => ?_, fun hf => ?_, fun hf => ?_, fun hf => ?_⟩
  · obtain ⟨-, hbs⟩ := hrow.bmw hf
    exact finalize_of_bmw h tail n hf hbs (by omega)
  · have hsb : D.sb = D.bs := hsizes.groestlState hf
    have hbs : D.bs = 8 * (D.bs / 8) := by rcases hsizes.block with hbs | hbs <;> omega
    rw [finalize_of_groestl h tail n hf hsb hbs (by omega), groestlOutput, ← hbs, hsb]
  · exact finalize_of_jh h tail n hf (hsizes.output.trans (by decide))
  · exact finalize_of_shavite h tail n hf

end Sys2Proof.Proofs
end

section
/-! PROOFS. The functions of BMW on words and its constants (R161 to R164, R168, R173). -/

namespace Sys2Proof.Machine

/-! ### The mixing functions (R162 to R164) -/

/-- R115's rotation is the rotation of bit vectors. -/
theorem rotl_eq_rotateLeft {w : Nat} (x : BitVec w) (n : Nat) : rotl x n = x.rotateLeft n := rfl

@[simp] theorem rotl_zero {w : Nat} (n : Nat) : rotl (0#w) n = 0#w := by simp [rotl]

/-- `s0` to `s3` are two shifts and two rotations by the amounts of the table (R162, R163). -/
theorem bmwS_of_amounts {w k a b c d : Nat} (hk : k < 4) (hrow : (bmwAmounts w)[k]? = some ⟨a, b, c, d⟩) (x : BitVec w) :
    bmwS k x = x >>> a ^^^ x <<< b ^^^ x.rotateLeft c ^^^ x.rotateLeft d := by
  have hrow : (bmwAmounts w).getD k ⟨0, 0, 0, 0⟩ = ⟨a, b, c, d⟩ := by
    rw [List.getD_eq_getElem?_getD, hrow, Option.getD_some]
  unfold bmwS
  split
  case h_1 | h_2 => omega
  case h_3 => simp only [hrow, shr, shl, rotl_eq_rotateLeft]

theorem bmwS_four {w : Nat} (x : BitVec w) : bmwS 4 x = x >>> 1 ^^^ x := rfl

theorem bmwS_five {w : Nat} (x : BitVec w) : bmwS 5 x = x >>> 2 ^^^ x := rfl

@[simp] theorem bmwS_zero {w : Nat} (k : Nat) : bmwS k (0#w) = 0#w := by
  unfold bmwS
  split <;> simp [shr, shl]

/-- `r1` to `r7` are the rotations by the amounts of the table (R163, R164). -/
theorem map_bmwR {w : Nat} (x : BitVec w) :
    (List.range (bmwRotations w).length).map (fun k => bmwR (k + 1) x) = (bmwRotations w).map x.rotateLeft := by
  refine List.ext_getElem (by simp) fun k hk _ => ?_
  have hk : k < (bmwRotations w).length := by simpa using hk
  simp [bmwR, rotl_eq_rotateLeft, hk]

/-! ### The constants (R161, R168, R173) -/

theorem bmwK_32 (j : Nat) : bmwK 32 j = BitVec.ofNat 32 ((j + 16) * 0x05555555) := rfl

theorem bmwK_64 (j : Nat) : bmwK 64 j = BitVec.ofNat 64 ((j + 16) * 0x0555555555555555) := rfl

theorem bmwCF_32 : bmwCF 32 = (List.range 16).map fun i => 0xaaaaaaa0 + BitVec.ofNat 32 i :=
  List.map_congr_left fun i _ => BitVec.ofNat_add 0xaaaaaaa0 i

theorem bmwCF_64 : bmwCF 64 = (List.range 16).map fun i => 0xaaaaaaaaaaaaaaa0 + BitVec.ofNat 64 i :=
  List.map_congr_left fun i _ => BitVec.ofNat_add 0xaaaaaaaaaaaaaaa0 i

@[simp] theorem length_bmwIV (w first : Nat) : (bmwIV w first).length = 16 := by simp [bmwIV]

/-- The elements of `H` in a BMW row of the ROM are the words of `bmwIV` packed there (R22, R161). -/
theorem map_hElem_iv {w first : Nat} {a : BitVec 4}
    (hrow : (descriptorRom.getD a.toNat none).map Descriptor.iv = some (hPack (bmwIV w first))) (hw : w * 16 ≤ 1024)
    {i : Nat} (hi : i < 16) :
    (descriptorOf true a).map (fun D => hElem w D.iv i) = some (nth (bmwIV w first) i) := by
  have hi : i < (bmwIV w first).length := by rwa [length_bmwIV]
  have hcolumn : (fun D : Descriptor => hElem w D.iv i) = (fun h => hElem w h i) ∘ Descriptor.iv := rfl
  rw [hcolumn, ← Option.map_map, descriptorOf_true, hrow, Option.map_some,
    hElem_hPack (by rwa [length_bmwIV]) hi, nth_eq_getElem hi]

/-- Shifting a byte in from the right is a step of a numeral to the base 256. -/
theorem ofNat_shiftLeft_or_byte (w n : Nat) {b : Nat} (hb : b < 256) :
    BitVec.ofNat w n <<< 8 ||| BitVec.ofNat w b = BitVec.ofNat w (256 * n + b) := by
  have hnat : 256 * n + b = n <<< 8 ||| b := by
    rw [← Nat.shiftLeft_add_eq_or_of_lt hb, Nat.shiftLeft_eq, Nat.mul_comm]
  refine BitVec.eq_of_getLsbD_eq fun i hi => ?_
  have hsub : i - 8 < w := by omega
  simp only [hnat, BitVec.getLsbD_or, BitVec.getLsbD_shiftLeft, BitVec.getLsbD_ofNat, Nat.testBit_or,
    Nat.testBit_shiftLeft, hi, hsub]
  by_cases hlow : i < 8
  · simp [hlow]
  · simp [hlow, Nat.le_of_not_lt hlow]

/-- R161, for every first byte that leaves room for the sixteen words: a word is the numeral of bytes that count up. -/
theorem nth_bmwIV {w first i : Nat} (hfirst : first + w / 8 * 16 ≤ 256) (hi : i < 16) :
    nth (bmwIV w first) i =
      BitVec.ofNat w ((List.range (w / 8)).foldl (fun n k => 256 * n + (first + w / 8 * i + k)) 0) := by
  have hplace : w / 8 * i + w / 8 ≤ w / 8 * 16 := Nat.mul_le_mul_left (w / 8) hi
  have hbyte : ∀ k ∈ List.range (w / 8), first + w / 8 * i + k < 256 := fun k hk => by
    have hk : k < w / 8 := List.mem_range.mp hk
    omega
  rw [bmwIV, nth_map_range _ hi]
  refine List.foldl_rel (r := fun x n => x = BitVec.ofNat w n) rfl fun k hk x n hx => ?_
  rw [hx, ofNat_shiftLeft_or_byte w n (hbyte k hk)]

/-- From word to word each of the four bytes grows by four. -/
theorem nth_bmwIV_32 {first i : Nat} (hfirst : first + 64 ≤ 256) (hi : i < 16) :
    nth (bmwIV 32 first) i =
      BitVec.ofNat 32 (0x00010203 + first * 0x01010101) + BitVec.ofNat 32 i * BitVec.ofNat 32 0x04040404 := by
  rw [nth_bmwIV hfirst hi, ← BitVec.ofNat_mul, ← BitVec.ofNat_add]
  refine congrArg _ ?_
  simp [List.range_succ]
  omega

/-- From word to word each of the eight bytes grows by eight. -/
theorem nth_bmwIV_64 {first i : Nat} (hfirst : first + 128 ≤ 256) (hi : i < 16) :
    nth (bmwIV 64 first) i =
      BitVec.ofNat 64 (0x0001020304050607 + first * 0x0101010101010101) +
        BitVec.ofNat 64 i * BitVec.ofNat 64 0x0808080808080808 := by
  rw [nth_bmwIV hfirst hi, ← BitVec.ofNat_mul, ← BitVec.ofNat_add]
  refine congrArg _ ?_
  simp [List.range_succ]
  omega

end Sys2Proof.Machine

namespace Sys2Proof.Proofs

open Sys2Proof.Machine

/-- Settles O46: the elements of `H` are the words packed into the ROM, and these grow by the same number each. -/
theorem bmwInitialValues : Obligations.BmwInitialValues := by
  refine fun i hi => ⟨?_, ?_, ?_, ?_⟩
  · rw [map_hElem_iv (first := 0x00) rfl (by decide) hi, nth_bmwIV_32 (by decide) hi]
    rfl
  · rw [map_hElem_iv (first := 0x40) rfl (by decide) hi, nth_bmwIV_32 (by decide) hi]
    rfl
  · rw [map_hElem_iv (first := 0x00) rfl (by decide) hi, nth_bmwIV_64 (by decide) hi]
    rfl
  · rw [map_hElem_iv (first := 0x80) rfl (by decide) hi, nth_bmwIV_64 (by decide) hi]
    rfl

/-- Settles O57: each function takes its amounts from its row of the table for the width. -/
theorem bmwMixingFunctions : Obligations.BmwMixingFunctions := by
  refine ⟨fun x => ?_, fun x => ?_, fun j _ => ⟨bmwK_32 j, bmwK_64 j⟩⟩
  all_goals
    exact ⟨bmwS_of_amounts (by decide) rfl x, bmwS_of_amounts (by decide) rfl x, bmwS_of_amounts (by decide) rfl x,
      bmwS_of_amounts (by decide) rfl x, bmwS_four x, bmwS_five x, map_bmwR x⟩

end Sys2Proof.Proofs
end

section
/-! PROOFS. The quadruple pipe of BMW: its first half from the signed sums (R165, R166), its second half word after word
(R167 to R171). -/

namespace Sys2Proof.Machine

/-! ### The signed sums (R165) -/

theorem nth_xorList {w : Nat} {xs ys : List (BitVec w)} (hlen : xs.length = ys.length) (i : Nat) :
    nth (xorList xs ys) i = nth xs i ^^^ nth ys i := by
  simp only [nth, xorList, List.getD_eq_getElem?_getD, List.getElem?_zipWith]
  by_cases hi : i < xs.length
  · simp [hi, hlen ▸ hi]
  · simp [List.getElem?_eq_none (Nat.le_of_not_lt hi), List.getElem?_eq_none (hlen ▸ Nat.le_of_not_lt hi)]

/-- One term of a row of the sign table, applied to the sum before it. -/
def bmwAddTerm {w : Nat} (t : List (BitVec w)) (acc : BitVec w) (p : BmwTerm) : BitVec w :=
  if p.1 then acc + nth t p.2 else acc - nth t p.2

@[simp] theorem bmwAddTerm_plus {w : Nat} (t : List (BitVec w)) (acc : BitVec w) (i : Nat) :
    bmwAddTerm t acc (true, i) = acc + nth t i := rfl

@[simp] theorem bmwAddTerm_minus {w : Nat} (t : List (BitVec w)) (acc : BitVec w) (i : Nat) :
    bmwAddTerm t acc (false, i) = acc - nth t i := rfl

theorem bmwSum_eq_foldl {w : Nat} (t : List (BitVec w)) (row : List BmwTerm) :
    bmwSum t row = row.foldl (bmwAddTerm t) 0 := rfl

/-- Every row of the table starts with a term that is added. -/
theorem bmwSum_cons_plus {w : Nat} (t : List (BitVec w)) (i : Nat) (row : List BmwTerm) :
    bmwSum t ((true, i) :: row) = row.foldl (bmwAddTerm t) (nth t i) := by
  rw [bmwSum_eq_foldl, List.foldl_cons, bmwAddTerm_plus, zero_add]

theorem bmwSum_of_zero {w : Nat} {t : List (BitVec w)} (ht : ∀ i, nth t i = 0) (row : List BmwTerm) :
    bmwSum t row = 0 := by
  refine List.foldlRecOn row _ (motive := fun acc => acc = 0) rfl fun acc hacc p _ => ?_
  simp [hacc, ht]

/-! ### The first half (R166) -/

@[simp] theorem length_bmwQ0 {w : Nat} (H M : List (BitVec w)) : (bmwQ0 H M).length = 16 := by simp [bmwQ0]

theorem nth_bmwQ0 {w : Nat} (H M : List (BitVec w)) {i : Nat} (hi : i < 16) :
    nth (bmwQ0 H M) i = bmwS (i % 5) (nth (bmwW H M) i) + nth H ((i + 1) % 16) :=
  nth_map_range _ hi

/-- The corner case of R165: every difference is zero, so every sum is. -/
theorem bmwW_self {w : Nat} (H : List (BitVec w)) : bmwW H H = List.replicate 16 0 := by
  have hzero : ∀ i, nth (xorList H H) i = 0 := fun i => (nth_xorList rfl i).trans BitVec.xor_self
  exact List.map_eq_replicate_iff.mpr fun row _ => bmwSum_of_zero hzero row

theorem nth_bmwQ0_self {w : Nat} (H : List (BitVec w)) {i : Nat} (hi : i < 16) :
    nth (bmwQ0 H H) i = nth H ((i + 1) % 16) := by
  have hzero : nth (bmwW H H) i = 0 := by
    rw [bmwW_self, nth_eq_getElem (by simpa using hi), List.getElem_replicate]
  simp [nth_bmwQ0 H H hi, hzero]

/-! ### One word of the second half (R169, R170) -/

theorem bmwExpand1_eq {w : Nat} (j : Nat) (Q H M : List (BitVec w)) :
    let q := fun k => nth Q (j + k)
    bmwExpand1 j Q H M =
      bmwS 1 (q 0) + bmwS 2 (q 1) + bmwS 3 (q 2) + bmwS 0 (q 3) + bmwS 1 (q 4) + bmwS 2 (q 5) + bmwS 3 (q 6) +
        bmwS 0 (q 7) + bmwS 1 (q 8) + bmwS 2 (q 9) + bmwS 3 (q 10) + bmwS 0 (q 11) + bmwS 1 (q 12) +
        bmwS 2 (q 13) + bmwS 3 (q 14) + bmwS 0 (q 15) + bmwAddElt j H M := by
  simp [bmwExpand1, List.range_succ]

/-- A new word reads the sixteen words before it and no other. -/
theorem bmwExpandWord_congr {w : Nat} {j : Nat} {P Q : List (BitVec w)} (h : ∀ k, k < 16 → nth P (j + k) = nth Q (j + k))
    (H M : List (BitVec w)) : bmwExpandWord j P H M = bmwExpandWord j Q H M := by
  have h0 : nth P j = nth Q j := h 0 (by decide)
  have h1 : bmwExpand1 j P H M = bmwExpand1 j Q H M := by simp [bmwExpand1_eq, h, h0]
  have h2 : bmwExpand2 j P H M = bmwExpand2 j Q H M := by simp [bmwExpand2, h, h0]
  simp only [bmwExpandWord, h1, h2]

/-! ### The second half (R171) -/

/-- The pipe after the first `n` rounds of `BMW.EXPAND`. -/
def bmwExpandRounds {w : Nat} (Q H M : List (BitVec w)) (n : Nat) : List (BitVec w) :=
  (List.range n).foldl (fun Q j => Q ++ [bmwExpandWord j Q H M]) Q

section Rounds

variable {w : Nat} (Q H M : List (BitVec w))

theorem bmwExpand_eq_rounds : bmwExpand Q H M = bmwExpandRounds Q H M 16 := rfl

@[simp] theorem bmwExpandRounds_zero : bmwExpandRounds Q H M 0 = Q := rfl

theorem bmwExpandRounds_succ (n : Nat) :
    bmwExpandRounds Q H M (n + 1) = bmwExpandRounds Q H M n ++ [bmwExpandWord n (bmwExpandRounds Q H M n) H M] := by
  rw [bmwExpandRounds, List.range_succ, List.foldl_concat, ← bmwExpandRounds]

@[simp] theorem length_bmwExpandRounds (n : Nat) : (bmwExpandRounds Q H M n).length = Q.length + n := by
  induction n with
  | zero => rfl
  | succ n ih => rw [bmwExpandRounds_succ, List.length_append, ih, List.length_singleton, Nat.add_assoc]

/-- Later rounds keep the words that are there. -/
theorem nth_bmwExpandRounds_of_le {m n : Nat} (hmn : m ≤ n) {i : Nat} (hi : i < Q.length + m) :
    nth (bmwExpandRounds Q H M n) i = nth (bmwExpandRounds Q H M m) i := by
  induction n, hmn using Nat.le_induction with
  | base => rfl
  | succ n hmn ih =>
    have hin : i < (bmwExpandRounds Q H M n).length := by rw [length_bmwExpandRounds]; omega
    rw [← ih, bmwExpandRounds_succ, nth, List.getD_append _ _ _ _ hin, ← nth]

/-- Round `j` appends the word it computes from the pipe before it. -/
theorem nth_bmwExpandRounds_succ (j : Nat) :
    nth (bmwExpandRounds Q H M (j + 1)) (Q.length + j) = bmwExpandWord j (bmwExpandRounds Q H M j) H M := by
  rw [bmwExpandRounds_succ, nth, List.getD_append_right _ _ _ _ (by simp)]
  simp

theorem take_bmwExpand : (bmwExpand Q H M).take Q.length = Q := by
  refine List.ext_getElem (by simp [bmwExpand_eq_rounds]) fun i hi hiQ => ?_
  rw [List.getElem_take, ← nth_eq_getElem, ← nth_eq_getElem hiQ, bmwExpand_eq_rounds,
    nth_bmwExpandRounds_of_le Q H M (Nat.zero_le 16) (by simpa using hiQ), bmwExpandRounds_zero]

/-- Each of the sixteen new words is the round's word over the finished pipe. -/
theorem nth_bmwExpand (hQ : Q.length = 16) {j : Nat} (hj : j < 16) :
    nth (bmwExpand Q H M) (j + 16) = bmwExpandWord j (bmwExpand Q H M) H M := by
  have hread : ∀ k, k < 16 → nth (bmwExpandRounds Q H M j) (j + k) = nth (bmwExpandRounds Q H M 16) (j + k) :=
    fun k hk => (nth_bmwExpandRounds_of_le Q H M (by omega) (by omega)).symm
  calc nth (bmwExpand Q H M) (j + 16)
      = nth (bmwExpandRounds Q H M 16) (Q.length + j) := by rw [bmwExpand_eq_rounds, hQ, Nat.add_comm]
    _ = nth (bmwExpandRounds Q H M (j + 1)) (Q.length + j) := nth_bmwExpandRounds_of_le Q H M (by omega) (by omega)
    _ = bmwExpandWord j (bmwExpandRounds Q H M j) H M := nth_bmwExpandRounds_succ Q H M j
    _ = bmwExpandWord j (bmwExpand Q H M) H M := bmwExpandWord_congr hread H M

end Rounds

end Sys2Proof.Machine

namespace Sys2Proof.Proofs

open Sys2Proof.Machine

/-- Settles O47: each row of the table is summed from its first term on, and with `H = M` every term is zero. -/
theorem bmwFirstPipeHalf : Obligations.BmwFirstPipeHalf := by
  refine ⟨fun w H M hH hM => ?_, fun w H M => ⟨length_bmwQ0 H M, fun i => nth_bmwQ0 H M⟩,
    fun w H _ => ⟨bmwW_self H, fun i => nth_bmwQ0_self H⟩⟩
  have hterm := nth_xorList (hM.trans hH.symm)
  simp only [bmwW, bmwTerms, List.map_cons, List.map_nil, bmwSum_cons_plus, List.foldl_cons, List.foldl_nil,
    bmwAddTerm_plus, bmwAddTerm_minus, hterm]

/-- Settles O58: a round appends the word it computes, and what it reads no later round changes. -/
theorem bmwExpandAppendsSixteenWords : Obligations.BmwExpandAppendsSixteenWords := by
  intro w Q H M hQ
  refine ⟨by rw [bmwExpand_eq_rounds, length_bmwExpandRounds, hQ], hQ ▸ take_bmwExpand Q H M, fun j hj => ?_⟩
  rw [nth_bmwExpand Q H M hQ hj, bmwExpandWord, bmwExpand1_eq]
  rfl

end Sys2Proof.Proofs
end

section
/-! PROOFS. The folding of the pipe (R172), and the final stage as a compression (R173, R176, R177). -/

namespace Sys2Proof.Machine

/-- A stretch of a list, place by place. -/
theorem take_drop_eq_map_nth {w : Nat} {xs : List (BitVec w)} {s n : Nat} (h : s + n ≤ xs.length) :
    (xs.drop s).take n = (List.range n).map fun k => nth xs (s + k) := by
  refine List.ext_getElem (by simp; omega) fun k _ hk => ?_
  have hk : k < n := by simpa using hk
  have hin : s + k < xs.length := by omega
  simp [nth_eq_getElem hin]

section Sums

variable {w : Nat} {Q : List (BitVec w)} (hQ : Q.length = 32)
include hQ

theorem bmwXL_eq :
    bmwXL Q = nth Q 16 ^^^ nth Q 17 ^^^ nth Q 18 ^^^ nth Q 19 ^^^ nth Q 20 ^^^ nth Q 21 ^^^ nth Q 22 ^^^ nth Q 23 := by
  rw [bmwXL, take_drop_eq_map_nth (by omega)]
  simp [List.range_succ]

theorem bmwXH_eq :
    bmwXH Q = bmwXL Q ^^^ nth Q 24 ^^^ nth Q 25 ^^^ nth Q 26 ^^^ nth Q 27 ^^^ nth Q 28 ^^^ nth Q 29 ^^^ nth Q 30 ^^^
      nth Q 31 := by
  rw [bmwXH, take_drop_eq_map_nth (by omega)]
  simp [List.range_succ]

end Sums

end Sys2Proof.Machine

namespace Sys2Proof.Proofs

open Sys2Proof.Machine

/-- Settles O59: with `XL` and `XH` written out the words of `FOLD` are its lines, and `CF` is a list of sums. -/
theorem bmwFoldAndFinal : Obligations.BmwFoldAndFinal := by
  refine ⟨fun w Q M hQ => ?_, fun w H M => rfl, fun H => ?_, fun H => ?_⟩
  · intro q m g xl xh
    have hxl : bmwXL Q = xl := bmwXL_eq hQ
    have hxh : bmwXH Q = xh := by rw [bmwXH_eq hQ, hxl]
    rw [← hxl, ← hxh]
    exact ⟨rfl, rfl, rfl, rfl, rfl, rfl, rfl, rfl, rfl, rfl, rfl, rfl, rfl, rfl, rfl, rfl, rfl⟩
  · rw [bmwFinal, bmwCF_32]
  · rw [bmwFinal, bmwCF_64]

end Sys2Proof.Proofs
end

section
/-! PROOFS. The field product of R120 is linear in each factor and associative, the S-box of R121 is
injective, and sums of bytes may be exchanged: what undoing SubBytes and MixBytes (R197, R198) takes. -/

namespace Sys2Proof.Machine

/-! ### The product is linear in each factor and associative (R120) -/

theorem xtime_zero : xtime 0 = 0 := by decide

theorem xtime_eq_shift_xor (a : Byte) : xtime a = a <<< 1 ^^^ (if a.getLsbD 7 then 0x1B else 0) := by
  rw [xtime]
  cases a.getLsbD 7 <;> simp

theorem ite_xor (p q : Bool) (a : Byte) :
    (if p ^^ q then a else 0) = (if p then a else 0) ^^^ (if q then a else 0) := by
  cases p <;> cases q <;> simp

theorem xtime_xor (a b : Byte) : xtime (a ^^^ b) = xtime a ^^^ xtime b := by
  simp only [xtime_eq_shift_xor, BitVec.getLsbD_xor, BitVec.shiftLeft_xor_distrib, ite_xor]
  ac_rfl

theorem gmulSteps_xor_left (n : Nat) (a b c : Byte) :
    gmulSteps n (a ^^^ b) c = gmulSteps n a c ^^^ gmulSteps n b c := by
  induction n generalizing a b c with
  | zero => simp [gmulSteps]
  | succ n ih =>
    simp only [gmulSteps_succ, xtime_xor, ih]
    split
    · ac_rfl
    · simp

theorem gmulSteps_xor_right (n : Nat) (a b c : Byte) :
    gmulSteps n a (b ^^^ c) = gmulSteps n a b ^^^ gmulSteps n a c := by
  induction n generalizing a b c with
  | zero => simp [gmulSteps]
  | succ n ih =>
    simp only [gmulSteps_succ, BitVec.getLsbD_xor, ite_xor, BitVec.ushiftRight_xor_distrib, ih]
    ac_rfl

theorem gmul_xor_left (a b c : Byte) : gmul (a ^^^ b) c = gmul a c ^^^ gmul b c := gmulSteps_xor_left 8 a b c

theorem gmul_xor_right (a b c : Byte) : gmul a (b ^^^ c) = gmul a b ^^^ gmul a c := gmulSteps_xor_right 8 a b c

theorem gmulSteps_xtime_left (n : Nat) (a b : Byte) : gmulSteps n (xtime a) b = xtime (gmulSteps n a b) := by
  induction n generalizing a b with
  | zero => exact xtime_zero.symm
  | succ n ih =>
    have hbit : (if b.getLsbD 0 then xtime a else 0) = xtime (if b.getLsbD 0 then a else 0) := by
      rw [apply_ite xtime, xtime_zero]
    rw [gmulSteps_succ, gmulSteps_succ, xtime_xor, ih, hbit]

theorem gmul_xtime_left (a b : Byte) : gmul (xtime a) b = xtime (gmul a b) := gmulSteps_xtime_left 8 a b

/-- The modulus of R120: `x^8` is `x^4 + x^3 + x + 1`. -/
theorem gmul_xtime_top : ∀ a : Byte, gmul (xtime a) 0x80 = gmul a 0x1B := by decide +kernel

/-- A byte is its low seven bits and its top bit: `XTIME` moves the first up and reduces the second. -/
theorem eq_low_xor_top (b : Byte) : b = b <<< 1 >>> 1 ^^^ (if b.getLsbD 7 then 0x80 else 0) := by
  decide +revert +kernel

theorem gmul_xtime_right (a b : Byte) : gmul a (xtime b) = xtime (gmul a b) := by
  have hlow : gmul a (b <<< 1) = gmul (xtime a) (b <<< 1 >>> 1) := by rw [gmul_eq]; simp
  have htop : gmul a (if b.getLsbD 7 then 0x1B else 0) = gmul (xtime a) (if b.getLsbD 7 then 0x80 else 0) := by
    split
    · exact (gmul_xtime_top a).symm
    · rw [gmul_zero, gmul_zero]
  rw [xtime_eq_shift_xor, gmul_xor_right, hlow, htop, ← gmul_xor_right, ← eq_low_xor_top, gmul_xtime_left]

theorem gmul_gmulSteps (n : Nat) (a b c : Byte) : gmul a (gmulSteps n b c) = gmulSteps n (gmul a b) c := by
  induction n generalizing b c with
  | zero => exact gmul_zero a
  | succ n ih =>
    have hbit : gmul a (if c.getLsbD 0 then b else 0) = if c.getLsbD 0 then gmul a b else 0 := by
      rw [apply_ite (gmul a), gmul_zero]
    rw [gmulSteps_succ, gmul_xor_right, hbit, ih, gmul_xtime_right, gmulSteps_succ]

theorem gmul_assoc (a b c : Byte) : gmul (gmul a b) c = gmul a (gmul b c) := (gmul_gmulSteps 8 a b c).symm

theorem zero_gmul (a : Byte) : gmul 0 a = 0 := by
  have h := gmul_xor_left a a a
  rwa [BitVec.xor_self, BitVec.xor_self] at h

theorem one_gmul : ∀ a : Byte, gmul 1 a = a := by decide +kernel

theorem gmul_one (a : Byte) : gmul a 1 = a := by
  calc gmul a 1
      = a ^^^ gmul (xtime a) 0 := gmul_eq a 1
    _ = a := by rw [gmul_zero]; exact BitVec.xor_zero

/-- Multiplying by a byte with an inverse reaches every byte, and so keeps the 256 bytes apart. -/
theorem gmul_right_injective_of_inverse {a b : Byte} (h : gmul a b = 1) : Function.Injective fun c => gmul c b :=
  Finite.injective_iff_surjective.mpr fun c => ⟨gmul c a, by rw [gmul_assoc, h, gmul_one]⟩

/-! ### The S-box keeps bytes apart (R121) -/

theorem sbox_ne_sbox_zero {a : Byte} (ha : a ≠ 0) : sbox a ≠ sbox 0 := by
  intro h
  have hone := gmul_affineInverse_sbox a ha
  rw [h, affineInverse_sbox_zero, gmul_zero] at hone
  exact absurd hone (by decide)

/-- Two bytes of one S-box value that are not zero have one field inverse. -/
theorem sbox_injective : Function.Injective sbox := by
  intro a b h
  by_cases ha : a = 0
  · by_contra hne
    exact sbox_ne_sbox_zero (fun hb => hne (ha.trans hb.symm)) (h.symm.trans (congrArg sbox ha))
  · have hb : b ≠ 0 := fun hb => sbox_ne_sbox_zero ha (h.trans (congrArg sbox hb))
    have hinv := gmul_affineInverse_sbox b hb
    refine gmul_right_injective_of_inverse hinv (Eq.trans ?_ hinv.symm)
    rw [← h]
    exact gmul_affineInverse_sbox a ha

/-! ### Sums of bytes -/

/-- The exclusive or of `f j` for the `j` of a list, in the model's order. -/
def xorSum (l : List Nat) (f : Nat → Byte) : Byte := l.foldl (fun acc j => acc ^^^ f j) 0

@[simp] theorem xorSum_nil (f : Nat → Byte) : xorSum [] f = 0 := rfl

theorem xorSum_concat (l : List Nat) (j : Nat) (f : Nat → Byte) : xorSum (l ++ [j]) f = xorSum l f ^^^ f j := by
  simp [xorSum]

theorem xorSum_congr {l : List Nat} {f g : Nat → Byte} (h : ∀ j ∈ l, f j = g j) : xorSum l f = xorSum l g :=
  List.foldl_ext _ _ _ fun acc j hj => by rw [h j hj]

theorem xorSum_zero (l : List Nat) : (xorSum l fun _ => 0) = 0 := by
  induction l using List.reverseRecOn with
  | nil => rfl
  | append_singleton l j ih =>
    rw [xorSum_concat, ih]
    exact BitVec.xor_self

theorem xorSum_xor (l : List Nat) (f g : Nat → Byte) :
    (xorSum l fun j => f j ^^^ g j) = xorSum l f ^^^ xorSum l g := by
  induction l using List.reverseRecOn with
  | nil => simp
  | append_singleton l j ih =>
    rw [xorSum_concat, xorSum_concat, xorSum_concat, ih]
    ac_rfl

/-- Two sums may be exchanged. -/
theorem xorSum_comm (l m : List Nat) (f : Nat → Nat → Byte) :
    (xorSum l fun i => xorSum m (f i)) = xorSum m fun j => xorSum l fun i => f i j := by
  induction l using List.reverseRecOn with
  | nil => exact (xorSum_zero m).symm
  | append_singleton l i ih => simp only [xorSum_concat, xorSum_xor, ih]

theorem map_xorSum {φ : Byte → Byte} (hzero : φ 0 = 0) (hxor : ∀ a b, φ (a ^^^ b) = φ a ^^^ φ b) (l : List Nat)
    (f : Nat → Byte) : φ (xorSum l f) = xorSum l fun j => φ (f j) := by
  induction l using List.reverseRecOn with
  | nil => exact hzero
  | append_singleton l j ih => rw [xorSum_concat, hxor, ih, xorSum_concat]

theorem gmul_xorSum (a : Byte) (l : List Nat) (f : Nat → Byte) :
    gmul a (xorSum l f) = xorSum l fun j => gmul a (f j) :=
  map_xorSum (gmul_zero a) (gmul_xor_right a) l f

theorem xorSum_gmul (b : Byte) (l : List Nat) (f : Nat → Byte) :
    gmul (xorSum l f) b = xorSum l fun j => gmul (f j) b :=
  map_xorSum (φ := fun a => gmul a b) (zero_gmul b) (fun a a' => gmul_xor_left a a' b) l f

/-- A sum with one term that is not zero. -/
theorem xorSum_range_ite {n i : Nat} (hi : i < n) (f : Nat → Byte) :
    (xorSum (List.range n) fun k => if i = k then f k else 0) = f i := by
  induction n with
  | zero => omega
  | succ n ih =>
    rw [List.range_succ, xorSum_concat]
    by_cases hlast : i = n
    · have hrest : (xorSum (List.range n) fun k => if i = k then f k else 0) = xorSum (List.range n) fun _ => 0 :=
        xorSum_congr fun k hk => if_neg (by have := List.mem_range.mp hk; omega)
      rw [hrest, xorSum_zero, if_pos hlast, hlast]
      exact BitVec.zero_xor
    · rw [ih (by omega), if_neg hlast]
      exact BitVec.xor_zero

end Sys2Proof.Machine
end

section
/-! PROOFS. Groestl's matrices: their bytes column by column (R192), and the steps of a round, each of which keeps
matrices apart (R196 to R198), so that `P` and `Q` are permutations (R200). -/

namespace Sys2Proof.Machine

/-! ### A matrix is its cells (R190) -/

/-- The matrix of `nc` columns with the byte `f r c` at row `r`, column `c`. -/
def matrixOf (nc : Nat) (f : Nat → Nat → Byte) : Columns :=
  (List.range nc).map fun c => (List.range 8).map fun r => f r c

theorem groestlToMatrix_eq (nc : Nat) (x : Bytes) :
    groestlToMatrix nc x = matrixOf nc fun r c => nth x (8 * c + r) := rfl

theorem groestlArc_eq (nc : Nat) (kind : GroestlKind) (A : Columns) (r : Nat) :
    groestlArc nc kind A r = matrixOf nc fun i c => groestlArcByte kind r c i (cell A i c) := rfl

theorem groestlShift_eq (nc : Nat) (kind : GroestlKind) (A : Columns) :
    groestlShift nc kind A = matrixOf nc fun i c => cell A i ((c + (groestlShiftVector nc kind).getD i 0) % nc) := rfl

theorem isMatrix_matrixOf (nc : Nat) (f : Nat → Nat → Byte) : IsMatrix nc (matrixOf nc f) := by
  simp [IsMatrix, matrixOf]

theorem cell_matrixOf {nc r c : Nat} (f : Nat → Nat → Byte) (hr : r < 8) (hc : c < nc) :
    cell (matrixOf nc f) r c = f r c := by
  have hcolumn : (matrixOf nc f).getD c [] = (List.range 8).map fun r => f r c := by simp [matrixOf, hc]
  rw [cell, hcolumn, nth_map_range _ hr]

/-- Where two built matrices are equal, so are the bytes they were built from. -/
theorem eq_of_matrixOf_eq {nc r c : Nat} {f g : Nat → Nat → Byte} (h : matrixOf nc f = matrixOf nc g) (hr : r < 8)
    (hc : c < nc) : f r c = g r c := by
  rw [← cell_matrixOf f hr hc, h, cell_matrixOf g hr hc]

theorem map_nth_range {w n : Nat} {xs : List (BitVec w)} (h : xs.length = n) : (List.range n).map (nth xs) = xs := by
  subst h
  exact List.ext_getElem (by simp) fun i _ hi => by simp [nth_eq_getElem hi]

theorem IsMatrix.matrixOf_cell {nc : Nat} {A : Columns} (h : IsMatrix nc A) : matrixOf nc (cell A) = A := by
  obtain ⟨rfl, hrows⟩ := h
  refine List.ext_getElem (by simp [matrixOf]) fun c _ hc => ?_
  have hcolumn : A.getD c [] = A[c] := List.getD_eq_getElem _ _ hc
  simp only [matrixOf, List.getElem_map, List.getElem_range, cell, hcolumn]
  exact map_nth_range (hrows _ (List.getElem_mem hc))

theorem IsMatrix.ext {nc : Nat} {A B : Columns} (hA : IsMatrix nc A) (hB : IsMatrix nc B)
    (h : ∀ r c, r < 8 → c < nc → cell A r c = cell B r c) : A = B := by
  rw [← hA.matrixOf_cell, ← hB.matrixOf_cell]
  refine List.map_congr_left fun c hc => List.map_congr_left fun r hr => ?_
  exact h r c (List.mem_range.mp hr) (List.mem_range.mp hc)

/-! ### Byte strings and matrices (R192) -/

theorem cell_groestlToMatrix {nc r c : Nat} (x : Bytes) (hr : r < 8) (hc : c < nc) :
    cell (groestlToMatrix nc x) r c = nth x (8 * c + r) := by
  rw [groestlToMatrix_eq, cell_matrixOf _ hr hc]

/-- The columns are the pieces of eight bytes, in order. -/
theorem groestlFromMatrix_groestlToMatrix {nc : Nat} {x : Bytes} (hx : x.length = 8 * nc) :
    groestlFromMatrix (groestlToMatrix nc x) = x := by
  have hcolumns : groestlToMatrix nc x = (List.range nc).map fun c => (x.drop (8 * c)).take 8 :=
    List.map_congr_left fun c hc => (take_drop_eq_map_nth (by have := List.mem_range.mp hc; omega)).symm
  rw [groestlFromMatrix, hcolumns, ← List.flatMap_def, flatMap_range_take_drop, ← hx, List.take_length]

theorem nth_groestlFromMatrix {nc r c : Nat} {A : Columns} (h : IsMatrix nc A) (hr : r < 8) (hc : c < nc) :
    nth (groestlFromMatrix A) (8 * c + r) = cell A r c := by
  obtain ⟨rfl, hrows⟩ := h
  have hpieces : A.flatMap (fun col => (List.range 8).map (nth col)) = groestlFromMatrix A := by
    rw [List.flatMap_def, List.map_congr_left fun col hcol => map_nth_range (hrows col hcol), List.map_id',
      groestlFromMatrix]
  have hcolumn : A.getD c [] = A[c] := List.getD_eq_getElem _ _ hc
  rw [← hpieces, nth, getD_flatMap (fun _ => by simp) hc hr, ← nth, nth_map_range _ hr, cell, hcolumn]

theorem groestlToMatrix_groestlFromMatrix {nc : Nat} {A : Columns} (h : IsMatrix nc A) :
    groestlToMatrix nc (groestlFromMatrix A) = A :=
  (isMatrix_groestlToMatrix nc _).ext h fun _ _ hr hc => by
    rw [cell_groestlToMatrix _ hr hc, nth_groestlFromMatrix h hr hc]

/-! ### AddRoundConstant, SubBytes and ShiftBytes (R196, R197) -/

/-- AddRoundConstant adds to each byte a byte that depends on its place and the round. -/
theorem groestlArcByte_eq_xor (kind : GroestlKind) (r c i : Nat) (x : Byte) :
    groestlArcByte kind r c i x = x ^^^ groestlArcByte kind r c i 0 := by
  cases kind
  case p => by_cases hi : i = 0 <;> simp [groestlArcByte, hi]
  case q => by_cases hi : i = 7 <;> simp [groestlArcByte, hi, BitVec.xor_assoc]

theorem groestlArcByte_injective (kind : GroestlKind) (r c i : Nat) :
    Function.Injective (groestlArcByte kind r c i) := by
  intro x y h
  rw [groestlArcByte_eq_xor, groestlArcByte_eq_xor kind r c i y] at h
  exact (BitVec.xor_left_inj _).mp h

theorem groestlArc_injOn (nc : Nat) (kind : GroestlKind) (r : Nat) :
    Set.InjOn (fun A => groestlArc nc kind A r) {A | IsMatrix nc A} := by
  intro A hA B hB h
  simp only [groestlArc_eq] at h
  exact hA.ext hB fun i c hi hc => groestlArcByte_injective kind r c i (eq_of_matrixOf_eq h hi hc)

theorem groestlSub_injective : Function.Injective groestlSub :=
  List.map_injective_iff.mpr (List.map_injective_iff.mpr sbox_injective)

theorem IsMatrix.groestlSub {nc : Nat} {A : Columns} (h : IsMatrix nc A) : IsMatrix nc (groestlSub A) := by
  obtain ⟨hcols, hrows⟩ := h
  refine ⟨by simp [Machine.groestlSub, hcols], fun col hcol => ?_⟩
  obtain ⟨col, hmem, rfl⟩ := List.mem_map.mp hcol
  rw [List.length_map, hrows col hmem]

/-- Turning a row of `nc` places by `σ` reaches every place. -/
theorem exists_add_mod_eq {nc c : Nat} (hc : c < nc) (σ : Nat) : ∃ c', c' < nc ∧ (c' + σ) % nc = c := by
  have hpos : 0 < nc := by omega
  have hle : σ ≤ nc * σ := Nat.le_mul_of_pos_left σ hpos
  refine ⟨(c + (nc * σ - σ)) % nc, Nat.mod_lt _ hpos, ?_⟩
  have hsum : c + (nc * σ - σ) + σ = c + nc * σ := by omega
  rw [Nat.mod_add_mod, hsum, Nat.add_mul_mod_self_left, Nat.mod_eq_of_lt hc]

theorem groestlShift_injOn (nc : Nat) (kind : GroestlKind) : Set.InjOn (groestlShift nc kind) {A | IsMatrix nc A} := by
  intro A hA B hB h
  simp only [groestlShift_eq] at h
  refine hA.ext hB fun i c hi hc => ?_
  obtain ⟨c', hc', hplace⟩ := exists_add_mod_eq hc ((groestlShiftVector nc kind).getD i 0)
  simpa only [hplace] using eq_of_matrixOf_eq h hi hc'

/-! ### MixBytes (R198) -/

/-- The first row of the inverse of the circulant matrix `B` of R194. -/
def groestlUnmixCoeffs : Bytes := [0x13, 0x5A, 0x54, 0x72, 0x50, 0xDF, 0x45, 0x53]

/-- The inverse of `B`, circulant like `B`. -/
def groestlBInv (i j : Nat) : Byte := nth groestlUnmixCoeffs ((j + 8 - i) % 8)

/-- A column multiplied by the inverse of `B`. -/
def groestlUnmixColumn (col : Bytes) : Bytes :=
  (List.range 8).map fun i => xorSum (List.range 8) fun j => gmul (groestlBInv i j) (nth col j)

theorem groestlMixEntry_eq (col : Bytes) (i : Nat) :
    groestlMixEntry col i = xorSum (List.range 8) fun j => gmul (groestlB i j) (nth col j) := rfl

theorem groestlBInv_mul_groestlB : ∀ i, i < 8 → ∀ k, k < 8 →
    (xorSum (List.range 8) fun j => gmul (groestlBInv i j) (groestlB j k)) = if i = k then 1 else 0 := by
  decide +kernel

/-- The inverse of `B` undoes MixBytes entry by entry: exchange the two sums and multiply the matrices first. -/
theorem xorSum_groestlBInv_groestlMixEntry (col : Bytes) {i : Nat} (hi : i < 8) :
    (xorSum (List.range 8) fun j => gmul (groestlBInv i j) (groestlMixEntry col j)) = nth col i := by
  calc (xorSum (List.range 8) fun j => gmul (groestlBInv i j) (groestlMixEntry col j))
      = xorSum (List.range 8) fun j => xorSum (List.range 8) fun k =>
          gmul (gmul (groestlBInv i j) (groestlB j k)) (nth col k) := by
        simp only [groestlMixEntry_eq, gmul_xorSum, gmul_assoc]
    _ = xorSum (List.range 8) fun k =>
          gmul (xorSum (List.range 8) fun j => gmul (groestlBInv i j) (groestlB j k)) (nth col k) := by
        rw [xorSum_comm]
        simp only [xorSum_gmul]
    _ = xorSum (List.range 8) fun k => if i = k then nth col k else 0 := by
        refine xorSum_congr fun k hk => ?_
        rw [groestlBInv_mul_groestlB i hi k (List.mem_range.mp hk)]
        split
        · exact one_gmul _
        · exact zero_gmul _
    _ = nth col i := xorSum_range_ite hi (nth col)

theorem groestlUnmixColumn_map_groestlMixEntry {col : Bytes} (hcol : col.length = 8) :
    groestlUnmixColumn ((List.range 8).map (groestlMixEntry col)) = col := by
  refine Eq.trans (List.map_congr_left fun i hi => ?_) (map_nth_range hcol)
  rw [← xorSum_groestlBInv_groestlMixEntry col (List.mem_range.mp hi)]
  exact xorSum_congr fun j hj => by rw [nth_map_range _ (List.mem_range.mp hj)]

theorem groestlMix_injOn (nc : Nat) : Set.InjOn groestlMix {A | IsMatrix nc A} := by
  have hundo : Set.LeftInvOn (List.map groestlUnmixColumn) groestlMix {A | IsMatrix nc A} := by
    rintro A ⟨-, hrows⟩
    rw [groestlMix, List.map_map]
    exact (List.map_congr_left fun col hcol => groestlUnmixColumn_map_groestlMixEntry (hrows col hcol)).trans
      (List.map_id A)
  exact hundo.injOn

/-! ### The permutations (R200) -/

theorem groestlRound_injOn (nc : Nat) (kind : GroestlKind) (r : Nat) :
    Set.InjOn (fun A => groestlRound nc kind A r) {A | IsMatrix nc A} := by
  intro A hA B hB h
  have harc (A : Columns) : IsMatrix nc (groestlArc nc kind A r) := isMatrix_matrixOf nc _
  have hshift (A : Columns) : IsMatrix nc (groestlShift nc kind A) := isMatrix_matrixOf nc _
  have hmixed := groestlMix_injOn nc (hshift _) (hshift _) h
  have hshifted := groestlShift_injOn nc kind (harc A).groestlSub (harc B).groestlSub hmixed
  exact groestlArc_injOn nc kind r hA hB (groestlSub_injective hshifted)

/-- A fold whose every step is injective on a set, and stays in it, is injective on the set. -/
theorem foldl_injOn {α β : Type} {S : Set α} {f : α → β → α} (hinj : ∀ b, Set.InjOn (fun a => f a b) S)
    (hmaps : ∀ b, Set.MapsTo (fun a => f a b) S S) (l : List β) : Set.InjOn (fun a => l.foldl f a) S := by
  induction l with
  | nil => exact Set.injOn_id S
  | cons b l ih => exact ih.comp (hinj b) (hmaps b)

theorem groestlPerm_injOn (nc : Nat) (kind : GroestlKind) :
    Set.InjOn (groestlPerm nc kind) {x | x.length = 8 * nc} := by
  have hto : Set.InjOn (groestlToMatrix nc) {x | x.length = 8 * nc} :=
    Set.LeftInvOn.injOn fun _ hx => groestlFromMatrix_groestlToMatrix hx
  have hfrom : Set.InjOn groestlFromMatrix {A | IsMatrix nc A} :=
    Set.LeftInvOn.injOn fun _ hA => groestlToMatrix_groestlFromMatrix hA
  have hstay (r : Nat) : Set.MapsTo (fun A => groestlRound nc kind A r) {A | IsMatrix nc A} {A | IsMatrix nc A} :=
    fun A _ => isMatrix_groestlRound nc kind A r
  have hrounds := foldl_injOn (groestlRound_injOn nc kind) hstay (List.range (groestlRounds nc))
  have hrun : Set.MapsTo (fun A => (List.range (groestlRounds nc)).foldl (groestlRound nc kind) A)
      {A | IsMatrix nc A} {A | IsMatrix nc A} :=
    fun A hA => List.foldlRecOn _ _ (motive := IsMatrix nc) hA fun A hA r _ => hstay r hA
  exact hfrom.comp (hrounds.comp hto fun x _ => isMatrix_groestlToMatrix nc x)
    (hrun.comp fun x _ => isMatrix_groestlToMatrix nc x)

end Sys2Proof.Machine

namespace Sys2Proof.Proofs

open Sys2Proof.Machine

/-- Settles O48: the columns are the pieces of eight bytes, and a matrix is its cells. -/
theorem groestlMatrixRoundTrip : Obligations.GroestlMatrixRoundTrip :=
  ⟨fun _ x hx => ⟨groestlFromMatrix_groestlToMatrix hx, fun _ _ => cell_groestlToMatrix x⟩,
    fun _ _ hcols hrows => groestlToMatrix_groestlFromMatrix ⟨hcols, hrows⟩⟩

/-- Settles O49: the length is kept, and every step of every round keeps matrices apart. -/
theorem groestlPermutations : Obligations.GroestlPermutations := fun nc kind _ =>
  ⟨fun x _ => length_groestlPerm nc kind x, fun _ _ hx hy => groestlPerm_injOn nc kind hx hy⟩

end Sys2Proof.Proofs
end

section
/-! PROOFS. The JH round place by place: the S-boxes, `L` on each pair and `PERM_d` (R224 to R227), each of which keeps lists
of one length apart, so that a round is a bijection of the lists of its length. -/

namespace Sys2Proof.Machine

/-! ### Lists of one length -/

theorem ext_nth {w n : Nat} {xs ys : List (BitVec w)} (hx : xs.length = n) (hy : ys.length = n)
    (h : ∀ i, i < n → nth xs i = nth ys i) : xs = ys := by
  rw [← map_nth_range hx, ← map_nth_range hy]
  exact List.map_congr_left fun i hi => h i (List.mem_range.mp hi)

/-- Lists of `n` pairs are equal where their pairs are. -/
theorem ext_nth_pairs {w n : Nat} {xs ys : List (BitVec w)} (hx : xs.length = 2 * n) (hy : ys.length = 2 * n)
    (h : ∀ i, i < n → nth xs (2 * i) = nth ys (2 * i) ∧ nth xs (2 * i + 1) = nth ys (2 * i + 1)) : xs = ys := by
  refine ext_nth hx hy fun j hj => ?_
  obtain ⟨i, rfl | rfl⟩ := Nat.even_or_odd' j
  · exact (h i (by omega)).1
  · exact (h i (by omega)).2

/-! ### The selected S-boxes (R224, R227) -/

theorem jhS_injective : ∀ b, Function.Injective (jhS b) := by
  unfold Function.Injective
  decide

theorem nth_zipWith_jhS {cb : List Bool} {a : List Nibble} {i : Nat} (hcb : i < cb.length) (ha : i < a.length) :
    nth (List.zipWith jhS cb a) i = jhS (cb.getD i false) (nth a i) := by
  have hi : i < (List.zipWith jhS cb a).length := by simp [hcb, ha]
  rw [nth_eq_getElem hi, nth_eq_getElem ha, List.getD_eq_getElem _ _ hcb, List.getElem_zipWith]

theorem zipWith_jhS_injOn (cb : List Bool) : Set.InjOn (List.zipWith jhS cb) {a | a.length = cb.length} := by
  intro x hx y hy h
  refine ext_nth hx hy fun i hi => jhS_injective (cb.getD i false) ?_
  rw [← nth_zipWith_jhS hi (hi.trans_eq hx.symm), h, nth_zipWith_jhS hi (hi.trans_eq hy.symm)]

/-! ### `L` on each pair (R225, R227) -/

/-- `L` is two steps that each add to one value a function of the other: the same additions in reverse order undo it. -/
def jhUnL (q : Nibble × Nibble) : Nibble × Nibble :=
  let a := q.1 ^^^ jhMul2 q.2
  (a, q.2 ^^^ jhMul2 a)

theorem jhUnL_leftInverse : Function.LeftInverse jhUnL fun p => jhL p.1 p.2 :=
  fun p => by simp [jhUnL, jhL]

theorem length_jhLPairs : (v : List Nibble) → (jhLPairs v).length = v.length / 2 * 2
  | [] | [_] => by simp [jhLPairs]
  | _ :: _ :: rest => by
    simp only [jhLPairs, List.length_cons, length_jhLPairs rest]
    omega

theorem nth_jhLPairs : (v : List Nibble) → (i : Nat) → 2 * i + 1 < v.length →
    (nth (jhLPairs v) (2 * i), nth (jhLPairs v) (2 * i + 1)) = jhL (nth v (2 * i)) (nth v (2 * i + 1))
  | [], _, h | [_], _, h => by simp at h
  | _ :: _ :: _, 0, _ => rfl
  | _ :: _ :: rest, i + 1, h => nth_jhLPairs rest i (by simp only [List.length_cons] at h; omega)

theorem jhLPairs_injOn (n : Nat) : Set.InjOn jhLPairs {v | v.length = 2 * n} := by
  intro x hx y hy h
  refine ext_nth_pairs hx hy fun i hi => Prod.mk.inj (jhUnL_leftInverse.injective ?_)
  have hplace {v : List Nibble} (hv : v.length = 2 * n) := nth_jhLPairs v i (by omega)
  simpa only [← hplace hx, ← hplace hy] using congrArg (fun w => (nth w (2 * i), nth w (2 * i + 1))) h

/-! ### The permutation (R226) -/

theorem length_jhPermLeft : (w : List Nibble) → (jhPermLeft w).length = w.length / 4 * 2
  | [] | [_] | [_, _] | [_, _, _] => by simp [jhPermLeft]
  | _ :: _ :: _ :: _ :: rest => by
    simp only [jhPermLeft, List.length_cons, length_jhPermLeft rest]
    omega

theorem length_jhPermRight : (w : List Nibble) → (jhPermRight w).length = w.length / 4 * 2
  | [] | [_] | [_, _] | [_, _, _] => by simp [jhPermRight]
  | _ :: _ :: _ :: _ :: rest => by
    simp only [jhPermRight, List.length_cons, length_jhPermRight rest]
    omega

theorem length_jhPerm {w : List Nibble} (h : 4 ∣ w.length) : (jhPerm w).length = w.length := by
  rw [jhPerm, List.length_append, length_jhPermLeft, length_jhPermRight]
  omega

theorem nth_jhPermLeft : (w : List Nibble) → (i : Nat) → 4 * i + 3 < w.length →
    nth (jhPermLeft w) (2 * i) = nth w (4 * i) ∧ nth (jhPermLeft w) (2 * i + 1) = nth w (4 * i + 3)
  | [], _, h | [_], _, h | [_, _], _, h | [_, _, _], _, h => by simp at h
  | _ :: _ :: _ :: _ :: _, 0, _ => ⟨rfl, rfl⟩
  | _ :: _ :: _ :: _ :: rest, i + 1, h => nth_jhPermLeft rest i (by simp only [List.length_cons] at h; omega)

theorem nth_jhPermRight : (w : List Nibble) → (i : Nat) → 4 * i + 3 < w.length →
    nth (jhPermRight w) (2 * i) = nth w (4 * i + 2) ∧ nth (jhPermRight w) (2 * i + 1) = nth w (4 * i + 1)
  | [], _, h | [_], _, h | [_, _], _, h | [_, _, _], _, h => by simp at h
  | _ :: _ :: _ :: _ :: _, 0, _ => ⟨rfl, rfl⟩
  | _ :: _ :: _ :: _ :: rest, i + 1, h => nth_jhPermRight rest i (by simp only [List.length_cons] at h; omega)

section Places

variable {n : Nat} {w : List Nibble} (hw : w.length = 4 * n)

include hw

/-- The first half takes the places 0 and 3 of each four values. -/
theorem nth_jhPerm_left {i : Nat} (hi : i < n) :
    nth (jhPerm w) (2 * i) = nth w (4 * i) ∧ nth (jhPerm w) (2 * i + 1) = nth w (4 * i + 3) := by
  have hleft {k : Nat} (hk : k < 2 * n) : nth (jhPerm w) k = nth (jhPermLeft w) k :=
    List.getD_append _ _ _ _ (by rw [length_jhPermLeft]; omega)
  rw [hleft (by omega), hleft (by omega)]
  exact nth_jhPermLeft w i (by omega)

/-- The second half takes the places 2 and 1 of each four values. -/
theorem nth_jhPerm_right {i : Nat} (hi : i < n) :
    nth (jhPerm w) (2 * n + 2 * i) = nth w (4 * i + 2) ∧ nth (jhPerm w) (2 * n + (2 * i + 1)) = nth w (4 * i + 1) := by
  have hhalf : (jhPermLeft w).length = 2 * n := by rw [length_jhPermLeft]; omega
  have hright (k : Nat) : nth (jhPerm w) (2 * n + k) = nth (jhPermRight w) k := by
    rw [nth, jhPerm, List.getD_append_right _ _ _ _ (by omega), hhalf, Nat.add_sub_cancel_left, nth]
  rw [hright, hright]
  exact nth_jhPermRight w i (by omega)

/-- R226 for the first half. -/
theorem nth_jhPerm_of_lt {k : Nat} (hk : k < 2 * n) :
    nth (jhPerm w) k = if k % 2 = 0 then nth w (2 * k) else nth w (2 * k + 1) := by
  obtain ⟨i, rfl | rfl⟩ := Nat.even_or_odd' k
  · obtain ⟨heven, -⟩ := nth_jhPerm_left hw (i := i) (by omega)
    rw [heven, if_pos (by omega), show 2 * (2 * i) = 4 * i by omega]
  · obtain ⟨-, hodd⟩ := nth_jhPerm_left hw (i := i) (by omega)
    rw [hodd, if_neg (by omega), show 2 * (2 * i + 1) + 1 = 4 * i + 3 by omega]

/-- R226 for the second half. -/
theorem nth_jhPerm_half_add {m : Nat} (hm : m < 2 * n) :
    nth (jhPerm w) (2 * n + m) = if m % 2 = 0 then nth w (2 * m + 2) else nth w (2 * m - 1) := by
  obtain ⟨i, rfl | rfl⟩ := Nat.even_or_odd' m
  · obtain ⟨heven, -⟩ := nth_jhPerm_right hw (i := i) (by omega)
    rw [heven, if_pos (by omega), show 2 * (2 * i) + 2 = 4 * i + 2 by omega]
  · obtain ⟨-, hodd⟩ := nth_jhPerm_right hw (i := i) (by omega)
    rw [hodd, if_neg (by omega), show 2 * (2 * i + 1) - 1 = 4 * i + 1 by omega]

end Places

/-- Each place of the operand is the source of a place of the result. -/
theorem jhPerm_injOn (n : Nat) : Set.InjOn jhPerm {w | w.length = 4 * n} := by
  intro x hx y hy h
  refine ext_nth hx hy fun j hj => ?_
  have hi : j / 4 < n := Nat.div_lt_of_lt_mul hj
  have hplace : j = 4 * (j / 4) ∨ j = 4 * (j / 4) + 1 ∨ j = 4 * (j / 4) + 2 ∨ j = 4 * (j / 4) + 3 := by omega
  obtain ⟨hx0, hx3⟩ := nth_jhPerm_left hx hi
  obtain ⟨hy0, hy3⟩ := nth_jhPerm_left hy hi
  obtain ⟨hx2, hx1⟩ := nth_jhPerm_right hx hi
  obtain ⟨hy2, hy1⟩ := nth_jhPerm_right hy hi
  rw [h] at hx0 hx1 hx2 hx3
  obtain hj | hj | hj | hj := hplace <;> rw [hj]
  · exact hx0.symm.trans hy0
  · exact hx1.symm.trans hy1
  · exact hx2.symm.trans hy2
  · exact hx3.symm.trans hy3

/-! ### The round (R227) -/

theorem length_jhLPairs_zipWith {a : List Nibble} {cb : List Bool} (hcb : 4 ∣ cb.length) (ha : a.length = cb.length) :
    (jhLPairs (List.zipWith jhS cb a)).length = cb.length := by
  rw [length_jhLPairs, List.length_zipWith]
  omega

theorem length_jhRound {a : List Nibble} {cb : List Bool} (hcb : 4 ∣ cb.length) (ha : a.length = cb.length) :
    (jhRound a cb).length = cb.length := by
  have hw := length_jhLPairs_zipWith hcb ha
  rw [jhRound, length_jhPerm (hw ▸ hcb), hw]

theorem jhRound_injOn {cb : List Bool} (hcb : 4 ∣ cb.length) :
    Set.InjOn (fun a => jhRound a cb) {a | a.length = cb.length} := by
  intro x hx y hy h
  obtain ⟨n, hn⟩ := hcb
  have hw {a : List Nibble} (ha : a.length = cb.length) : (jhLPairs (List.zipWith jhS cb a)).length = 4 * n :=
    (length_jhLPairs_zipWith ⟨n, hn⟩ ha).trans hn
  have hv {a : List Nibble} (ha : a.length = cb.length) : (List.zipWith jhS cb a).length = 2 * (2 * n) := by
    rw [List.length_zipWith]
    omega
  exact zipWith_jhS_injOn cb hx hy (jhLPairs_injOn (2 * n) (hv hx) (hv hy) (jhPerm_injOn n (hw hx) (hw hy) h))

/-- The lists of one length are finitely many, so a round that keeps them apart reaches each of them. -/
theorem jhRound_bijOn {cb : List Bool} (hcb : 4 ∣ cb.length) :
    Set.BijOn (fun a => jhRound a cb) {a | a.length = cb.length} {a | a.length = cb.length} :=
  ((List.finite_length_eq Nibble cb.length).injOn_iff_bijOn_of_mapsTo fun _ ha => length_jhRound hcb ha).mp
    (jhRound_injOn hcb)

end Sys2Proof.Machine

namespace Sys2Proof.Proofs

open Sys2Proof.Machine

/-- Settles O50: the tables entry by entry. -/
theorem jhSboxes : Obligations.JhSboxes := ⟨by decide, by decide, jhS_injective⟩

/-- Settles O51: a power of two from `2 ^ 2` on is a number of quadruples, and each takes two places of either half. -/
theorem jhPermutationPlaces : Obligations.JhPermutationPlaces := by
  intro d w hd hw
  obtain ⟨n, hn⟩ : 2 ^ 2 ∣ 2 ^ d := Nat.pow_dvd_pow 2 hd
  rw [hn] at hw ⊢
  have hhalf : 2 ^ 2 * n / 2 = 2 * n := by omega
  rw [hhalf]
  exact ⟨(length_jhPerm ⟨n, hw⟩).trans hw, fun _ => nth_jhPerm_of_lt hw, fun _ => nth_jhPerm_half_add hw⟩

/-- Settles O52: the S-boxes, `L` and `PERM_d` are the round by definition, and each keeps lists of one length apart. -/
theorem jhRoundIsBijective : Obligations.JhRoundIsBijective := by
  intro d cb hd hcb
  have hdvd : 4 ∣ cb.length := hcb ▸ Nat.pow_dvd_pow 2 hd
  obtain ⟨-, hinj, hsurj⟩ := jhRound_bijOn hdvd
  rw [← hcb]
  refine ⟨fun a ha => ⟨length_jhRound hdvd ha, jhLPairs (List.zipWith jhS cb a), length_jhLPairs_zipWith hdvd ha, rfl,
    fun i hi => ?_⟩, fun x y hx hy h => hinj hx hy h, fun z hz => hsurj hz⟩
  rw [nth_jhLPairs _ i (by rw [List.length_zipWith]; omega), nth_zipWith_jhS (by omega) (by omega),
    nth_zipWith_jhS (by omega) (by omega)]

end Sys2Proof.Proofs
end

section
/-! PROOFS. JH grouping and de-grouping bit by bit (R230), inverse to each other, and `E8` between them (R231). -/

namespace Sys2Proof.Machine

/-! ### Grouping (R230) -/

@[simp] theorem length_jhGroup (A : BitVec 1024) : (jhGroup A).length = 256 := by
  simp [jhGroup, List.length_flatMap]

/-- The four joined bits of a gathered value, the first the most significant. -/
theorem getMsbD_jhGather (A : BitVec 1024) (i : Nat) {k : Nat} (hk : k < 4) :
    (jhGather A i).getMsbD k = A.getMsbD (i + 256 * k) := by
  have hbits : ∀ a b c d : Bool,
      let q : Nibble := BitVec.ofBool a ++ BitVec.ofBool b ++ BitVec.ofBool c ++ BitVec.ofBool d
      q.getMsbD 0 = a ∧ q.getMsbD 1 = b ∧ q.getMsbD 2 = c ∧ q.getMsbD 3 = d := by decide
  obtain ⟨h0, h1, h2, h3⟩ := hbits (A.getMsbD i) (A.getMsbD (i + 256)) (A.getMsbD (i + 512)) (A.getMsbD (i + 768))
  match k, hk with
  | 0, _ => exact h0
  | 1, _ => exact h1
  | 2, _ => exact h2
  | 3, _ => exact h3

theorem nth_jhGroup (A : BitVec 1024) {i : Nat} (hi : i < 128) :
    nth (jhGroup A) (2 * i) = jhGather A i ∧ nth (jhGroup A) (2 * i + 1) = jhGather A (i + 128) := by
  have hpiece {k : Nat} (hk : k < 2) : nth (jhGroup A) (2 * i + k) = nth [jhGather A i, jhGather A (i + 128)] k := by
    rw [nth, jhGroup, getD_flatMap (n := 2) (fun _ => rfl) (by simpa using hi) hk, List.getElem_range, nth]
  exact ⟨hpiece Nat.two_pos, hpiece Nat.one_lt_two⟩

/-! ### De-grouping (R230) -/

theorem length_evens : (q : List Nibble) → (evens q).length = q.length / 2
  | [] | [_] => by simp [evens]
  | _ :: _ :: rest => by
    simp only [evens, List.length_cons, length_evens rest]
    omega

theorem length_odds : (q : List Nibble) → (odds q).length = q.length / 2
  | [] | [_] => by simp [odds]
  | _ :: _ :: rest => by
    simp only [odds, List.length_cons, length_odds rest]
    omega

theorem nth_evens : (q : List Nibble) → (i : Nat) → 2 * i + 1 < q.length → nth (evens q) i = nth q (2 * i)
  | [], _, h | [_], _, h => by simp at h
  | _ :: _ :: _, 0, _ => rfl
  | _ :: _ :: rest, i + 1, h => nth_evens rest i (by simp only [List.length_cons] at h; omega)

theorem nth_odds : (q : List Nibble) → (i : Nat) → 2 * i + 1 < q.length → nth (odds q) i = nth q (2 * i + 1)
  | [], _, h | [_], _, h => by simp at h
  | _ :: _ :: _, 0, _ => rfl
  | _ :: _ :: rest, i + 1, h => nth_odds rest i (by simp only [List.length_cons] at h; omega)

theorem jhPlane_concat (k : Nat) (xs : List Nibble) (x : Nibble) :
    jhPlane k (xs ++ [x]) = jhPlane k xs <<< 1 ||| (BitVec.ofBool (x.getMsbD k)).setWidth 128 := by
  simp [jhPlane]

/-- Counted from the low end, bit `j` of a plane is the bit of the value `j` places before the last. -/
theorem getLsbD_jhPlane (k : Nat) (xs : List Nibble) {j : Nat} (hj : j < 128) :
    (jhPlane k xs).getLsbD j = (nth xs.reverse j).getMsbD k := by
  induction xs using List.reverseRecOn generalizing j with
  | nil => simp [jhPlane]
  | append_singleton xs x ih =>
    rw [jhPlane_concat, List.reverse_concat]
    cases j with
    | zero => simp
    | succ j =>
      have hj' : j < 128 := Nat.lt_of_succ_lt hj
      simpa [hj, hj'] using ih hj'

theorem getMsbD_jhPlane (k : Nat) {xs : List Nibble} (hxs : xs.length = 128) {i : Nat} (hi : i < 128) :
    (jhPlane k xs).getMsbD i = (nth xs i).getMsbD k := by
  have hreverse : nth xs.reverse (127 - i) = nth xs i := by
    rw [nth_eq_getElem (by simp [hxs]; omega), nth_eq_getElem (by omega), List.getElem_reverse]
    congr 1
    omega
  rw [BitVec.getMsbD_eq_getLsbD, decide_eq_true hi, Bool.true_and, getLsbD_jhPlane k xs (by omega), ← hreverse]

/-- The bits of eight planes in a row. -/
theorem getMsbD_append_planes (p0 p1 p2 p3 p4 p5 p6 p7 : BitVec 128) {i m : Nat} (hi : i < 128) (hm : m < 8) :
    (p0 ++ p1 ++ p2 ++ p3 ++ p4 ++ p5 ++ p6 ++ p7).getMsbD (i + 128 * m) =
      (nth [p0, p1, p2, p3, p4, p5, p6, p7] m).getMsbD i := by
  have hge {n : Nat} (hn : 128 ≤ n) : ¬ n ≤ i := by omega
  simp only [BitVec.getMsbD_append]
  interval_cases m <;> simp [hge]

/-- The planes of the even places and of the odd places alternate, bit 0 of the values first. -/
theorem getMsbD_jhDegroup {q : List Nibble} (hq : q.length = 256) {i k : Nat} (hi : i < 128) (hk : k < 4) :
    (jhDegroup q).getMsbD (i + 256 * k) = (nth q (2 * i)).getMsbD k ∧
      (jhDegroup q).getMsbD (i + 128 + 256 * k) = (nth q (2 * i + 1)).getMsbD k := by
  have hplane {m : Nat} (hm : m < 8) : (jhDegroup q).getMsbD (i + 128 * m) = _ :=
    getMsbD_append_planes _ _ _ _ _ _ _ _ hi hm
  rw [← nth_evens q i (by omega), ← nth_odds q i (by omega),
    ← getMsbD_jhPlane k (by rw [length_evens]; omega) hi, ← getMsbD_jhPlane k (by rw [length_odds]; omega) hi,
    show i + 256 * k = i + 128 * (2 * k) by omega, show i + 128 + 256 * k = i + 128 * (2 * k + 1) by omega,
    hplane (by omega), hplane (by omega)]
  match k, hk with
  | 0, _ | 1, _ | 2, _ | 3, _ => exact ⟨rfl, rfl⟩

/-- Every bit place of the state stands in one of the eight planes. -/
theorem exists_plane_of_lt {j : Nat} (hj : j < 1024) :
    ∃ i k, i < 128 ∧ k < 4 ∧ (j = i + 256 * k ∨ j = i + 128 + 256 * k) :=
  ⟨j % 128, j / 256, by omega⟩

theorem jhDegroup_jhGroup (A : BitVec 1024) : jhDegroup (jhGroup A) = A := by
  refine BitVec.eq_of_getMsbD_eq fun j hj => ?_
  obtain ⟨i, k, hi, hk, hplace⟩ := exists_plane_of_lt hj
  obtain ⟨heven, hodd⟩ := getMsbD_jhDegroup (length_jhGroup A) hi hk
  obtain ⟨hleft, hright⟩ := nth_jhGroup A hi
  rw [hleft, getMsbD_jhGather A i hk] at heven
  rw [hright, getMsbD_jhGather A _ hk] at hodd
  obtain rfl | rfl := hplace
  · exact heven
  · exact hodd

theorem jhGroup_jhDegroup {q : List Nibble} (hq : q.length = 256) : jhGroup (jhDegroup q) = q := by
  refine ext_nth_pairs (n := 128) (length_jhGroup _) hq fun i hi => ?_
  obtain ⟨hleft, hright⟩ := nth_jhGroup (jhDegroup q) hi
  rw [hleft, hright]
  constructor <;> refine BitVec.eq_of_getMsbD_eq fun k hk => ?_ <;> rw [getMsbD_jhGather _ _ hk]
  · exact (getMsbD_jhDegroup hq hi hk).1
  · exact (getMsbD_jhDegroup hq hi hk).2

/-! ### `E8` (R231) -/

theorem jhDegroup_invOn_jhGroup : Set.InvOn jhDegroup jhGroup Set.univ {q | q.length = 256} :=
  ⟨fun A _ => jhDegroup_jhGroup A, fun _ hq => jhGroup_jhDegroup hq⟩

theorem jhGroup_bijOn : Set.BijOn jhGroup Set.univ {q | q.length = 256} :=
  jhDegroup_invOn_jhGroup.bijOn (fun A _ => length_jhGroup A) (Set.mapsTo_univ _ _)

theorem jhDegroup_bijOn : Set.BijOn jhDegroup {q | q.length = 256} Set.univ :=
  jhDegroup_invOn_jhGroup.symm.bijOn (Set.mapsTo_univ _ _) fun A _ => length_jhGroup A

theorem jhE8_eq : jhE8 = jhDegroup ∘ (fun q => (jhConstants.map jhSelectors).foldl jhRound q) ∘ jhGroup := by
  funext H
  rw [jhE8, Function.comp_apply, Function.comp_apply]

@[simp] theorem length_jhSelectors (c : BitVec 256) : (jhSelectors c).length = 256 := by simp [jhSelectors]

/-- A fold whose every step is a bijection of a set onto itself is one. -/
theorem foldl_bijOn {α β : Type} {S : Set α} {f : α → β → α} {l : List β}
    (h : ∀ b ∈ l, Set.BijOn (fun a => f a b) S S) : Set.BijOn (fun a => l.foldl f a) S S := by
  induction l with
  | nil => exact Set.bijOn_id S
  | cons b l ih =>
    obtain ⟨hb, hl⟩ := List.forall_mem_cons.mp h
    exact (ih hl).comp hb

/-- The 42 rounds, whatever their constants. -/
theorem jhRounds_bijOn (cs : List (BitVec 256)) :
    Set.BijOn (fun q => (cs.map jhSelectors).foldl jhRound q) {q | q.length = 256} {q | q.length = 256} := by
  refine foldl_bijOn fun cb hcb => ?_
  obtain ⟨c, -, rfl⟩ := List.mem_map.mp hcb
  have hround := jhRound_bijOn (cb := jhSelectors c) ⟨64, length_jhSelectors c⟩
  rwa [length_jhSelectors] at hround

end Sys2Proof.Machine

namespace Sys2Proof.Proofs

open Sys2Proof.Machine

/-- Settles O53: each gathered bit goes back to its place, and each value is gathered from its own bits. -/
theorem jhGroupingRoundTrip : Obligations.JhGroupingRoundTrip := by
  refine ⟨fun A i k hi hk => ?_, jhDegroup_jhGroup, fun _ => jhGroup_jhDegroup⟩
  obtain ⟨hleft, hright⟩ := nth_jhGroup A hi
  rw [hleft, hright]
  exact ⟨length_jhGroup A, getMsbD_jhGather A i hk, getMsbD_jhGather A _ hk⟩

/-- Settles O54: grouping, the 42 rounds and de-grouping are bijections, one after the other. -/
theorem jhE8IsBijective : Obligations.JhE8IsBijective := by
  rw [Obligations.JhE8IsBijective, jhE8_eq]
  exact Set.bijOn_univ.mp (jhDegroup_bijOn.comp ((jhRounds_bijOn jhConstants).comp jhGroup_bijOn))

end Sys2Proof.Proofs
end

section
/-! PROOFS. The SHAvite-3 schedule word by word (R253, R254): a group is appended and never changed again, and it reads only
words before it, so its words are the group's function of the finished schedule. -/

namespace Sys2Proof.Machine

theorem nth_of_prefix {w : Nat} {xs ys : List (BitVec w)} (h : xs <+: ys) {i : Nat} (hi : i < xs.length) :
    nth ys i = nth xs i := by
  obtain ⟨t, rfl⟩ := h
  exact List.getD_append _ _ _ _ hi

/-! ### One group -/

/-- The four words a group at `u` appends (R253). -/
def shaviteGroupWords (cnt : BitVec 64) (rk : List (BitVec 32)) (u : Nat) : List (BitVec 32) :=
  if (u / 16) % 2 = 1 then shaviteNonlinear cnt rk u else shaviteLinear rk u

theorem shaviteGroup_eq_append (cnt : BitVec 64) (rk : List (BitVec 32)) (u : Nat) :
    shaviteGroup cnt rk u = rk ++ shaviteGroupWords cnt rk u := rfl

@[simp] theorem length_shaviteCounterMask (cnt : BitVec 64) (u : Nat) : (shaviteCounterMask cnt u).length = 4 := by
  unfold shaviteCounterMask
  split_ifs <;> rfl

@[simp] theorem length_shaviteNonlinear (cnt : BitVec 64) (rk : List (BitVec 32)) (u : Nat) :
    (shaviteNonlinear cnt rk u).length = 4 := by
  simp [shaviteNonlinear]

@[simp] theorem length_shaviteLinear (rk : List (BitVec 32)) (u : Nat) : (shaviteLinear rk u).length = 4 := rfl

@[simp] theorem length_shaviteGroupWords (cnt : BitVec 64) (rk : List (BitVec 32)) (u : Nat) :
    (shaviteGroupWords cnt rk u).length = 4 := by
  unfold shaviteGroupWords
  split_ifs <;> simp

/-- The table of R254 by word: what the counter step exclusive-ors into word `i` of the schedule. -/
def shaviteCounterStep (cnt : BitVec 64) (i : Nat) : BitVec 32 :=
  if i = 16 ∨ i = 124 then shaviteC0 cnt
  else if i = 57 ∨ i = 86 then shaviteC1 cnt
  else if i = 58 ∨ i = 87 then ~~~shaviteC0 cnt
  else if i = 17 ∨ i = 127 then ~~~shaviteC1 cnt
  else 0

theorem nth_shaviteCounterMask (cnt : BitVec 64) (g : Nat) {k : Nat} (hk : k < 4) :
    nth (shaviteCounterMask cnt (16 + 4 * g)) k = shaviteCounterStep cnt (16 + 4 * g + k) := by
  have hgroup : g = 0 ∨ g = 10 ∨ g = 17 ∨ g = 27 ∨ (g ≠ 0 ∧ g ≠ 10 ∧ g ≠ 17 ∧ g ≠ 27) := by omega
  obtain rfl | rfl | rfl | rfl | ⟨h0, h10, h17, h27⟩ := hgroup
  iterate 4 · interval_cases k <;> rfl
  · rw [shaviteCounterMask, if_neg (by omega), if_neg (by omega), if_neg (by omega), if_neg (by omega),
      shaviteCounterStep, if_neg (by omega), if_neg (by omega), if_neg (by omega), if_neg (by omega)]
    interval_cases k <;> rfl

theorem nth_shaviteNonlinear (cnt : BitVec 64) (rk : List (BitVec 32)) (u : Nat) {k : Nat} (hk : k < 4) :
    nth (shaviteNonlinear cnt rk u) k =
      nth (aesRound [nth rk (u - 15), nth rk (u - 14), nth rk (u - 13), nth rk (u - 16)]) k ^^^ nth rk (u - 4 + k) ^^^
        nth (shaviteCounterMask cnt u) k := by
  rw [shaviteNonlinear, nth_xorList (by simp), nth_map_range _ hk]

/-- The last word of a linear group reads the first, so once that one is written one recurrence gives all four. -/
theorem nth_shaviteLinear {rk : List (BitVec 32)} {u k : Nat} (hu : 16 ≤ u)
    (hfirst : nth rk u = nth (shaviteLinear rk u) 0) (hk : k < 4) :
    nth (shaviteLinear rk u) k = nth rk (u + k - 16) ^^^ nth rk (u + k - 3) := by
  match k, hk with
  | 0, _ => rfl
  | 1, _ => rw [show u + 1 - 16 = u - 15 by omega, show u + 1 - 3 = u - 2 by omega]; rfl
  | 2, _ => rw [show u + 2 - 16 = u - 14 by omega, show u + 2 - 3 = u - 1 by omega]; rfl
  | 3, _ => rw [show u + 3 - 16 = u - 13 by omega, Nat.add_sub_cancel, hfirst]; rfl

/-- A group reads the sixteen words before it and no other. -/
theorem shaviteGroupWords_congr (cnt : BitVec 64) {P Q : List (BitVec 32)} {u : Nat} (hu : 16 ≤ u)
    (h : ∀ i, i < u → nth P i = nth Q i) : shaviteGroupWords cnt P u = shaviteGroupWords cnt Q u := by
  have hback (j : Nat) (hj : 0 < j) : nth P (u - j) = nth Q (u - j) := h _ (by omega)
  have hnonlinear : shaviteNonlinear cnt P u = shaviteNonlinear cnt Q u := by
    refine ext_nth (length_shaviteNonlinear ..) (length_shaviteNonlinear ..) fun k hk => ?_
    rw [nth_shaviteNonlinear cnt P u hk, nth_shaviteNonlinear cnt Q u hk, h (u - 4 + k) (by omega)]
    simp only [hback, Nat.succ_pos]
  have hlinear : shaviteLinear P u = shaviteLinear Q u := by
    simp only [shaviteLinear, hback, Nat.succ_pos]
  rw [shaviteGroupWords, hnonlinear, hlinear, ← shaviteGroupWords]

/-! ### The groups one after the other -/

/-- The schedule after its first `n` groups. -/
def shaviteGroups (block : Bytes) (cnt : BitVec 64) (n : Nat) : List (BitVec 32) :=
  ((List.range n).map fun g => 16 + 4 * g).foldl (shaviteGroup cnt) (words 32 block)

section Groups

variable (block : Bytes) (cnt : BitVec 64)

theorem shaviteKeys_eq_groups : shaviteKeys block cnt = shaviteGroups block cnt 32 := rfl

theorem shaviteGroups_succ (n : Nat) :
    shaviteGroups block cnt (n + 1) =
      shaviteGroups block cnt n ++ shaviteGroupWords cnt (shaviteGroups block cnt n) (16 + 4 * n) := by
  rw [shaviteGroups, List.range_succ, List.map_append, List.map_singleton, List.foldl_concat, ← shaviteGroups,
    shaviteGroup_eq_append]

@[simp] theorem length_shaviteGroups (n : Nat) : (shaviteGroups block cnt n).length = 16 + 4 * n := by
  induction n with
  | zero => exact length_words 32 block
  | succ n ih => rw [shaviteGroups_succ, List.length_append, ih, length_shaviteGroupWords, Nat.mul_succ, Nat.add_assoc]

/-- Later groups keep the words that are there. -/
theorem shaviteGroups_prefix_of_le {m n : Nat} (hmn : m ≤ n) :
    shaviteGroups block cnt m <+: shaviteGroups block cnt n := by
  induction n, hmn using Nat.le_induction with
  | base => exact List.prefix_rfl
  | succ n _ ih => exact ih.trans (shaviteGroups_succ block cnt n ▸ List.prefix_append _ _)

theorem length_shaviteKeys : (shaviteKeys block cnt).length = 144 := length_shaviteGroups block cnt 32

theorem take_shaviteKeys : (shaviteKeys block cnt).take 16 = words 32 block := by
  have hprefix : words 32 block <+: shaviteKeys block cnt := shaviteGroups_prefix_of_le block cnt (Nat.zero_le 32)
  rw [List.prefix_iff_eq_take.mp hprefix, length_words]

/-- The words of a group, from the finished schedule. -/
theorem nth_shaviteKeys {g k : Nat} (hg : g < 32) (hk : k < 4) :
    nth (shaviteKeys block cnt) (16 + 4 * g + k) =
      nth (shaviteGroupWords cnt (shaviteKeys block cnt) (16 + 4 * g)) k := by
  have hlen := length_shaviteGroups block cnt g
  have hbefore : ∀ i, i < 16 + 4 * g → nth (shaviteGroups block cnt g) i = nth (shaviteKeys block cnt) i :=
    fun i hi => (nth_of_prefix (shaviteGroups_prefix_of_le block cnt hg.le) (hlen ▸ hi)).symm
  calc nth (shaviteKeys block cnt) (16 + 4 * g + k)
      = nth (shaviteGroups block cnt (g + 1)) (16 + 4 * g + k) :=
        nth_of_prefix (shaviteGroups_prefix_of_le block cnt hg) (by rw [length_shaviteGroups]; omega)
    _ = nth (shaviteGroupWords cnt (shaviteGroups block cnt g) (16 + 4 * g)) k := by
        rw [shaviteGroups_succ, nth, List.getD_append_right _ _ _ _ (by omega), hlen, Nat.add_sub_cancel_left, ← nth]
    _ = nth (shaviteGroupWords cnt (shaviteKeys block cnt) (16 + 4 * g)) k := by
        rw [shaviteGroupWords_congr cnt (by omega) hbefore]

theorem nth_shaviteKeys_nonlinear {g k : Nat} (hg : g < 32) (hodd : (16 + 4 * g) / 16 % 2 = 1) (hk : k < 4) :
    let rk := nth (shaviteKeys block cnt)
    let u := 16 + 4 * g
    rk (u + k) =
      nth (aesRound [rk (u - 15), rk (u - 14), rk (u - 13), rk (u - 16)]) k ^^^ rk (u - 4 + k) ^^^
        shaviteCounterStep cnt (u + k) := by
  have hword := nth_shaviteKeys block cnt hg hk
  rwa [shaviteGroupWords, if_pos hodd, nth_shaviteNonlinear _ _ _ hk, nth_shaviteCounterMask cnt g hk] at hword

theorem nth_shaviteKeys_linear {g k : Nat} (hg : g < 32) (heven : (16 + 4 * g) / 16 % 2 ≠ 1) (hk : k < 4) :
    let rk := nth (shaviteKeys block cnt)
    let u := 16 + 4 * g
    rk (u + k) = rk (u + k - 16) ^^^ rk (u + k - 3) := by
  have hgroup : shaviteGroupWords cnt (shaviteKeys block cnt) (16 + 4 * g) =
      shaviteLinear (shaviteKeys block cnt) (16 + 4 * g) :=
    if_neg heven
  have hfirst := nth_shaviteKeys block cnt hg four_pos
  have hword := nth_shaviteKeys block cnt hg hk
  rw [hgroup, Nat.add_zero] at hfirst
  rwa [hgroup, nth_shaviteLinear (by omega) hfirst hk] at hword

end Groups

end Sys2Proof.Machine

namespace Sys2Proof.Proofs

open Sys2Proof.Machine

/-- Settles O55: the listed places are the groups of odd and of even `u / 16`, each given by the finished schedule. -/
theorem shaviteScheduleWords : Obligations.ShaviteScheduleWords := by
  intro block cnt rk c0 c1 counterStep
  have hnonlinear : ∀ u ∈ [16, 20, 24, 28, 48, 52, 56, 60, 80, 84, 88, 92, 112, 116, 120, 124],
      ∃ g < 32, (16 + 4 * g) / 16 % 2 = 1 ∧ u = 16 + 4 * g := by decide
  have hlinear : ∀ u ∈ [32, 36, 40, 44, 64, 68, 72, 76, 96, 100, 104, 108, 128, 132, 136, 140],
      ∃ g < 32, (16 + 4 * g) / 16 % 2 ≠ 1 ∧ u = 16 + 4 * g := by decide
  refine ⟨length_shaviteKeys block cnt, take_shaviteKeys block cnt, fun u k hu hk => ?_, fun u k hu hk => ?_⟩
  · obtain ⟨g, hg, hodd, rfl⟩ := hnonlinear u hu
    exact nth_shaviteKeys_nonlinear block cnt hg hodd hk
  · obtain ⟨g, hg, heven, rfl⟩ := hlinear u hu
    exact nth_shaviteKeys_linear block cnt hg heven hk

end Sys2Proof.Proofs
end

section
/-! PROOFS. The SHAvite-3 cipher (R257): a Feistel round adds to one half a function of the other, so it undoes itself. -/

namespace Sys2Proof.Machine

theorem xorList_xorList_cancel {w : Nat} {xs ys : List (BitVec w)} (h : xs.length = ys.length) :
    xorList (xorList xs ys) ys = xs := by
  have hlen : (xorList xs ys).length = xs.length := by rw [length_xorList, ← h, Nat.min_self]
  refine ext_nth (n := xs.length) (by rw [length_xorList, hlen, ← h, Nat.min_self]) rfl fun i _ => ?_
  rw [nth_xorList (hlen.trans h), nth_xorList h, BitVec.xor_assoc, BitVec.xor_self, BitVec.xor_zero]

@[simp] theorem length_shaviteF3 (x k : List (BitVec 32)) : (shaviteF3 x k).length = 4 := length_aesRound _

/-- The key words of round `t` (R257). -/
def shaviteRoundKey (rk : List (BitVec 32)) (t : Nat) : List (BitVec 32) := (rk.drop (12 * t)).take 12

section Halves

variable (rk : List (BitVec 32)) {l r : List (BitVec 32)} (hl : l.length = 4) {t : Nat}

include hl

/-- An even round changes the left half. -/
theorem shaviteRound_append_of_even (ht : t % 2 = 0) :
    shaviteRound rk (l ++ r) t = xorList l (shaviteF3 r (shaviteRoundKey rk t)) ++ r := by
  rw [shaviteRound, if_pos ht, List.take_left' hl, List.drop_left' hl, ← shaviteRoundKey]

/-- An odd round changes the right half. -/
theorem shaviteRound_append_of_odd (ht : ¬ t % 2 = 0) :
    shaviteRound rk (l ++ r) t = l ++ xorList r (shaviteF3 l (shaviteRoundKey rk t)) := by
  rw [shaviteRound, if_neg ht, List.take_left' hl, List.drop_left' hl, ← shaviteRoundKey]

end Halves

theorem shaviteRound_shaviteRound (rk : List (BitVec 32)) (t : Nat) {p : List (BitVec 32)} (hp : p.length = 8) :
    shaviteRound rk (shaviteRound rk p t) t = p := by
  obtain ⟨l, r, rfl, hl, hr⟩ : ∃ l r, p = l ++ r ∧ l.length = 4 ∧ r.length = 4 :=
    ⟨p.take 4, p.drop 4, (List.take_append_drop 4 p).symm, by simp [hp], by simp [hp]⟩
  by_cases ht : t % 2 = 0
  · have hnew : (xorList l (shaviteF3 r (shaviteRoundKey rk t))).length = 4 := by simp [hl]
    rw [shaviteRound_append_of_even rk hl ht, shaviteRound_append_of_even rk hnew ht,
      xorList_xorList_cancel (hl.trans (length_shaviteF3 ..).symm)]
  · rw [shaviteRound_append_of_odd rk hl ht, shaviteRound_append_of_odd rk hl ht,
      xorList_xorList_cancel (hr.trans (length_shaviteF3 ..).symm)]

theorem shaviteRound_bijOn (rk : List (BitVec 32)) (t : Nat) :
    Set.BijOn (fun p => shaviteRound rk p t) {p | p.length = 8} {p | p.length = 8} := by
  have hself : Set.LeftInvOn (fun p => shaviteRound rk p t) (fun p => shaviteRound rk p t) {p | p.length = 8} :=
    fun _ hp => shaviteRound_shaviteRound rk t hp
  have hstay : Set.MapsTo (fun p => shaviteRound rk p t) {p | p.length = 8} {p | p.length = 8} :=
    fun _ hp => length_shaviteRound rk hp t
  exact Set.InvOn.bijOn ⟨hself, hself⟩ hstay hstay

theorem shaviteE256_bijOn (rk : List (BitVec 32)) :
    Set.BijOn (fun h => shaviteE256 h rk) {h | h.length = 8} {h | h.length = 8} :=
  foldl_bijOn fun t _ => shaviteRound_bijOn rk t

end Sys2Proof.Machine

namespace Sys2Proof.Proofs

open Sys2Proof.Machine

/-- Settles O56: a round is its own inverse on the states of eight words, so the twelve rounds are a bijection. -/
theorem shaviteCipherIsAPermutation : Obligations.ShaviteCipherIsAPermutation := by
  intro rk
  obtain ⟨hmaps, hinj, hsurj⟩ := shaviteE256_bijOn rk
  exact ⟨fun h hh => hmaps hh, fun h g hh hg heq => hinj hh hg heq, fun p hp => hsurj hp⟩

end Sys2Proof.Proofs
end

section
/-! PROOFS. Errors (`60_exceptions.md`): the length limit (R282), what raises each cause (R283, R285), what error entry leaves
unchanged (R284), and what phase `ERROR` ignores (R286). -/

namespace Sys2Proof.Machine

/-! ### Error entry in phase `ERROR` -/

/-- Error entry from phase `ERROR` writes nothing (R284). -/
theorem enterError_of_error {s : State} (e : ErrCause) (hp : s.phase = .error) : enterError e s = s := by
  rw [enterError, if_pos hp, ← hp]

/-- An error raised in phase `ERROR` only answers (R284). -/
theorem raise_of_error {s : State} (e : ErrCause) (hp : s.phase = .error) :
    raise e s = { s with response := some ⟨true, statusWord s⟩ } := by
  rw [raise, enterError_of_error e hp, respond_of_error hp]

/-- A cause that was not in `ERR` before an error entry is the cause raised (R284). -/
theorem cause_eq_of_raise_err {e c : ErrCause} {s : State} (h : (raise e s).err = c) (hs : s.err ≠ c) : e = c := by
  rw [raise_err] at h
  split at h
  · exact absurd h hs
  · exact h

/-! ### Reserved words on the port -/

/-- The step that takes a reserved word (R76, R90). -/
theorem step_of_port_reserved {s : State} {w : CommandWord} {rest : List HostEvent} {r : Reserved}
    (hport : s.port = .command w :: rest) (hdecode : decode w = .error r) :
    step s = .next (reservedWord (withPort rest s)) :=
  (step_of_port_command hport).trans (runWord_of_decode_error hdecode _)

/-- A reserved word outside phase `ERROR` (R285). -/
theorem reservedWord_of_ne_error {s : State} (hp : s.phase ≠ .error) : reservedWord s = raise .illcmd s := if_neg hp

/-- A reserved word in phase `ERROR` (R286). -/
theorem reservedWord_of_error {s : State} (hp : s.phase = .error) : reservedWord s = ignoreCommand s := if_pos hp

/-! ### The commands that raise `E_MISUSE` (R283) -/

section Misuse

variable {s t : State} (ht : t.err = .misuse)

include ht

/-- `INIT` writes `E_CONFIG` or clears `ERR` (R91, R281). -/
theorem not_exec_init_of_misuse {a : BitVec 4} : exec (.init a) s ≠ .next t := by
  intro h
  obtain ⟨-, ⟨⟩⟩ | ⟨D, -, ⟨⟩⟩ := execInit_cases h
  · cases ht
  · cases ht

theorem unbound_of_exec_reset_misuse (h : exec .reset s = .next t) : s.cfgv = false := by
  obtain ⟨hc, -⟩ | ⟨-, -, ⟨⟩⟩ | ⟨D, -, -, ⟨⟩⟩ := execReset_cases h
  · exact hc
  · cases ht

variable (hs : s.err ≠ .misuse)

include hs

theorem closed_of_exec_update_misuse {d : BitVec 8} (h : exec (.update d) s = .next t) :
    s.phase = .unconf ∨ s.phase = .done := by
  obtain ⟨-, ⟨⟩⟩ | ⟨hp, -⟩ | ⟨-, -, ⟨⟩⟩ | ⟨-, -, -, ⟨⟩⟩ | ⟨-, -, -, -, -, ⟨⟩⟩ | ⟨D, -, -, -, -, ⟨⟩⟩ :=
    execUpdate_cases h
  · exact absurd ht hs
  · exact hp
  · cases cause_eq_of_raise_err ht hs
  · exact absurd (by simpa using ht) hs

theorem closed_of_exec_digest_misuse (h : exec .digest s = .next t) : s.phase = .unconf ∨ s.phase = .done := by
  obtain ⟨-, ⟨⟩⟩ | ⟨hp, -⟩ | ⟨-, -, ⟨⟩⟩ | ⟨-, -, -, -, ⟨⟩⟩ | ⟨D, -, -, -, ⟨⟩⟩ := execDigest_cases h
  · exact absurd ht hs
  · exact hp
  · exact absurd ht hs

theorem noDigest_of_exec_rdout_misuse {d : BitVec 8} (h : exec (.rdout d) s = .next t) :
    s.phase = .unconf ∨ s.phase = .active := by
  obtain ⟨-, ⟨⟩⟩ | ⟨hp, -⟩ | ⟨-, -, ⟨⟩⟩ | ⟨D, -, -, -, ⟨⟩⟩ | ⟨D, -, -, -, ⟨⟩⟩ := execRdout_cases h
  · exact absurd ht hs
  · exact hp
  · cases cause_eq_of_raise_err ht hs
  · exact absurd ht hs

/-- `RDSTAT` writes no register (R97). -/
theorem not_exec_rdstat_of_misuse : exec .rdstat s ≠ .next t := by
  intro h
  obtain ⟨⟩ : execRdstat s = .next t := h
  exact hs ht

end Misuse

/-- A reserved word raises `E_ILLCMD` alone (R285, R286). -/
theorem err_of_reservedWord_misuse {s : State} (h : (reservedWord s).err = .misuse) : s.err = .misuse := by
  by_contra hs
  obtain ⟨-, hword⟩ | ⟨-, hword⟩ := reservedWord_cases s
  · exact hs (by simpa [hword] using h)
  · cases cause_eq_of_raise_err (hword ▸ h) hs

end Sys2Proof.Machine

namespace Sys2Proof.Safety

open Sys2Proof.Machine

/-! ### The length limit (R282) -/

/-- `LEN` counts whole blocks, so the last byte of the last block is the one place of the limit. -/
theorem CountersOk.last_byte_of_limit {D : Descriptor} {s : State} (hk : CountersOk D s) (hbs : D.bs = 64 ∨ D.bs = 128)
    (hlimit : s.len.toNat + 8 * (s.cur.toNat + 1) ≥ 2 ^ 64) :
    s.cur.toNat = D.bs - 1 ∧ s.len.toNat = 2 ^ 64 - 8 * D.bs := by
  have hcur := hk.cursor
  have hblocks := hk.blocks
  have hbits := hk.bits
  rw [msgbits, Config.messageBitLimit] at hbits
  rcases hbs with hbs | hbs <;> rw [hbs] at hcur hblocks ⊢ <;> omega

/-- The limit is met exactly by the longest message. -/
theorem Absorbed.lengthExhausted_iff {D : Descriptor} {m : Bytes} {s : State} (h : Absorbed D m s) :
    lengthExhausted s = true ↔ m.length = 2 ^ 61 - 1 := by
  have hsum := h.len_add_cur
  have hbits := h.bits
  rw [Config.messageBitLimit] at hbits
  rw [lengthExhausted, decide_eq_true_iff, Config.messageBitLimit]
  omega

end Sys2Proof.Safety

namespace Sys2Proof.Proofs

open Sys2Proof.Machine Sys2Proof.Safety

/-- Settles O20: the counters at the limit, and the cause that `UPDATE` leaves at the limit and below it. -/
theorem lengthLimit : Obligations.LengthLimit := by
  refine ⟨fun s D h hc hD hlimit => ?place, fun D m d s t h hexec => ?longest⟩
  case place =>
    have hbs := (sizesOk_of_boundDescriptor hD).block
    obtain ⟨hcur, hlen⟩ := (h.countersOk hc hD).last_byte_of_limit hbs hlimit
    rcases hbs with hbs | hbs <;> rw [hbs] at hcur hlen
    · exact .inl ⟨hbs, hcur, hlen⟩
    · exact .inr ⟨hbs, hcur, hlen⟩
  case longest =>
    rw [← h.lengthExhausted_iff]
    cases hl : lengthExhausted s with
    | true =>
      cases (exec_update_of_lengthExhausted d h.active hl).symm.trans hexec
      simp [h.active]
    | false =>
      cases (exec_update_of_room d h.active h.descriptor h.cur_lt hl).symm.trans hexec
      simp [h.noError]

/-- Settles O24: the raising forms, and command by command that no other form puts the cause into `ERR`. -/
theorem misuseIsRaised : Obligations.MisuseIsRaised := by
  refine ⟨fun s => ⟨fun hp => ?closed, fun hp d => ?noDigest, fun hc hp => ?unbound, fun hc hp => ?unboundError,
    fun hp d => ?readError⟩, fun i s t hexec ht hs => ?only, fun s t w rest r hport hdecode hstep ht => ?reserved⟩
  case closed =>
    rw [← raise_of_ne_error .misuse (fun herror => by simp [herror] at hp)]
    exact ⟨fun d => exec_update_of_closed d hp.symm, exec_digest_of_closed hp.symm⟩
  case noDigest => rw [exec_rdout_of_noDigest d hp, raise_of_ne_error _ (fun herror => by simp [herror] at hp)]
  case unbound => rw [exec_reset_of_unbound hc, raise_of_ne_error _ hp]
  case unboundError => rw [exec_reset_of_unbound hc, raise_of_error _ hp]
  case readError => rw [exec_rdout_of_error d hp, ignoreCommand, respond_of_error hp]
  case only =>
    cases i with
    | init a => exact absurd hexec (not_exec_init_of_misuse ht)
    | reset => exact .inr (.inr ⟨rfl, unbound_of_exec_reset_misuse ht hexec⟩)
    | update d => exact .inl ⟨.inl ⟨d, rfl⟩, (closed_of_exec_update_misuse ht hs hexec).symm⟩
    | digest => exact .inl ⟨.inr rfl, (closed_of_exec_digest_misuse ht hs hexec).symm⟩
    | rdout d => exact .inr (.inl ⟨⟨d, rfl⟩, noDigest_of_exec_rdout_misuse ht hs hexec⟩)
    | rdstat => exact absurd hexec (not_exec_rdstat_of_misuse ht hs)
  case reserved =>
    cases (step_of_port_reserved hport hdecode).symm.trans hstep
    exact err_of_reservedWord_misuse (s := withPort rest s) ht

/-- Settles O27: of the effects that end in phase `ERROR`, each writes the error entry alone, but for the failing `INIT`. -/
theorem errorsArePrecise : Obligations.ErrorsArePrecise := by
  intro i s t hexec ht
  cases effect_of_exec hexec with
  | configError =>
    exact ⟨rfl, fun hi => absurd rfl (hi _), fun hi => absurd rfl (hi _), fun _ _ => ⟨rfl, rfl, rfl⟩⟩
  | bind | rearm | store => cases ht
  | accept hp => cases hp.symm.trans (by simpa using ht)
  | read hp => cases hp.symm.trans ht
  | raised hi => exact ⟨rfl, fun _ => ⟨rfl, rfl⟩, fun _ hp => if_pos hp, fun a ha => absurd ha (hi a)⟩
  | answered hi => exact ⟨rfl, fun _ => ⟨rfl, rfl⟩, fun _ _ => rfl, fun a ha => absurd ha (hi a)⟩

/-- Settles O25: the reserved word and the index past the digest raise the cause outside phase `ERROR`. -/
theorem illegalCommandIsRaised : Obligations.IllegalCommandIsRaised := by
  refine ⟨fun s w rest r hport hdecode hp => ?reserved, fun d s D hp hD hd => ?past⟩
  case reserved =>
    have hp' : (withPort rest s).phase ≠ .error := hp
    rw [step_of_port_reserved hport hdecode, reservedWord_of_ne_error hp', raise_of_ne_error _ hp']
    rfl
  case past => rw [exec_rdout_of_ob_le hp hD hd, raise_of_ne_error _ (by simp [hp])]

/-- Settles O26: each of these commands, and each reserved word, only answers. -/
theorem errorPhaseIgnoresCommands : Obligations.ErrorPhaseIgnoresCommands := by
  intro s hp
  rw [← respond_of_error hp]
  refine ⟨fun d => exec_update_of_error d hp, exec_digest_of_error hp, fun d => exec_rdout_of_error d hp,
    fun w rest r hport hdecode => ?_⟩
  have hp' : (withPort rest s).phase = .error := hp
  rw [step_of_port_reserved hport hdecode, reservedWord_of_error hp', ignoreCommand, respond_of_error hp']
  rfl

end Sys2Proof.Proofs
end

section
/-! PROOFS. Progress (R289, R320), power-on reset (R310, R311), and what the responses hide (R296). -/

namespace Sys2Proof.Safety

open Sys2Proof.Machine

/-! ### No step stops (R289) -/

/-- With the invariant every command completes, and a reserved word and power-on reset always do. -/
theorem Inv.continues_step {s : State} (h : Inv s) : Continues (step s) := by
  obtain ⟨-, hstep⟩ | ⟨w, rest, i, -, -, hstep⟩ | ⟨w, rest, r, -, -, hstep⟩ | ⟨c, rest, -, hstep⟩ :=
    step_cases (s := s) rfl
  · exact ⟨_, hstep⟩
  · obtain ⟨t, hexec, -⟩ := (inv_withPort rest h).followsTable i
    exact ⟨t, hstep.trans hexec⟩
  · exact ⟨_, hstep⟩
  · exact ⟨_, hstep⟩

/-- From a state with the invariant a run of any length goes on, and keeps the invariant. -/
theorem Inv.exists_run {s : State} (h : Inv s) (n : Nat) : ∃ t, Host.Core.run Sys2Proof.core n s = .next t ∧ Inv t := by
  induction n generalizing s with
  | zero => exact ⟨s, rfl, h⟩
  | succ n ih =>
    obtain ⟨u, hstep⟩ := h.continues_step
    rw [core_run_succ (M := Sys2Proof.core) hstep]
    exact ih (Proofs.everyStepKeepsTheInvariant s u h hstep)

end Sys2Proof.Safety

namespace Sys2Proof.Machine

/-! ### Power-on reset and the phase `UNCONF` (R310, R311) -/

/-- The step that takes a power-on reset (R310). -/
theorem step_of_port_powerOn {s : State} {c : Option CommandWord} {rest : List HostEvent}
    (h : s.port = .powerOn c :: rest) : step s = .next (powerOnReset (withPort rest s)) := by
  rw [step, nextEvent_cons h]

/-- No command leads to `UNCONF` (R311). -/
theorem Effect.unconf_of_unconf {i : Instr} {s t : State} (h : Effect i s t) (ht : t.phase = .unconf) :
    s.phase = .unconf := by
  cases h with
  | configError | bind | rearm | store | raised => cases ht
  | accept => simpa using ht
  | read | answered => exact ht

theorem unconf_of_reservedWord_unconf {s : State} (h : (reservedWord s).phase = .unconf) : s.phase = .unconf := by
  obtain ⟨-, hword⟩ | ⟨-, hword⟩ := reservedWord_cases s
  · simpa [hword] using h
  · cases hword ▸ h

/-! ### The registers no response shows (R296) -/

/-- The state with other contents of the chaining state and the block buffer. -/
def withHidden (h : BitVec 1024) (buf : Vector Byte 128) (s : State) : State := { s with h := h, buf := buf }

section Hidden

variable (h : BitVec 1024) (buf : Vector Byte 128) (s : State)

/-- Neither register is part of `STATUS` (R31). -/
theorem response_respond_withHidden : (respond (withHidden h buf s)).response = (respond s).response := rfl

/-- What an accepted byte writes beside `H` and `BUF` does not depend on them (R94). -/
theorem acceptByte_withHidden (D : Descriptor) (d : Byte) :
    ∃ h' buf', acceptByte D d (withHidden h buf s) = withHidden h' buf' (acceptByte D d s) := by
  have hfull : fullFlag D (fifoPush d (withHidden h buf s)) = fullFlag D (fifoPush d s) := rfl
  obtain ⟨hf, heq⟩ | ⟨hf, heq⟩ := acceptByte_cases D d s
  · exact ⟨_, _, by rw [heq, acceptByte, if_neg (by simp [hfull, hf])]; rfl⟩
  · exact ⟨_, _, by rw [heq, acceptByte, if_pos (hfull.trans hf)]; rfl⟩

end Hidden

/-- Whatever the hidden registers hold, the command `i` in state `s` goes on and answers what it answered on the way to
`t`. -/
def AnswersAsIn (i : Instr) (s t : State) : Prop :=
  ∀ h buf, ∃ u, exec i (withHidden h buf s) = .next u ∧ u.response = t.response

section AnswersAsIn

variable {s t : State}

/-- `INIT` overwrites both registers, or keeps them and answers the status. -/
theorem answersAsIn_init {a : BitVec 4} (hexec : exec (.init a) s = .next t) : AnswersAsIn (.init a) s t := by
  intro h buf
  obtain ⟨hD, ⟨⟩⟩ | ⟨D, hD, ⟨⟩⟩ := execInit_cases hexec
  · exact ⟨_, exec_init_of_none hD, rfl⟩
  · exact ⟨_, exec_init_of_some hD, rfl⟩

theorem answersAsIn_reset (hexec : exec .reset s = .next t) : AnswersAsIn .reset s t := by
  intro h buf
  obtain ⟨hc, ⟨⟩⟩ | ⟨-, -, ⟨⟩⟩ | ⟨D, hc, hD, ⟨⟩⟩ := execReset_cases hexec
  · exact ⟨_, exec_reset_of_unbound hc, rfl⟩
  · exact ⟨_, exec_reset_of_bound hc hD, rfl⟩

/-- `UPDATE` writes both registers and decides by the counters (R94). -/
theorem answersAsIn_update {d : BitVec 8} (hexec : exec (.update d) s = .next t) : AnswersAsIn (.update d) s t := by
  intro h buf
  obtain ⟨hp, ⟨⟩⟩ | ⟨hp, ⟨⟩⟩ | ⟨hp, hl, ⟨⟩⟩ | ⟨-, -, -, ⟨⟩⟩ | ⟨-, -, -, -, -, ⟨⟩⟩ | ⟨D, hp, hl, hD, hcur, ⟨⟩⟩ :=
    execUpdate_cases hexec
  · exact ⟨_, exec_update_of_error d hp, rfl⟩
  · exact ⟨_, exec_update_of_closed d hp, rfl⟩
  · exact ⟨_, exec_update_of_lengthExhausted d hp hl, rfl⟩
  · obtain ⟨h', buf', haccept⟩ := acceptByte_withHidden h buf s D d
    exact ⟨_, exec_update_of_room d hp hD hcur hl, by rw [haccept, response_respond_withHidden]⟩

/-- `DIGEST` reads both registers, and answers the status, which does not show `OUT` (R95). -/
theorem answersAsIn_digest (hexec : exec .digest s = .next t) : AnswersAsIn .digest s t := by
  intro h buf
  obtain ⟨hp, ⟨⟩⟩ | ⟨hp, ⟨⟩⟩ | ⟨-, -, ⟨⟩⟩ | ⟨-, -, -, -, ⟨⟩⟩ | ⟨D, hp, hD, hcur, ⟨⟩⟩ := execDigest_cases hexec
  · exact ⟨_, exec_digest_of_error hp, rfl⟩
  · exact ⟨_, exec_digest_of_closed hp, rfl⟩
  · exact ⟨_, exec_digest_of_active hp hD hcur, rfl⟩

/-- `RDOUT` reads `OUT` (R96). -/
theorem answersAsIn_rdout {d : BitVec 8} (hexec : exec (.rdout d) s = .next t) : AnswersAsIn (.rdout d) s t := by
  intro h buf
  obtain ⟨hp, ⟨⟩⟩ | ⟨hp, ⟨⟩⟩ | ⟨-, -, ⟨⟩⟩ | ⟨D, hp, hD, hd, ⟨⟩⟩ | ⟨D, hp, hD, hd, ⟨⟩⟩ := execRdout_cases hexec
  · exact ⟨_, exec_rdout_of_error d hp, rfl⟩
  · exact ⟨_, exec_rdout_of_noDigest d hp, rfl⟩
  · exact ⟨_, exec_rdout_of_ob_le hp hD (not_lt.mp (of_decide_eq_false hd)), rfl⟩
  · exact ⟨_, exec_rdout_of_done hp hD (of_decide_eq_true hd), rfl⟩

theorem answersAsIn_rdstat (hexec : exec .rdstat s = .next t) : AnswersAsIn .rdstat s t := by
  intro h buf
  obtain ⟨⟩ : execRdstat s = .next t := hexec
  exact ⟨respond (withHidden h buf s), rfl, response_respond_withHidden h buf s⟩

end AnswersAsIn

end Sys2Proof.Machine

namespace Sys2Proof.Proofs

open Sys2Proof.Machine Sys2Proof.Safety

/-- Settles O11, by the four forms of a step. -/
theorem noStepStops : Obligations.NoStepStops := fun _ h => h.continues_step

/-- Settles O12: the reset registers have the invariant with any parameter and port, and then a run of any length goes on. -/
theorem noEventSequenceStopsTheMachine : Obligations.NoEventSequenceStopsTheMachine := by
  intro wide events n
  have hinit : Inv { State.reset with wideVariants := wide, port := events } :=
    inv_of_unbound rfl rfl (by simp [State.reset]) (.inl rfl)
  exact hinit.exists_run n

/-- Settles O32, command by command: a run on the changed state takes the same branch and answers the same. -/
theorem responsesHideTheChainingState : Obligations.ResponsesHideTheChainingState := by
  intro i s t h buf hexec
  cases i with
  | init a => exact answersAsIn_init hexec h buf
  | reset => exact answersAsIn_reset hexec h buf
  | update d => exact answersAsIn_update hexec h buf
  | digest => exact answersAsIn_digest hexec h buf
  | rdout d => exact answersAsIn_rdout hexec h buf
  | rdstat => exact answersAsIn_rdstat hexec h buf

/-- Settles O30: of the four forms of a step only power-on reset leads to `UNCONF` from another phase. -/
theorem unconfOnlyByPowerOn : Obligations.UnconfOnlyByPowerOn := by
  intro s t hstep ht
  obtain ⟨-, ⟨⟩⟩ | ⟨w, rest, i, -, -, hexec⟩ | ⟨w, rest, r, -, -, ⟨⟩⟩ | ⟨c, rest, hport, -⟩ := step_cases hstep
  · exact .inl ht
  · exact .inl ((effect_of_exec hexec.symm).unconf_of_unconf ht)
  · exact .inl (unconf_of_reservedWord_unconf (s := withPort rest s) ht)
  · exact .inr ⟨c, rest, hport⟩

/-- Settles O8: the event is taken from the port, and the reset that it applies keeps the parameter and the rest of the
port. -/
theorem powerOnEventLeavesResetValues : Obligations.PowerOnEventLeavesResetValues := by
  intro s c rest hport
  rw [step_of_port_powerOn hport]
  rfl

end Sys2Proof.Proofs
end
